-- ==== Sys2Proof/Word.lean ====
section
/-! DEFINITION. The word types of the block (00 R8, R12): a limb, a pair of limbs, a table entry, a register index. -/

namespace Sys2Proof

/-- A limb: one 32-bit word (00 R8). -/
abbrev Word32 := BitVec 32

/-- Two limbs (00 R8): the widest value in the block. -/
abbrev Word64 := BitVec 64

/-- An entry of the small-prime table: "each entry needs 9 bits" (10 R33). -/
abbrev SmallWord := BitVec 9

/-- What one `RngNext()` answer contributes: 30 usable bits (43 R160). -/
abbrev RandWord := BitVec 30

/-- A register index of the host port: "the host port carries a 4-bit index" (20 R51). -/
abbrev RegIndex := BitVec 4

end Sys2Proof
end

