-- ==== Sys2Proof/Syntax.lean ====
section
/-! DEFINITION. The command set (30 R73), one constructor per row of the opcode table, and the host's actions (30 R76). -/

namespace Sys2Proof

/-- The commands of MLMA-PG, command set version 1, in the order of 30 R73.
The Boolean of the three generator commands is the flag S, "1 asks for a safe prime" (30 R70). -/
inductive Instr where
  | nop
  | cmp32
  | add32
  | sub32
  | neg32
  | srl32
  | sll32
  | mul32
  | bitlen32
  | divrem32
  | cmp64
  | add64
  | sub64
  | neg64
  | srl64
  | sll64
  | bitlen64
  | divrem64
  | mulmod
  | expmod
  | invmod
  | seedrng
  | rand32
  | randbits
  | randrange
  | isprime
  | mrround
  | probprime (safe : Bool)
  | probprimedh (safe : Bool)
  | genprime (safe : Bool)
  | initsp
  | initpt
  deriving DecidableEq, Repr

/-- What the host can do at the register port between two engine turns. -/
inductive HostAction where
  /-- `wr REG, value` and `cmd …` (30 R76): a 32-bit write at a register index. -/
  | write (idx : RegIndex) (value : Word32)
  /-- `rd REG` (30 R76): a 32-bit read at a register index, whose value the script's outcome records (70 R312). -/
  | read (idx : RegIndex)
  /-- `wait` (30 R76): read STATUS again and again until DONE reads 1. -/
  | wait
  /-- The host makes no access (the model's own action, log 4). -/
  | pass
  /-- The reset input is asserted (70 R300; log 13). -/
  | reset
  deriving DecidableEq, Repr

end Sys2Proof
end

