-- ==== Sys2Proof/WellFormed.lean ====
section
/-! DEFINITION. Well-formedness: of a command (every term is one: the only operand in a command word is a Boolean,
30 R71) and, with a check for each of 30 R74's conditions, of a command word. -/

namespace Sys2Proof

/-- The two formats of 30 R70: N has no operand, S has the flag S in bit 8. -/
inductive Format where
  | N
  | S
  deriving DecidableEq, Repr

/-- Every command is well-formed: "the command word carries no immediate and no register number", its only operand
is the one-bit flag S, "used as a Boolean" (30 R71), so no value of a field can be out of range. -/
def Instr.wellFormed : Instr → Bool
  | .nop | .cmp32 | .add32 | .sub32 | .neg32 | .srl32 | .sll32 | .mul32 | .bitlen32 | .divrem32 => true
  | .cmp64 | .add64 | .sub64 | .neg64 | .srl64 | .sll64 | .bitlen64 | .divrem64 => true
  | .mulmod | .expmod | .invmod => true
  | .seedrng | .rand32 | .randbits | .randrange => true
  | .isprime | .mrround => true
  | .probprime _ | .probprimedh _ | .genprime _ => true
  | .initsp | .initpt => true

/-- The opcodes of format N (30 R73). -/
def opcodesN : List (BitVec 8) :=
  [0x00, 0x01, 0x02, 0x03, 0x04, 0x05, 0x06, 0x07, 0x08, 0x09,
   0x11, 0x12, 0x13, 0x14, 0x15, 0x16, 0x18, 0x19,
   0x21, 0x22, 0x23, 0x30, 0x31, 0x32, 0x33, 0x41, 0x42, 0x60, 0x61]

/-- The opcodes of format S (30 R73). -/
def opcodesS : List (BitVec 8) := [0x51, 0x52, 0x53]

/-- The first check of 30 R74: the opcode byte is in the opcode map. -/
def opcodeUsed (w : Word32) : Bool :=
  (opcodesN ++ opcodesS).contains (w.setWidth 8)

/-- The second and third check of 30 R74: `w[31:8] = 0` for an opcode of format N, `w[31:9] = 0` for one of
format S. -/
def reservedZero (w : Word32) : Bool :=
  if opcodesS.contains (w.setWidth 8) then w >>> 9 == 0#32 else w >>> 8 == 0#32

/-- A legal command word (30 R74). -/
def wordWellFormed (w : Word32) : Bool := opcodeUsed w && reservedZero w

end Sys2Proof
end

