-- ==== Sys2Proof/Decode.lean ====
section
/-! DEFINITION. The decoder of 30 R74, total on every 32-bit word and rejecting by name, and the encoder written from
30 R70 and R73. -/

namespace Sys2Proof

/-- Why a word is no command (30 R74): each is the error IllegalCommand at the block (60 R273). -/
inductive Reject where
  /-- The opcode byte is not in the map of 30 R73. -/
  | unusedOpcode (op : BitVec 8)
  /-- Format N with `w[31:8] ≠ 0`. -/
  | reservedBitsN
  /-- Format S with `w[31:9] ≠ 0`. -/
  | reservedBitsS
  deriving DecidableEq, Repr

/-- What the decoder answers. -/
inductive Decoded where
  | instr (i : Instr)
  | rejected (why : Reject)
  deriving DecidableEq, Repr

/-- A row of the opcode map: the format, and the command as a function of the flag S (a format N row ignores it). -/
structure OpRow where
  op : BitVec 8
  fmt : Format
  build : Bool → Instr

/-- The opcode map (30 R73), row by row. -/
def opcodeMap : List OpRow :=
  [⟨0x00, .N, fun _ => .nop⟩,
   ⟨0x01, .N, fun _ => .cmp32⟩,
   ⟨0x02, .N, fun _ => .add32⟩,
   ⟨0x03, .N, fun _ => .sub32⟩,
   ⟨0x04, .N, fun _ => .neg32⟩,
   ⟨0x05, .N, fun _ => .srl32⟩,
   ⟨0x06, .N, fun _ => .sll32⟩,
   ⟨0x07, .N, fun _ => .mul32⟩,
   ⟨0x08, .N, fun _ => .bitlen32⟩,
   ⟨0x09, .N, fun _ => .divrem32⟩,
   ⟨0x11, .N, fun _ => .cmp64⟩,
   ⟨0x12, .N, fun _ => .add64⟩,
   ⟨0x13, .N, fun _ => .sub64⟩,
   ⟨0x14, .N, fun _ => .neg64⟩,
   ⟨0x15, .N, fun _ => .srl64⟩,
   ⟨0x16, .N, fun _ => .sll64⟩,
   ⟨0x18, .N, fun _ => .bitlen64⟩,
   ⟨0x19, .N, fun _ => .divrem64⟩,
   ⟨0x21, .N, fun _ => .mulmod⟩,
   ⟨0x22, .N, fun _ => .expmod⟩,
   ⟨0x23, .N, fun _ => .invmod⟩,
   ⟨0x30, .N, fun _ => .seedrng⟩,
   ⟨0x31, .N, fun _ => .rand32⟩,
   ⟨0x32, .N, fun _ => .randbits⟩,
   ⟨0x33, .N, fun _ => .randrange⟩,
   ⟨0x41, .N, fun _ => .isprime⟩,
   ⟨0x42, .N, fun _ => .mrround⟩,
   ⟨0x51, .S, fun s => .probprime s⟩,
   ⟨0x52, .S, fun s => .probprimedh s⟩,
   ⟨0x53, .S, fun s => .genprime s⟩,
   ⟨0x60, .N, fun _ => .initsp⟩,
   ⟨0x61, .N, fun _ => .initpt⟩]

/-- `w[7:0]`, the opcode byte (30 R70). -/
def opcodeField (w : Word32) : BitVec 8 := w.extractLsb' 0 8

/-- `w[8]`, the flag S (30 R70). -/
def flagS (w : Word32) : Bool := w.getLsbD 8

/-- The decoder (30 R74). -/
def decodeWord (w : Word32) : Decoded :=
  match opcodeMap.find? (fun r => r.op == opcodeField w) with
  | none => .rejected (.unusedOpcode (opcodeField w))
  | some r =>
    match r.fmt with
    | .N => if w.extractLsb' 8 24 = 0#24 then .instr (r.build false) else .rejected .reservedBitsN
    | .S => if w.extractLsb' 9 23 = 0#23 then .instr (r.build (flagS w)) else .rejected .reservedBitsS

/-- The command of a legal word, `none` for an illegal one. -/
def decode (w : Word32) : Option Instr :=
  match decodeWord w with
  | .instr i => some i
  | .rejected _ => none

/-- The command in the first `nbits` bits of `w`, numbered as spec/opcode_table.json numbers them: a command is ONE
32-bit word (30 R70), and every bit above `nbits` is 0. -/
def decodeTableWord (nbits w : Nat) : Option Instr :=
  decode (BitVec.ofNat 32 (w % 2 ^ nbits))

/-- The opcode of a command (30 R73). -/
def opcode : Instr → BitVec 8
  | .nop => 0x00
  | .cmp32 => 0x01
  | .add32 => 0x02
  | .sub32 => 0x03
  | .neg32 => 0x04
  | .srl32 => 0x05
  | .sll32 => 0x06
  | .mul32 => 0x07
  | .bitlen32 => 0x08
  | .divrem32 => 0x09
  | .cmp64 => 0x11
  | .add64 => 0x12
  | .sub64 => 0x13
  | .neg64 => 0x14
  | .srl64 => 0x15
  | .sll64 => 0x16
  | .bitlen64 => 0x18
  | .divrem64 => 0x19
  | .mulmod => 0x21
  | .expmod => 0x22
  | .invmod => 0x23
  | .seedrng => 0x30
  | .rand32 => 0x31
  | .randbits => 0x32
  | .randrange => 0x33
  | .isprime => 0x41
  | .mrround => 0x42
  | .probprime _ => 0x51
  | .probprimedh _ => 0x52
  | .genprime _ => 0x53
  | .initsp => 0x60
  | .initpt => 0x61

/-- The flag S of a command: the operand of the format S commands, 0 for every other (30 R70). -/
def safeFlag : Instr → Bool
  | .probprime s => s
  | .probprimedh s => s
  | .genprime s => s
  | _ => false

/-- The command word: opcode in bits 7:0, S in bit 8, bits 31:9 zero (30 R70, R76). -/
def encode (i : Instr) : Word32 :=
  0#23 ++ BitVec.ofBool (safeFlag i) ++ opcode i

end Sys2Proof
end

