-- ==== Sys2Proof/Config.lean ====
section
/-! DEFINITION. What is fixed for the block: the counts of 00 R9 and R10, the open parameters of 00 R11, and the
free values (constants without a body: nothing in Lean can evaluate them). -/

namespace Sys2Proof.Config

/-- `NPRIMES` (00 R9). -/
def nPrimes : Nat := 64

/-- `RANGE_ATTEMPTS`, "range-sampling's 100-attempt cap" (00 R9). -/
def rangeAttempts : Nat := 100

/-- `BITS_MIN` (00 R10). -/
def bitsMin : Nat := 2

/-- `BITS_MAX` (00 R10). -/
def bitsMax : Nat := 31

/-- `SAFE_BITS_MIN` (00 R10). -/
def safeBitsMin : Nat := 6

/-- Which function `compose3` is (00 R11 b): the spec's default (43 R162) or another of the implementation's own. -/
inductive Compose3 where
  | standard
  | other (id : Nat)
  deriving DecidableEq, Repr

/-- The open parameters of 00 R11 (log 6). No step changes them; statements quantify over them. -/
structure Params where
  /-- `MAXDELTA`, the bound on the sieve offset (45 R209). -/
  maxDelta : Word32
  /-- `SIEVE_SELF_EXEMPT` (45 R207). -/
  selfExempt : Bool
  /-- `compose3` (43 R162). -/
  compose3 : Compose3
  deriving DecidableEq, Repr

/-- The spec's defaults: `2^32 - 1 - 311`, false, and the composition of 43 R162. -/
def Params.default : Params := ⟨4294966984, false, .standard⟩

/-- FREE VALUE (log 2): the random source's answer to a `RngNext()`, as an uninterpreted function of how many calls
were made before it and of the seeds it was handed (with the call count at each). 43 R160: "a free input under no
law". -/
opaque rngWord (calls : Nat) (seeds : List (Nat × Word32)) : Word32

/-- FREE VALUE (log 5): what a host read of a result register, or of STATUS's fields C and ERR, gives while
BUSY = 1 (20 R57, 93 U2 and U3). -/
opaque freeRead (count : Nat) : Word32

/-- FREE VALUE (log 6): a composition other than the spec's default (00 R11 b, 92 D19). -/
opaque otherCompose3 (id : Nat) (w0 w1 w2 : RandWord) : Word32

end Sys2Proof.Config
end

