-- ==== Sys2Proof/Machine/State.lean ====
section
/-! DEFINITION. The state of the block (10), of its random-source port and of its host, as plain data; the error codes;
the reasons a step can stop; the state after reset (10 R39, 70 R301). -/

namespace Sys2Proof.Machine

/-- The error kinds of STATUS.ERR (60 R270). -/
inductive ErrKind where
  | invalidParameter
  | samplingExhausted
  | noInverseExists
  /-- Never raised by the block; reserved for host software (60 R278). -/
  | degenerateSharedSecret
  | primalityInconclusive
  | illegalCommand
  | notInitialised
  deriving DecidableEq, Repr

/-- The sequencer's states (10 R30). -/
inductive Seq where
  | idle
  /-- The single step of a command without loops. -/
  | exec
  /-- Range sampling, attempt `k` = 1..100 (43 R166). -/
  | rrTry (k : Nat)
  | ipPre
  | ipTrial (i : Nat)
  | ipFactor
  /-- Round `j`: before its base draw (`drawn = false`) or, the draw made, at its exponentiation (44 R186; log 18). -/
  | ipRound (j : Nat) (drawn : Bool)
  | ipSquare (j t : Nat)
  | pgCheck
  | pgAgain
  | pgResidue
  | pgLoop
  | pgSieve (i : Nat)
  | pgBump
  | pgFinal
  | gpCall
  | gpVerifyP
  | gpVerifyQ
  deriving DecidableEq, Repr

/-- For which verification of GENPRIME the primality tester runs (45 R218): none in ISPRIME itself. -/
inductive Verify where
  | none
  | p
  | q
  deriving DecidableEq, Repr

/-- The divider's working registers (10 R36, 41 R129); `rounds` counts completed rounds (log 22); `d` after no
rounds is the model's choice (log 23). -/
structure DivWork where
  q : Word64
  r : Word64
  d : Word64
  rounds : Nat
  deriving DecidableEq, Repr

/-- The exponentiator's working registers (10 R36, 42 R142): "64-bit accumulator and base". -/
structure ExpWork where
  acc : Word64
  base : Word64
  e : Word32
  deriving DecidableEq, Repr

/-- The sign flag of the modular inverse (42 R144). -/
inductive Sign where
  | minus
  | plus
  deriving DecidableEq, Repr

/-- The working registers of the modular inverse (10 R36, 42 R144): "they fit one limb". -/
structure InvWork where
  a : Word32
  b : Word32
  x : Word32
  y : Word32
  sign : Sign
  deriving DecidableEq, Repr

/-- The range under draw and its width in bits (43 R165; log 9). -/
structure DrawWork where
  range : Word32
  width : Nat
  deriving DecidableEq, Repr

/-- The Miller-Rabin controller's working registers (10 R36), with the number under test and the round's base
(log 9). -/
structure MrWork where
  w : Word32
  a : Nat
  m : Word32
  b : Word32
  z : Word32
  round : Nat
  deriving DecidableEq, Repr

/-- The machine: the block's architectural and internal state (10), its random-source port (43 R160) and its host.
INVENTORY.md lists every field with its rule. -/
structure State where
  xh : Word32
  xl : Word32
  yh : Word32
  yl : Word32
  m : Word32
  add : Word32
  rem : Word32
  checks : Word32
  ph : Word32
  pl : Word32
  qh : Word32
  ql : Word32
  cmd : Word32
  busy : Bool
  done : Bool
  carry : Bool
  isp : Bool
  ipt : Bool
  err : BitVec 4
  seq : Seq
  running : Option Instr
  verify : Verify
  sp : List SmallWord
  pow2 : List Word32
  mods : List SmallWord
  delta : Word32
  cand : Word64
  div : DivWork
  exp : ExpWork
  inv : InvWork
  draw : DrawWork
  mr : MrWork
  rngIn : List Word32
  rngCalls : Nat
  rngSeeds : List (Nat × Word32)
  hostQueue : List HostAction
  hostOut : List Word32
  freeReads : Nat
  pace : Nat
  params : Config.Params
  deriving DecidableEq, Repr

/-- The faults. Neither can be reached from reset; see log 11. -/
inductive Fault where
  /-- Raised by a sequencer transition that would drive the bare divider with divisor 0: a table entry of 0, a number
  under test of 0, or ADD = 0 in a class search. 93 U1 gives the divider no value there. Safe: the model stops where
  nothing is specified. -/
  | zeroDivisor
  /-- Raised by a sequencer transition in a state that the running command does not have (10 R30). Safe: such states
  are not the spec's. -/
  | badSequencer
  deriving DecidableEq, Repr

/-- The refusals. -/
inductive Refusal where
  /-- Raised by exec's arm of a command that has no meaning yet. Safe: the model stops. -/
  | notModelled (mnemonic : String)
  deriving DecidableEq, Repr

/-- The outcome of a command, a transition or a step. -/
abbrev Out := Host.Outcome State Fault Refusal

/-- The state after reset (10 R39, 70 R301). The host registers, STATUS and `seq` hold the values the spec states;
`sp`, `pow2`, `mods`, `delta`, `cand` and the working registers are unspecified after reset and hold the values of
log 1; the model's own fields hold those of logs 2 to 6. -/
def State.reset : State where
  xh := 0
  xl := 0
  yh := 0
  yl := 0
  m := 0
  add := 0
  rem := 0
  checks := 0
  ph := 0
  pl := 0
  qh := 0
  ql := 0
  cmd := 0
  busy := false
  done := false
  carry := false
  isp := false
  ipt := false
  err := 0
  seq := .idle
  running := none
  verify := .none
  sp := List.replicate 64 0
  pow2 := List.replicate 32 0
  mods := List.replicate 64 0
  delta := 0
  cand := 0
  div := ⟨0, 0, 0, 0⟩
  exp := ⟨0, 0, 0⟩
  inv := ⟨0, 0, 0, 0, .minus⟩
  draw := ⟨0, 0⟩
  mr := ⟨0, 0, 0, 0, 0, 0⟩
  rngIn := []
  rngCalls := 0
  rngSeeds := []
  hostQueue := []
  hostOut := []
  freeReads := 0
  pace := 4096
  params := Config.Params.default

end Sys2Proof.Machine
end

