-- ==== Sys2Proof/Machine/Operands.lean ====
section
/-! DEFINITION. Limbs and pairs of limbs (20 R52), and the operand forms of 30 R71: 32-bit operands in XL and YL,
64-bit operands in XH:XL and YH:YL, the shift amount in YL, the parameters in M, ADD, REM, CHECKS. -/

namespace Sys2Proof.Machine

/-- `{hi, lo} = hi * 2^32 + lo` (20 R52). -/
def joinLimbs (hi lo : Word32) : Word64 := hi ++ lo

/-- `v[63:32]`. -/
def hiLimb (v : Word64) : Word32 := v.extractLsb' 32 32

/-- `v[31:0]`. -/
def loLimb (v : Word64) : Word32 := v.extractLsb' 0 32

/-- `zext_64(v)` (00 R12). -/
def zext64 (v : Word32) : Word64 := v.setWidth 64

/-- A table entry on the 64-bit datapath. -/
def zextSmall (v : SmallWord) : Word64 := v.setWidth 64

/-- The first 32-bit operand, `a = x[XL]`. -/
def State.opA (s : State) : Word32 := s.xl

/-- The second 32-bit operand, `b = x[YL]`. -/
def State.opB (s : State) : Word32 := s.yl

/-- The first 64-bit operand, `A = {x[XH], x[XL]}`. -/
def State.opA64 (s : State) : Word64 := joinLimbs s.xh s.xl

/-- The second 64-bit operand, `B = {x[YH], x[YL]}`. -/
def State.opB64 (s : State) : Word64 := joinLimbs s.yh s.yl

/-- The shift amount: the whole of YL, read unsigned, for both widths (30 R72). -/
def State.shiftAmount (s : State) : Nat := s.yl.toNat

/-- The modulus, x[M] (10 R25). -/
def State.modulus (s : State) : Word32 := s.m

/-- The bit length asked for, the whole of XL read unsigned (30 R72). -/
def State.bits (s : State) : Nat := s.xl.toNat

end Sys2Proof.Machine
end

