-- ==== Sys2Proof/Machine/Flags.lean ====
section
/-! DEFINITION. The flag C: carry out of a sum, borrow of a difference, in the forms 40 R102, 40 R103 and 41 R123 give
them. Every other command writes C with 0 (10 R31). -/

namespace Sys2Proof.Machine

/-- `add_with_carry` (40 R102): the carry "computed by comparing `b` against the bitwise complement of `a`". -/
def addWithCarry (a b : Word32) : Word32 × Bool :=
  (a + b, decide (~~~a < b))

/-- `sub_with_borrow` (40 R103): `a + (~b + 1)` by two carry-safe adds, the borrow `1 - (c1 | c2)`. -/
def subWithBorrow (a b : Word32) : Word32 × Bool :=
  let t := addWithCarry (~~~b) 1
  let d := addWithCarry a t.1
  (d.1, !(t.2 || d.2))

/-- A carry or borrow as an addend. -/
def carryIn (c : Bool) : Word32 := if c then 1 else 0

/-- The 64-bit sum, low limb first, and its carry `c1 | c2` (41 R123). -/
def addWithCarry64 (a b : Word64) : Word64 × Bool :=
  let lo := addWithCarry (loLimb a) (loLimb b)
  let t := addWithCarry (hiLimb a) (hiLimb b)
  let hi := addWithCarry t.1 (carryIn lo.2)
  (joinLimbs hi.1 lo.1, t.2 || hi.2)

/-- The 64-bit difference, low limb first, and its borrow `w1 | w2` (41 R123). -/
def subWithBorrow64 (a b : Word64) : Word64 × Bool :=
  let lo := subWithBorrow (loLimb a) (loLimb b)
  let t := subWithBorrow (hiLimb a) (hiLimb b)
  let hi := subWithBorrow t.1 (carryIn lo.2)
  (joinLimbs hi.1 lo.1, t.2 || hi.2)

end Sys2Proof.Machine
end

