-- ==== Sys2Proof/Machine/Datapath.lean ====
section
/-! DEFINITION. The functional units of the datapath, as the rules of 40 to 44 give them: compare, negate, shift,
multiply, bit length, the shift-subtract divider, the modular multiplier, the square-and-multiply exponentiator, the
modular inverse, the witness test. The units with working registers (10 R36) are functions on those registers. -/

namespace Sys2Proof.Machine

/-- CMP32's coding: minus one, zero, plus one (40 R101). -/
def cmp32 (a b : Word32) : Word32 :=
  if a < b then 0xFFFFFFFF#32 else if a = b then 0#32 else 1#32

/-- CMP64: the more significant limbs decide unless they are equal (41 R121). -/
def cmp64 (a b : Word64) : Word32 :=
  let t := cmp32 (hiLimb a) (hiLimb b)
  if t = 0#32 then cmp32 (loLimb a) (loLimb b) else t

/-- NEG32: `~a + 1` through the carry-safe add (40 R104). -/
def neg32 (a : Word32) : Word32 := (addWithCarry (~~~a) 1).1

/-- NEG64 by limbs (41 R125). -/
def neg64 (a : Word64) : Word64 :=
  let lo := addWithCarry (~~~(loLimb a)) 1
  joinLimbs (~~~(hiLimb a) + carryIn lo.2) lo.1

/-- SRL32: zero-fill right shift, 0 for an amount of 32 or more (40 R105). -/
def srl32 (v : Word32) (n : Nat) : Word32 := if 32 ≤ n then 0#32 else v >>> n

/-- SLL32: left shift, 0 for an amount of 32 or more (40 R106). -/
def sll32 (v : Word32) (n : Nat) : Word32 := if 32 ≤ n then 0#32 else v <<< n

/-- SRL64 by limbs (41 R126). -/
def srl64 (v : Word64) (n : Nat) : Word64 :=
  if n = 0 then v
  else if n < 32 then
    joinLimbs (srl32 (hiLimb v) n) (srl32 (loLimb v) n ||| sll32 (hiLimb v) (32 - n))
  else if n < 64 then joinLimbs 0#32 (srl32 (hiLimb v) (n - 32))
  else 0#64

/-- SLL64 by limbs (41 R127). -/
def sll64 (v : Word64) (n : Nat) : Word64 :=
  if n = 0 then v
  else if n < 32 then
    joinLimbs (sll32 (hiLimb v) n ||| srl32 (loLimb v) (32 - n)) (sll32 (loLimb v) n)
  else if n < 64 then joinLimbs (sll32 (loLimb v) (n - 32)) 0#32
  else 0#64

/-- MUL32: the half-word datapath of 40 R107, with the two stages of carry propagation. -/
def mul32 (a b : Word32) : Word64 :=
  let ah := a >>> 16
  let al := a &&& 0xFFFF#32
  let bh := b >>> 16
  let bl := b &&& 0xFFFF#32
  let lo := al * bl
  let m1 := ah * bl
  let m2 := al * bh
  let hi := ah * bh
  let s1 := addWithCarry lo (m1 <<< 16)
  let s2 := addWithCarry s1.1 (m2 <<< 16)
  let k := carryIn s1.2 + carryIn s2.2
  joinLimbs (hi + (m1 >>> 16) + (m2 >>> 16) + k) s2.1

/-- The loop of `bit_length` (40 R108, 41 R128): from `n`, "while SRL(v, n) != 0 do n <- n + 1". It ends within the
width. -/
def bitLenFrom {w : Nat} (v : BitVec w) : Nat → Nat → Nat
  | 0, n => n
  | fuel + 1, n => if v >>> n = 0#w then n else bitLenFrom v fuel (n + 1)

/-- BITLEN32 and BITLEN64 (40 R108, 41 R128). -/
def bitLen {w : Nat} (v : BitVec w) : Nat := bitLenFrom v w 0

/-- One round of the divider's loop (41 R129). The round counter of 10 R36 counts the completed rounds, up from 0, and
keeps the total after the division; the spec gives the counter no coding (DESIGN CHOICE, log 22). -/
def divRound (t : DivWork) : DivWork :=
  let q := t.q <<< 1
  if t.d ≤ t.r then ⟨q ||| 1#64, t.r - t.d, t.d >>> 1, t.rounds + 1⟩
  else ⟨q, t.r, t.d >>> 1, t.rounds + 1⟩

/-- `n` rounds of the divider. -/
def divRounds : Nat → DivWork → DivWork
  | 0, t => t
  | n + 1, t => divRounds n (divRound t)

/-- The divider (41 R129): `bit_length(a) - bit_length(b) + 1` rounds, none when that is not positive. The rule assigns
no `d` when there is no round: the model then leaves `d = b` (DESIGN CHOICE, log 23), which nothing reads.
The divider has no value at divisor 0 (93 U1): its caller shows the divisor is not 0. -/
def divRem64 (a b : Word64) (_divisor : b ≠ 0#64) : DivWork :=
  let k := bitLen a - bitLen b
  divRounds (if bitLen a < bitLen b then 0 else k + 1) ⟨0#64, a, b <<< k, 0⟩

theorem zext64_ne_zero {p : Word32} (h : p ≠ 0#32) : zext64 p ≠ 0#64 := by
  intro hz
  apply h
  have := congrArg BitVec.toNat hz
  apply BitVec.eq_of_toNat_eq
  simp only [zext64, BitVec.toNat_setWidth] at this
  have hp := p.isLt
  simp at this ⊢
  omega

/-- MULMOD (42 R141): the 64-bit product, reduced by the divider. -/
def mulMod (a b p : Word32) (h : p ≠ 0#32) : Word32 :=
  loLimb (divRem64 (mul32 a b) (zext64 p) (zext64_ne_zero h)).r

/-- One round of EXPMOD's loop (42 R142): multiply if the exponent's bit 0 is 1, square, shift the exponent. -/
def expRound (m : Word32) (h : m ≠ 0#32) (t : ExpWork) : ExpWork :=
  { acc := if t.e.getLsbD 0 then zext64 (mulMod (loLimb t.acc) (loLimb t.base) m h) else t.acc
    base := zext64 (mulMod (loLimb t.base) (loLimb t.base) m h)
    e := srl32 t.e 1 }

/-- EXPMOD's loop: "while e != 0", at most `n` rounds. -/
def expRounds (m : Word32) (h : m ≠ 0#32) : Nat → ExpWork → ExpWork
  | 0, t => t
  | n + 1, t => if t.e = 0#32 then t else expRounds m h n (expRound m h t)

/-- EXPMOD's registers at the end: BITLEN32(e) rounds, at most 32 (42 R142). -/
def expRun (base e m : Word32) (h : m ≠ 0#32) : ExpWork :=
  expRounds m h 32 ⟨1#64, zext64 base, e⟩

/-- EXPMOD (42 R142). -/
def expMod (base e m : Word32) (h : m ≠ 0#32) : Word32 := loLimb (expRun base e m h).acc

/-- `x / 2` modulo the odd `n`: "if x[0] == 1 then x <- x + n ; x <- x / 2", the sum of 33 bits (42 R145). -/
def halveMod (n x : Word32) : Word32 :=
  loLimb ((if x.getLsbD 0 then zext64 x + zext64 n else zext64 x) >>> 1)

/-- "while b[0] == 0 do" halve `b`, and `x` modulo `n` (42 R145), at most `fuel` times; `b` is not 0. -/
def halveWhileEven (n : Word32) : Nat → Word32 × Word32 → Word32 × Word32
  | 0, t => t
  | fuel + 1, t =>
    if t.1.getLsbD 0 then t else halveWhileEven n fuel (t.1 >>> 1, halveMod n t.2)

/-- `x + y`, less `n` if it is not below `n` (42 R145). -/
def addMod (n x y : Word32) : Word32 :=
  let t := zext64 x + zext64 y
  loLimb (if zext64 n ≤ t then t - zext64 n else t)

/-- One pass of the loop for odd `n` (42 R145). A nonzero 32-bit value is odd after at most 31 halvings. -/
def invOddPass (n : Word32) (t : InvWork) : InvWork :=
  let bx := halveWhileEven n 32 (t.b, t.x)
  let ay := halveWhileEven n 32 (t.a, t.y)
  if ay.1 ≤ bx.1 then ⟨ay.1, bx.1 - ay.1, addMod n bx.2 ay.2, ay.2, t.sign⟩
  else ⟨ay.1 - bx.1, bx.1, bx.2, addMod n ay.2 bx.2, t.sign⟩

/-- The loop for odd `n`: "while B != 0", at most `fuel` passes; each pass lowers A + B (42 R145). -/
def invOddLoop (n : Word32) : Nat → InvWork → InvWork
  | 0, t => t
  | fuel + 1, t => if t.b = 0#32 then t else invOddLoop n fuel (invOddPass n t)

/-- The sign flag turned over. -/
def Sign.flip : Sign → Sign
  | .minus => .plus
  | .plus => .minus

/-- One pass of the loop for even `n` (42 R144): quotient and remainder, the co-factors from their old values. -/
def invEvenPass (t : InvWork) (h : t.b ≠ 0#32) : InvWork :=
  let d := divRem64 (zext64 t.a) (zext64 t.b) (zext64_ne_zero h)
  ⟨t.b, loLimb d.r, loLimb (d.q * zext64 t.x + zext64 t.y), t.x, t.sign.flip⟩

/-- The loop for even `n`: "while B != 0", at most `fuel` passes; each pass lowers B (42 R144). -/
def invEvenLoop : Nat → InvWork → InvWork
  | 0, t => t
  | fuel + 1, t => if h : t.b = 0#32 then t else invEvenLoop fuel (invEvenPass t h)

/-- The inverse's registers at the end of its loop (42 R144, R145): start `B = a mod n`, `A = n`, `X = 1`, `Y = 0`,
sign minus; the path by the parity of `n`. -/
def invRun (a n : Word32) (h : n ≠ 0#32) : InvWork :=
  let b := loLimb (divRem64 (zext64 a) (zext64 n) (zext64_ne_zero h)).r
  let t : InvWork := ⟨n, b, 1#32, 0#32, .minus⟩
  if n.getLsbD 0 then invOddLoop n (n.toNat + b.toNat + 1) t else invEvenLoop (b.toNat + 1) t

/-- The value at the loop's end (42 R144): `Y mod n` or `(n - (Y mod n)) mod n` by the sign, none when
`A`, then the greatest common divisor, is not 1. -/
def invResult (t : InvWork) (n : Word32) (h : n ≠ 0#32) : Option Word32 :=
  if t.a = 1#32 then
    let y := loLimb (divRem64 (zext64 t.y) (zext64 n) (zext64_ne_zero h)).r
    match t.sign with
    | .plus => some y
    | .minus => some (loLimb (divRem64 (zext64 (n - y)) (zext64 n) (zext64_ne_zero h)).r)
  else none

/-- The number of trailing zero bits of `v`, counted from `n` on, within `fuel` (44 R179). -/
def trailingZerosFrom (v : Word32) : Nat → Nat → Nat
  | 0, n => n
  | fuel + 1, n => if v.getLsbD n then n else trailingZerosFrom v fuel (n + 1)

/-- `(a, m)` with `w - 1 = 2^a * m`, `m` odd (44 R179): `a` the trailing zero bits of `w - 1`, `m = SRL32(w - 1, a)`. -/
def factorTwos (w : Word32) : Nat × Word32 :=
  let a := trailingZerosFrom (w - 1#32) 32 0
  (a, srl32 (w - 1#32) a)

/-- The squarings of the witness test, "at most `n`" (44 R182), with the last `z`: passes only by reaching `w - 1`. -/
def squareUpTo (w : Word32) (h : w ≠ 0#32) : Nat → Word32 → Bool × Word32
  | 0, z => (false, z)
  | n + 1, z =>
    let z' := mulMod z z w h
    if z' = w - 1#32 then (true, z')
    else if z' = 1#32 then (false, z')
    else squareUpTo w h n z'

/-- WITNESS(w, a, m, b) with the last running value `z` (44 R182). -/
def witness (w : Word32) (h : w ≠ 0#32) (a : Nat) (m b : Word32) : Bool × Word32 :=
  let z := expMod b m w h
  if z = 1#32 ∨ z = w - 1#32 then (true, z) else squareUpTo w h (a - 1) z

/-- `compose3`'s default (43 R162): 11 + 11 + 10 bits, the first call in the most significant place. -/
def composeStandard (w0 w1 w2 : RandWord) : Word32 :=
  w0.extractLsb' 19 11 ++ w1.extractLsb' 19 11 ++ w2.extractLsb' 20 10

/-- `compose3` as the parameter has it (00 R11 b). -/
def compose3 (p : Config.Compose3) (w0 w1 w2 : RandWord) : Word32 :=
  match p with
  | .standard => composeStandard w0 w1 w2
  | .other id => Config.otherCompose3 id w0 w1 w2

/-- "the low n bits of r; r itself when n = 32" (43 R164). -/
def lowBits (r : Word32) (n : Nat) : Word32 :=
  if 32 ≤ n then r else BitVec.ofNat 32 (r.toNat % 2 ^ n)

/-- The first 64 primes, the content of `SP[0..63]` (10 R33). -/
def smallPrimes : List SmallWord :=
  [2, 3, 5, 7, 11, 13, 17, 19, 23, 29, 31, 37, 41, 43, 47, 53, 59, 61, 67, 71, 73, 79, 83, 89, 97, 101, 103, 107, 109,
   113, 127, 131, 137, 139, 149, 151, 157, 163, 167, 173, 179, 181, 191, 193, 197, 199, 211, 223, 227, 229, 233, 239,
   241, 251, 257, 263, 269, 271, 277, 281, 283, 293, 307, 311]

/-- The content of `POW2[0..31]`: `2^i` (10 R34, 46 R233). -/
def powersOfTwo : List Word32 := (List.range 32).map (fun i => 1#32 <<< i)

end Sys2Proof.Machine
end

