-- ==== Sys2Proof/Machine/Ops.lean ====
section
/-! DEFINITION. The shared operations of the block: starting and ending a command, raising an error (the block's
exception, 60 R272), the register port (10 R20, 20 R56, R57), the random-source port (43 R160), one guarded division,
and the reset input (70 R300). -/

namespace Sys2Proof.Machine

/-- The number of an error in STATUS.ERR (60 R270). -/
def ErrKind.code : ErrKind → BitVec 4
  | .invalidParameter => 1
  | .samplingExhausted => 2
  | .noInverseExists => 3
  | .degenerateSharedSecret => 4
  | .primalityInconclusive => 5
  | .illegalCommand => 6
  | .notInitialised => 7

/-- A command starts (10 R28): BUSY <- 1, DONE <- 0, the sequencer leaves IDLE. -/
def State.start (i : Instr) (s : State) : State :=
  { s with busy := true, done := false, seq := .exec, running := some i, verify := .none }

/-- A command ends without error (10 R23, R28): it writes all four result registers and C, ERR <- 0, DONE <- 1,
BUSY <- 0, IDLE. -/
def State.finish (ph pl qh ql : Word32) (c : Bool) (s : State) : State :=
  { s with
    ph := ph, pl := pl, qh := qh, ql := ql, carry := c, err := 0,
    done := true, busy := false, seq := .idle, running := none, verify := .none }

/-- The end of a command whose one result is 32 bits wide (20 R53): PL, the others 0. -/
def State.finish32 (pl : Word32) (s : State) : State := s.finish 0 pl 0 0 false

/-- The end of a command whose one result is 64 bits wide: PH:PL, QH and QL 0. -/
def State.finish64 (p : Word64) (c : Bool) (s : State) : State := s.finish (hiLimb p) (loLimb p) 0 0 c

/-- `raise E()` (60 R272): no partial result, ERR <- the code, DONE <- 1, BUSY <- 0, IDLE; nothing else changes. -/
def State.raise (e : ErrKind) (s : State) : State :=
  { s with
    ph := 0, pl := 0, qh := 0, ql := 0, carry := false, err := e.code,
    done := true, busy := false, seq := .idle, running := none, verify := .none }

/-- A command that needs the tables (60 R274): started, then refused with NotInitialised unless ISP and IPT are both
1, "before any operand is read or any random word drawn". -/
def State.command (i : Instr) (body : State → Out) (s : State) : Out :=
  if s.isp && s.ipt then body (s.start i) else .next ((s.start i).raise .notInitialised)

/-- A command accepted before setup (60 R274): NOP, INITSP, INITPT, SEEDRNG. -/
def State.exempt (i : Instr) (body : State → Out) (s : State) : Out := body (s.start i)

/-- A division inside a command (41 R129); the bare divider has no value at 0 (93 U1). -/
def State.divide (a b : Word64) (k : DivWork → State → Out) (s : State) : Out :=
  if h : b = 0#64 then .fault .zeroDivisor
  else
    let d := divRem64 a b h
    k d { s with div := d }

/-- `RngNext()` (43 R160): the next answer of the source, and the generator's counter advanced (10 R37). -/
def State.rngNext (s : State) : Word32 × State :=
  match s.rngIn with
  | [] => (Config.rngWord s.rngCalls s.rngSeeds, { s with rngCalls := s.rngCalls + 1 })
  | w :: rest => (w, { s with rngIn := rest, rngCalls := s.rngCalls + 1 })

/-- `RngSeed(v)` (43 R160, R161): the seed goes to the port; nothing changes inside the block. -/
def State.rngSeed (v : Word32) (s : State) : State :=
  { s with rngSeeds := (s.rngCalls, v) :: s.rngSeeds }

/-- The usable bits 29 to 0 of an answer (43 R160). -/
def usableBits (w : Word32) : RandWord := w.extractLsb' 0 30

/-- One composed word: three `RngNext()` calls in order (43 R162). -/
def State.randWord (s : State) : Word32 × State :=
  let r0 := s.rngNext
  let r1 := r0.2.rngNext
  let r2 := r1.2.rngNext
  (compose3 s.params.compose3 (usableBits r0.1) (usableBits r1.1) (usableBits r2.1), r2.2)

/-- RANDBITS(n) for `n ≤ 32` (43 R164): "always three RngNext() calls, also for n = 0". -/
def State.randBits (n : Nat) (s : State) : Word32 × State :=
  let r := s.randWord
  (lowBits r.1 n, r.2)

/-- The word a read of STATUS gives (10 R28), from its fields; reserved bits read 0. -/
def statusBits (err : BitVec 4) (ipt isp c done busy : Bool) : Word32 :=
  0#20 ++ err ++ 0#3 ++ BitVec.ofBool ipt ++ BitVec.ofBool isp ++ BitVec.ofBool c ++ BitVec.ofBool done
    ++ BitVec.ofBool busy

/-- STATUS while no command runs (10 R28). -/
def State.status (s : State) : Word32 := statusBits s.err s.ipt s.isp s.carry s.done s.busy

/-- STATUS while a command runs (20 R57): "BUSY = 1 and DONE = 0, with bits ISP and IPT valid and C and ERR
unspecified", here taken from the free value `f`. -/
def State.statusBusy (f : Word32) (s : State) : Word32 :=
  statusBits (f.extractLsb' 8 4) s.ipt s.isp (f.getLsbD 2) false true

/-- A host read while BUSY = 0 (10 R20, 20 R51): indices 14 and 15 read 0. -/
def State.readIdle (idx : RegIndex) (s : State) : Word32 :=
  match idx.toNat with
  | 0 => s.xh
  | 1 => s.xl
  | 2 => s.yh
  | 3 => s.yl
  | 4 => s.m
  | 5 => s.add
  | 6 => s.rem
  | 7 => s.checks
  | 8 => s.ph
  | 9 => s.pl
  | 10 => s.qh
  | 11 => s.ql
  | 12 => s.cmd
  | 13 => s.status
  | _ => 0

/-- Whether a read of this register while BUSY = 1 gives an unspecified value, in whole or in part (20 R57):
PH, PL, QH, QL and STATUS. -/
def readOpenWhileBusy (idx : RegIndex) : Bool :=
  idx == 8 || idx == 9 || idx == 10 || idx == 11 || idx == 13

/-- A host read while BUSY = 1 (20 R57), with the free value `f` for what is unspecified. -/
def State.readBusy (f : Word32) (idx : RegIndex) (s : State) : Word32 :=
  if idx = 13 then s.statusBusy f else if readOpenWhileBusy idx then f else s.readIdle idx

/-- `MemRead(idx, 4)` (00 R13): the value read, and the state, in which only the model's counter of free reads can
have moved: no read has a side effect (20 R56). -/
def State.memRead (idx : RegIndex) (s : State) : Word32 × State :=
  if s.busy then
    (s.readBusy (Config.freeRead s.freeReads) idx,
      if readOpenWhileBusy idx then { s with freeReads := s.freeReads + 1 } else s)
  else (s.readIdle idx, s)

/-- `MemWrite(idx, 4, v)` at every index but CMD (20 R56, R57): ignored while BUSY = 1; indices 0 to 7 store; 8 to 11
and 13 to 15 are ignored. -/
def State.memWrite (idx : RegIndex) (v : Word32) (s : State) : State :=
  if s.busy then s
  else
    match idx.toNat with
    | 0 => { s with xh := v }
    | 1 => { s with xl := v }
    | 2 => { s with yh := v }
    | 3 => { s with yl := v }
    | 4 => { s with m := v }
    | 5 => { s with add := v }
    | 6 => { s with rem := v }
    | 7 => { s with checks := v }
    | _ => s

/-- The reset input (70 R300, R301): the block goes to the reset state, a running command is abandoned without a result
or an error code. The random source is not reset (70 R301); the host and the model's own fields go on. -/
def State.resetBlock (s : State) : State :=
  { State.reset with
    rngIn := s.rngIn, rngCalls := s.rngCalls, rngSeeds := s.rngSeeds,
    hostQueue := s.hostQueue, hostOut := s.hostOut, freeReads := s.freeReads,
    pace := s.pace, params := s.params }

end Sys2Proof.Machine
end

