-- ==== Sys2Proof/Machine/DoubleArith.lean ====
section
/-! DEFINITION. The double-word (64-bit) commands (41). -/

namespace Sys2Proof.Machine

/-- CMP64 (41 R121). -/
def execCmp64 (s : State) : Out :=
  s.command .cmp64 fun s => .next (s.finish32 (cmp64 s.opA64 s.opB64))

/-- ADD64 (41 R122, R123): C is the carry out of bit 63. -/
def execAdd64 (s : State) : Out :=
  s.command .add64 fun s =>
    let r := addWithCarry64 s.opA64 s.opB64
    .next (s.finish64 r.1 r.2)

/-- SUB64 (41 R124, R123): C is the borrow. -/
def execSub64 (s : State) : Out :=
  s.command .sub64 fun s =>
    let r := subWithBorrow64 s.opA64 s.opB64
    .next (s.finish64 r.1 r.2)

/-- NEG64 (41 R125). -/
def execNeg64 (s : State) : Out :=
  s.command .neg64 fun s => .next (s.finish64 (neg64 s.opA64) false)

/-- SRL64 (41 R126): the amount is YL, YH is ignored. -/
def execSrl64 (s : State) : Out :=
  s.command .srl64 fun s => .next (s.finish64 (srl64 s.opA64 s.shiftAmount) false)

/-- SLL64 (41 R127). -/
def execSll64 (s : State) : Out :=
  s.command .sll64 fun s => .next (s.finish64 (sll64 s.opA64 s.shiftAmount) false)

/-- BITLEN64 (41 R128). -/
def execBitlen64 (s : State) : Out :=
  s.command .bitlen64 fun s => .next (s.finish32 (BitVec.ofNat 32 (bitLen s.opA64)))

/-- DIVREM64 (41 R129): quotient in PH:PL, remainder in QH:QL; a zero divisor is InvalidParameter. -/
def execDivrem64 (s : State) : Out :=
  s.command .divrem64 fun s =>
    if s.opB64 = 0 then .next (s.raise .invalidParameter)
    else s.divide s.opA64 s.opB64 fun d s =>
      .next (s.finish (hiLimb d.q) (loLimb d.q) (hiLimb d.r) (loLimb d.r) false)

end Sys2Proof.Machine
end

