-- ==== Sys2Proof/Machine/Random.lean ====
section
/-! DEFINITION. The random source adapter's commands (43): SEEDRNG, RAND32 and RANDBITS in one step, and the transition
RR_TRY(k) of range sampling, which RANDRANGE and the base draw of the primality tester pass through (43 R166). -/

namespace Sys2Proof.Machine

/-- SEEDRNG (43 R161): accepted before setup; the seed is passed through unchanged. -/
def execSeedrng (s : State) : Out :=
  s.exempt .seedrng fun s => .next (State.finish 0 0 0 0 false (s.rngSeed s.opA))

/-- RAND32 (43 R163). -/
def execRand32 (s : State) : Out :=
  s.command .rand32 fun s =>
    let r := s.randWord
    .next (r.2.finish32 r.1)

/-- RANDBITS (43 R164): more than 32 bits is InvalidParameter, before any draw. -/
def execRandbits (s : State) : Out :=
  s.command .randbits fun s =>
    if 32 < s.bits then .next (s.raise .invalidParameter)
    else
      let r := s.randBits s.bits
      .next (r.2.finish32 r.1)

/-- The beginning of a range draw (43 R165): the range, its width `BITLEN32(range - 1)`, and RR_TRY(1); an empty range
is InvalidParameter. -/
def State.beginDraw (range : Word32) (s : State) : State :=
  if range = 0 then s.raise .invalidParameter
  else { s with draw := ⟨range, bitLen (range - 1)⟩, seq := .rrTry 1 }

/-- An attempt was accepted with `v`: RANDRANGE ends with it; in the primality tester it gives the round's base
`b = v + 2` (44 R181). -/
def State.drawAccepted (v : Word32) (s : State) : Out :=
  match s.running with
  | some .randrange => .next (s.finish32 v)
  | some .isprime => .next { s with mr := { s.mr with b := v + 2 }, seq := .ipRound s.mr.round true }
  | some (.genprime _) => .next { s with mr := { s.mr with b := v + 2 }, seq := .ipRound s.mr.round true }
  | _ => .fault .badSequencer

/-- The budget is spent: SamplingExhausted in RANDRANGE, PrimalityInconclusive in the primality tester (60 R280). -/
def State.drawExhausted (s : State) : Out :=
  match s.running with
  | some .randrange => .next (s.raise .samplingExhausted)
  | some .isprime => .next (s.raise .primalityInconclusive)
  | some (.genprime _) => .next (s.raise .primalityInconclusive)
  | _ => .fault .badSequencer

/-- RR_TRY(k) (43 R166): draw the width's bits; below the range accept, else go to RR_TRY(k+1), at 100 give up. -/
def stepRrTry (k : Nat) (s : State) : Out :=
  let r := s.randBits s.draw.width
  if r.1 < s.draw.range then r.2.drawAccepted r.1
  else if k < Config.rangeAttempts then .next { r.2 with seq := .rrTry (k + 1) }
  else r.2.drawExhausted

end Sys2Proof.Machine
end

