-- ==== Sys2Proof/Machine/Primality.lean ====
section
/-! DEFINITION. The primality tester (44): MRROUND in one step, and the transitions IP_PRE, IP_TRIAL(i), IP_FACTOR,
IP_ROUND(j), IP_SQUARE(j,t) of 44 R186, for ISPRIME and for the verifications of GENPRIME. -/

namespace Sys2Proof.Machine

/-- MRROUND (44 R183): one witness test with the host's base; no pre-check, no trial division, no draw. -/
def execMrround (s : State) : Out :=
  s.command .mrround fun s =>
    let w := s.opA
    let b := s.opB
    if w.getLsbD 0 = false ∨ w < 5 then .next (s.raise .invalidParameter)
    else if b < 2 ∨ w - 2 < b then .next (s.raise .invalidParameter)
    else if h : w = 0#32 then .fault .zeroDivisor
    else
      let f := factorTwos w
      let r := witness w h f.1 f.2 b
      .next (State.finish32 (if r.1 then 1 else 0)
        { s with mr := { s.mr with w := w, a := f.1, m := f.2, b := b, z := r.2 } })

/-- A verdict of the tester (44 R175, R186). ISPRIME ends with PL = 1 or 0. In GENPRIME (45 R218): Composite goes to
GP_CALL; Prime of `p` goes to GP_VERIFY_Q when S = 1, else to the end; Prime of `(p-1)/2` goes to the end. -/
def State.verdict (prime : Bool) (s : State) : Out :=
  match s.running with
  | some .isprime => .next (s.finish32 (if prime then 1 else 0))
  | some (.genprime safe) =>
    match s.verify with
    | .none => .fault .badSequencer
    | .p =>
      if prime then
        if safe then .next { s with seq := .gpVerifyQ } else .next (s.finish32 (loLimb s.cand))
      else .next { s with seq := .gpCall }
    | .q => if prime then .next (s.finish32 (loLimb s.cand)) else .next { s with seq := .gpCall }
  | _ => .fault .badSequencer

/-- IP_PRE (44 R176, R177): the test of CHECKS first, then the three pre-checks in order. -/
def stepIpPre (s : State) : Out :=
  if s.checks = 0 then .next (s.raise .invalidParameter)
  else if s.mr.w ≤ 1 then s.verdict false
  else if s.mr.w.getLsbD 0 = false then s.verdict (s.mr.w == 2)
  else if s.mr.w = 3 then s.verdict true
  else .next { s with seq := .ipTrial 0 }

/-- The table entry `SP[i]`. -/
def State.prime (s : State) (i : Nat) : SmallWord := s.sp.getD i 0

/-- IP_TRIAL(i) (44 R178): one division by `SP[i]`; on remainder 0 a verdict, else on to the next entry. -/
def stepIpTrial (i : Nat) (s : State) : Out :=
  s.divide (zext64 s.mr.w) (zextSmall (s.prime i)) fun d s =>
    if d.r = 0 then s.verdict (zext64 s.mr.w == zextSmall (s.prime i))
    else if i < 63 then .next { s with seq := .ipTrial (i + 1) }
    else .next { s with seq := .ipFactor }

/-- IP_FACTOR (44 R179): `w - 1 = 2^a * m`, then round 1. -/
def stepIpFactor (s : State) : Out :=
  let f := factorTwos s.mr.w
  .next { s with mr := { s.mr with a := f.1, m := f.2 }, seq := .ipRound 1 false }

/-- A round passed (44 R180, R186): on to IP_ROUND(j+1), or to the verdict Prime after round `checks`. -/
def State.roundPassed (j : Nat) (s : State) : Out :=
  if j < s.checks.toNat then .next { s with seq := .ipRound (j + 1) false } else s.verdict true

/-- IP_ROUND(j) before its draw (44 R181): `RANDRANGE(w - 3)`, through RR_TRY(1). -/
def stepIpDraw (j : Nat) (s : State) : Out :=
  .next (State.beginDraw (s.mr.w - 3) { s with mr := { s.mr with round := j } })

/-- IP_ROUND(j) after its draw (44 R182, R186): the exponentiation and the first comparison. -/
def stepIpPower (j : Nat) (s : State) : Out :=
  if h : s.mr.w = 0#32 then .fault .zeroDivisor
  else
    let t := expRun s.mr.b s.mr.m s.mr.w h
    let z := loLimb t.acc
    let s' := { s with exp := t, mr := { s.mr with z := z } }
    if z = 1#32 ∨ z = s.mr.w - 1#32 then s'.roundPassed j
    else if 1 < s.mr.a then .next { s' with seq := .ipSquare j 1 }
    else s'.verdict false

/-- IP_SQUARE(j,t) (44 R182, R186): one squaring and its two comparisons. -/
def stepIpSquare (j t : Nat) (s : State) : Out :=
  if h : s.mr.w = 0#32 then .fault .zeroDivisor
  else
    let z := mulMod s.mr.z s.mr.z s.mr.w h
    let s' := { s with mr := { s.mr with z := z } }
    if z = s.mr.w - 1#32 then s'.roundPassed j
    else if z = 1#32 then s'.verdict false
    else if t < s.mr.a - 1 then .next { s' with seq := .ipSquare j (t + 1) }
    else s'.verdict false

end Sys2Proof.Machine
end

