-- ==== Sys2Proof/Machine/PrimeGen.lean ====
section
/-! DEFINITION. The prime generator (45): the transitions PG_* of the candidate search (45 R213) and GP_* of the outer
loop (45 R218), for PROBPRIME, PROBPRIMEDH and GENPRIME. -/

namespace Sys2Proof.Machine

/-- The flag S of the running search; a sequencer state of the search under another command is none of the spec's. -/
def State.inSearch (body : Bool → Out) (s : State) : Out :=
  match s.running with
  | some (.probprime safe) => body safe
  | some (.probprimedh safe) => body safe
  | some (.genprime safe) => body safe
  | _ => .fault .badSequencer

/-- Whether the running search is in a residue class: PROBPRIMEDH, and GENPRIME with ADD not 0 (45 R215). -/
def State.constrained (s : State) : Bool :=
  match s.running with
  | some (.probprimedh _) => true
  | some (.genprime _) => s.add != 0
  | _ => false

/-- The preconditions on the bit length (45 R202, R203). -/
def badBits (bits : Nat) (safe : Bool) : Bool :=
  decide (bits < Config.bitsMin) || decide (Config.bitsMax < bits) || (safe && decide (bits < Config.safeBitsMin))

/-- PG_CHECK (45 R210, R211, R215): the preconditions in the order written; then PG_AGAIN, or GP_CALL in GENPRIME. -/
def stepPgCheck (s : State) : Out :=
  s.inSearch fun safe =>
    if badBits s.bits safe then .next (s.raise .invalidParameter)
    else
      match s.running with
      | some (.probprimedh _) =>
        if s.add = 0 then .next (s.raise .invalidParameter) else .next { s with seq := .pgAgain }
      | some (.genprime _) =>
        if s.checks = 0 then .next (s.raise .invalidParameter) else .next { s with seq := .gpCall }
      | _ => .next { s with seq := .pgAgain }

/-- The draw of PROBPRIME on the drawn bits `v` (45 R204): top two bits and bit 0 forced, bit 1 too in safe mode. -/
def forceBits (bits : Nat) (safe : Bool) (v : Word32) : Word64 :=
  let c := zext64 v ||| (1#64 <<< (bits - 1)) ||| (1#64 <<< (bits - 2)) ||| 1#64
  if safe then c ||| 2#64 else c

/-- PG_AGAIN (45 R204, R205): the draw, and in a residue class the move `c0 - (c0 mod add) + rem`, exact (45 R206). -/
def stepPgAgain (s : State) : Out :=
  s.inSearch fun safe =>
    let r := s.randBits s.bits
    let c0 := forceBits s.bits safe r.1
    if s.constrained then
      State.divide c0 (zext64 s.add) (fun d s =>
        .next { s with cand := c0 - d.r + zext64 s.rem, seq := .pgResidue }) r.2
    else .next { r.2 with cand := c0, seq := .pgResidue }

/-- One residue, `c mod SP[i]`; none for an entry of 0, where the divider has no value. -/
def residue (c : Word64) (p : SmallWord) : Option SmallWord :=
  if h : zextSmall p = 0#64 then none else some ((divRem64 c (zextSmall p) h).r.setWidth 9)

/-- The residues modulo every entry of the table, in order. -/
def residues (c : Word64) : List SmallWord → Option (List SmallWord)
  | [] => some []
  | p :: ps =>
    match residue c p, residues c ps with
    | some r, some rs => some (r :: rs)
    | _, _ => none

/-- PG_RESIDUE (45 R208): 64 divisions fill `mods[]`; `delta <- 0`; then PG_LOOP. -/
def stepPgResidue (s : State) : Out :=
  s.inSearch fun _ =>
    match residues s.cand s.sp with
    | none => .fault .zeroDivisor
    | some ms => .next { s with mods := ms, delta := 0, seq := .pgLoop }

/-- PG_LOOP (45 R201): the scan begins at the top of the small-prime list. -/
def stepPgLoop (s : State) : Out :=
  s.inSearch fun _ => .next { s with seq := .pgSieve 0 }

/-- `v = c + delta`, exact on the 64-bit datapath (45 R206, R207). -/
def State.sieved (s : State) : Word64 := s.cand + zext64 s.delta

/-- Whether `SP[i] = p` hits `v`, from the residue `t = v mod p` (45 R208, with the exemption of 45 R207). -/
def sieveHits (exempt safe : Bool) (i : Nat) (p t v : Word64) : Bool :=
  (t == 0 && !(exempt && v == p)) ||
  (safe && (if i = 0 then v.extractLsb' 0 2 == 1#2 else t == 1) && !(exempt && (v - 1) >>> 1 == p))

/-- PG_SIEVE(i) (45 R208, R213): the residue of `c + delta` is `(mods[i] + delta) mod SP[i]`; on a hit to PG_BUMP,
else to the next entry, after the last to PG_FINAL. -/
def stepPgSieve (i : Nat) (s : State) : Out :=
  s.inSearch fun safe =>
    s.divide (zextSmall (s.mods.getD i 0) + zext64 s.delta) (zextSmall (s.prime i)) fun d s =>
      if sieveHits s.params.selfExempt safe i (zextSmall (s.prime i)) d.r s.sieved then
        .next { s with seq := .pgBump }
      else if i < 63 then .next { s with seq := .pgSieve (i + 1) }
      else .next { s with seq := .pgFinal }

/-- The step of `delta` (45 R209): `add` in a residue class, else 4 in safe mode and 2 otherwise. -/
def State.bumpStep (safe : Bool) (s : State) : Word32 :=
  if s.constrained then s.add else if safe then 4 else 2

/-- PG_BUMP (45 R209): `t = delta + step`, exact; past MAXDELTA draw again, else restart the scan with `t`. -/
def stepPgBump (s : State) : Out :=
  s.inSearch fun safe =>
    if s.params.maxDelta.toNat < s.delta.toNat + (s.bumpStep safe).toNat then .next { s with seq := .pgAgain }
    else .next { s with delta := s.delta + s.bumpStep safe, seq := .pgLoop }

/-- PG_FINAL (45 R212): `c <- c + delta`; a changed bit length draws again; else the search ends with `c`: PROBPRIME and
PROBPRIMEDH with PL = c, GENPRIME goes to GP_VERIFY_P. -/
def stepPgFinal (s : State) : Out :=
  s.inSearch fun _ =>
    let s' := { s with cand := s.sieved }
    if bitLen s'.cand ≠ s.bits then .next { s' with seq := .pgAgain }
    else
      match s.running with
      | some (.genprime _) => .next { s' with seq := .gpVerifyP }
      | _ => .next (s'.finish32 (loLimb s'.cand))

/-- GP_CALL (45 R218), label `top`: a whole new candidate search from label `again`. -/
def stepGpCall (s : State) : Out :=
  s.inSearch fun _ => .next { s with verify := .none, seq := .pgAgain }

/-- GP_VERIFY_P (45 R218): the tester's states on `p`. -/
def stepGpVerifyP (s : State) : Out :=
  s.inSearch fun _ => .next { s with verify := .p, mr := { s.mr with w := loLimb s.cand }, seq := .ipPre }

/-- GP_VERIFY_Q (45 R218): the tester's states on `(p - 1)/2`. -/
def stepGpVerifyQ (s : State) : Out :=
  s.inSearch fun _ =>
    .next { s with verify := .q, mr := { s.mr with w := loLimb ((s.cand - 1) >>> 1) }, seq := .ipPre }

end Sys2Proof.Machine
end

