-- ==== Sys2Proof/Machine/Sequencer.lean ====
section
/-! DEFINITION. The sequencer (10 R30): one transition of the running command, and a run of transitions. -/

namespace Sys2Proof.Machine

/-- One transition of the running command (43 R166, 44 R186, 45 R213, 45 R218). In IDLE nothing happens; EXEC is left
within the step that enters it. -/
def seqStep (s : State) : Out :=
  match s.seq with
  | .idle => .next s
  | .exec => .fault .badSequencer
  | .rrTry k => stepRrTry k s
  | .ipPre => stepIpPre s
  | .ipTrial i => stepIpTrial i s
  | .ipFactor => stepIpFactor s
  | .ipRound j false => stepIpDraw j s
  | .ipRound j true => stepIpPower j s
  | .ipSquare j t => stepIpSquare j t s
  | .pgCheck => stepPgCheck s
  | .pgAgain => stepPgAgain s
  | .pgResidue => stepPgResidue s
  | .pgLoop => stepPgLoop s
  | .pgSieve i => stepPgSieve i s
  | .pgBump => stepPgBump s
  | .pgFinal => stepPgFinal s
  | .gpCall => stepGpCall s
  | .gpVerifyP => stepGpVerifyP s
  | .gpVerifyQ => stepGpVerifyQ s

/-- At most `n` transitions, fewer when the command ends. -/
def runSeq : Nat → State → Out
  | 0, s => .next s
  | n + 1, s =>
    if s.busy then
      match seqStep s with
      | .next s' => runSeq n s'
      | .fault r => .fault r
      | .refused r => .refused r
    else .next s

/-- The engine's turn between two host accesses: one transition and up to `pace` more (log 4). -/
def engineTurn (s : State) : Out := runSeq (s.pace + 1) s

end Sys2Proof.Machine
end

