-- ==== Sys2Proof/Machine/LoopCommands.lean ====
section
/-! DEFINITION. The commands that run through the sequencer's named states (10 R30): RANDRANGE, ISPRIME, PROBPRIME,
PROBPRIMEDH, GENPRIME. Each starts at its first state ("a command never resumes") and the engine takes its turn; a
command that has not ended then stays BUSY and goes on at the next steps (log 4). -/

namespace Sys2Proof.Machine


/-- RANDRANGE (43 R165, R166): `range = 0` is InvalidParameter before any draw; then RR_TRY(1). -/
def execRandrange (s : State) : Out :=
  s.command .randrange fun s => engineTurn (s.beginDraw s.opA)

/-- ISPRIME (44 R176, R186): IP_PRE with `w = x[XL]`. -/
def execIsprime (s : State) : Out :=
  s.command .isprime fun s => engineTurn { s with mr := { s.mr with w := s.opA }, seq := .ipPre }

/-- PROBPRIME (45 R210, R213): PG_CHECK. -/
def execProbprime (safe : Bool) (s : State) : Out :=
  s.command (.probprime safe) fun s => engineTurn { s with seq := .pgCheck }

/-- PROBPRIMEDH (45 R211, R213): PG_CHECK. -/
def execProbprimedh (safe : Bool) (s : State) : Out :=
  s.command (.probprimedh safe) fun s => engineTurn { s with seq := .pgCheck }

/-- GENPRIME (45 R215, R218): PG_CHECK, then GP_CALL. -/
def execGenprime (safe : Bool) (s : State) : Out :=
  s.command (.genprime safe) fun s => engineTurn { s with seq := .pgCheck }

end Sys2Proof.Machine
end

