-- ==== Sys2Proof/Machine/Modular.lean ====
section
/-! DEFINITION. The modular commands (42). -/

namespace Sys2Proof.Machine

/-- MULMOD (42 R141): M = 0 is InvalidParameter. -/
def execMulmod (s : State) : Out :=
  s.command .mulmod fun s =>
    if s.modulus = 0 then .next (s.raise .invalidParameter)
    else s.divide (mul32 s.opA s.opB) (zext64 s.modulus) fun d s => .next (s.finish32 (loLimb d.r))

/-- EXPMOD (42 R142): M = 0 is InvalidParameter, "checked first, also when e = 0". -/
def execExpmod (s : State) : Out :=
  s.command .expmod fun s =>
    if h : s.modulus = 0 then .next (s.raise .invalidParameter)
    else
      let t := expRun s.opA s.opB s.modulus h
      .next (State.finish32 (loLimb t.acc) { s with exp := t })

/-- INVMOD (42 R143 to R145): NoInverseExists for `n` in {0, 1} and when the greatest common divisor is not 1. -/
def execInvmod (s : State) : Out :=
  s.command .invmod fun s =>
    if h : s.modulus = 0 ∨ s.modulus = 1 then .next (s.raise .noInverseExists)
    else
      let hn : s.modulus ≠ 0#32 := fun e => h (Or.inl e)
      let t := invRun s.opA s.modulus hn
      let s' := { s with inv := t }
      match invResult t s.modulus hn with
      | some v => .next (s'.finish32 v)
      | none => .next (s'.raise .noInverseExists)

end Sys2Proof.Machine
end

