-- ==== Sys2Proof/Machine/System.lean ====
section
/-! DEFINITION. The setup and system commands (46): NOP, INITSP, INITPT, all accepted before setup. -/

namespace Sys2Proof.Machine

/-- NOP (46 R231): clears the results and the error of the previous command. -/
def execNop (s : State) : Out :=
  s.exempt .nop fun s => .next (s.finish 0 0 0 0 false)

/-- INITSP (46 R232): fills the small-prime table; ISP <- 1. -/
def execInitsp (s : State) : Out :=
  s.exempt .initsp fun s => .next (State.finish 0 0 0 0 false { s with sp := smallPrimes, isp := true })

/-- INITPT (46 R233): fills the power table; IPT <- 1. -/
def execInitpt (s : State) : Out :=
  s.exempt .initpt fun s => .next (State.finish 0 0 0 0 false { s with pow2 := powersOfTwo, ipt := true })

end Sys2Proof.Machine
end

