-- ==== Sys2Proof/Machine/WordArith.lean ====
section
/-! DEFINITION. The word (32-bit) commands (40). -/

namespace Sys2Proof.Machine

/-- CMP32 (40 R101). -/
def execCmp32 (s : State) : Out :=
  s.command .cmp32 fun s => .next (s.finish32 (cmp32 s.opA s.opB))

/-- ADD32 (40 R102): C is the carry out. -/
def execAdd32 (s : State) : Out :=
  s.command .add32 fun s =>
    let r := addWithCarry s.opA s.opB
    .next (s.finish 0 r.1 0 0 r.2)

/-- SUB32 (40 R103): C is the borrow. -/
def execSub32 (s : State) : Out :=
  s.command .sub32 fun s =>
    let r := subWithBorrow s.opA s.opB
    .next (s.finish 0 r.1 0 0 r.2)

/-- NEG32 (40 R104): the carry of the add is not reported. -/
def execNeg32 (s : State) : Out :=
  s.command .neg32 fun s => .next (s.finish32 (neg32 s.opA))

/-- SRL32 (40 R105). -/
def execSrl32 (s : State) : Out :=
  s.command .srl32 fun s => .next (s.finish32 (srl32 s.opA s.shiftAmount))

/-- SLL32 (40 R106). -/
def execSll32 (s : State) : Out :=
  s.command .sll32 fun s => .next (s.finish32 (sll32 s.opA s.shiftAmount))

/-- MUL32 (40 R107): the 64-bit product in PH:PL. -/
def execMul32 (s : State) : Out :=
  s.command .mul32 fun s => .next (s.finish64 (mul32 s.opA s.opB) false)

/-- BITLEN32 (40 R108). -/
def execBitlen32 (s : State) : Out :=
  s.command .bitlen32 fun s => .next (s.finish32 (BitVec.ofNat 32 (bitLen s.opA)))

/-- DIVREM32 (40 R109): the 64-bit divider on zero-extended operands; a zero divisor is InvalidParameter. -/
def execDivrem32 (s : State) : Out :=
  s.command .divrem32 fun s =>
    if s.opB = 0 then .next (s.raise .invalidParameter)
    else s.divide (zext64 s.opA) (zext64 s.opB) fun d s => .next (s.finish 0 (loLimb d.q) 0 (loLimb d.r) false)

end Sys2Proof.Machine
end

