-- ==== Sys2Proof/Machine/Dispatch.lean ====
section
/-! DEFINITION. The dispatch of a decoded command to its meaning, one arm per command. -/

namespace Sys2Proof.Machine

def exec (i : Instr) (s : State) : Host.Outcome State Fault Refusal :=
  match i with
  | .nop => Sys2Proof.Machine.execNop s
  | .cmp32 => Sys2Proof.Machine.execCmp32 s
  | .add32 => Sys2Proof.Machine.execAdd32 s
  | .sub32 => Sys2Proof.Machine.execSub32 s
  | .neg32 => Sys2Proof.Machine.execNeg32 s
  | .srl32 => Sys2Proof.Machine.execSrl32 s
  | .sll32 => Sys2Proof.Machine.execSll32 s
  | .mul32 => Sys2Proof.Machine.execMul32 s
  | .bitlen32 => Sys2Proof.Machine.execBitlen32 s
  | .divrem32 => Sys2Proof.Machine.execDivrem32 s
  | .cmp64 => Sys2Proof.Machine.execCmp64 s
  | .add64 => Sys2Proof.Machine.execAdd64 s
  | .sub64 => Sys2Proof.Machine.execSub64 s
  | .neg64 => Sys2Proof.Machine.execNeg64 s
  | .srl64 => Sys2Proof.Machine.execSrl64 s
  | .sll64 => Sys2Proof.Machine.execSll64 s
  | .bitlen64 => Sys2Proof.Machine.execBitlen64 s
  | .divrem64 => Sys2Proof.Machine.execDivrem64 s
  | .mulmod => Sys2Proof.Machine.execMulmod s
  | .expmod => Sys2Proof.Machine.execExpmod s
  | .invmod => Sys2Proof.Machine.execInvmod s
  | .seedrng => Sys2Proof.Machine.execSeedrng s
  | .rand32 => Sys2Proof.Machine.execRand32 s
  | .randbits => Sys2Proof.Machine.execRandbits s
  | .randrange => Sys2Proof.Machine.execRandrange s
  | .isprime => Sys2Proof.Machine.execIsprime s
  | .mrround => Sys2Proof.Machine.execMrround s
  | .probprime safe => Sys2Proof.Machine.execProbprime safe s
  | .probprimedh safe => Sys2Proof.Machine.execProbprimedh safe s
  | .genprime safe => Sys2Proof.Machine.execGenprime safe s
  | .initsp => Sys2Proof.Machine.execInitsp s
  | .initpt => Sys2Proof.Machine.execInitpt s

end Sys2Proof.Machine
end

