-- ==== Sys2Proof/Machine/HostPort.lean ====
section
/-! DEFINITION. The host port: a write to CMD decodes and starts a command (10 R29, 30 R74), every other host action
(20 R56, R57, 30 R76), and the engine's turn that follows it. -/

namespace Sys2Proof.Machine

/-- An illegal command word (30 R75, 60 R273): the command it would start ends at once with IllegalCommand. -/
def State.illegal (s : State) : State := s.raise .illegalCommand

/-- A write of `w` to CMD while BUSY = 0 (10 R29): the word is stored, and the command it encodes runs. -/
def acceptCommand (w : Word32) (s : State) : Out :=
  let s' := { s with cmd := w }
  match decode w with
  | some i => exec i s'
  | none => .next s'.illegal

/-- The host's write: to CMD while BUSY = 0 it starts a command; any other write is a register write, ignored while
BUSY = 1 (20 R57), when the engine goes on. -/
def hostWrite (idx : RegIndex) (v : Word32) (s : State) : Out :=
  if s.busy then engineTurn s
  else if idx = 12 then acceptCommand v s
  else .next (s.memWrite idx v)

/-- The host's `rd`: the value goes to the record of the script's reads (70 R312); a running command goes on. -/
def hostRead (idx : RegIndex) (s : State) : Out :=
  let r := s.memRead idx
  engineTurn { r.2 with hostOut := s.hostOut ++ [r.1] }

/-- One poll of `wait` (30 R76): STATUS is read; while DONE reads 0 the `wait` stays in the host's queue. -/
def hostWait (s : State) : Out :=
  if s.done && !s.busy then .next s
  else engineTurn { s with hostQueue := .wait :: s.hostQueue }

/-- One host action, taken between two engine turns (log 4). -/
def hostTurn (a : HostAction) (s : State) : Out :=
  match a with
  | .write idx v => hostWrite idx v s
  | .read idx => hostRead idx s
  | .wait => hostWait s
  | .pass => engineTurn s
  | .reset => .next s.resetBlock

/-- The state with the command word `w` as the host's next action, a CMD write that the block accepts: the block not
busy (log 3). -/
def State.withCommand (w : Word32) (s : State) : State :=
  { s with busy := false, seq := .idle, running := none, hostQueue := .write 12 w :: s.hostQueue }

end Sys2Proof.Machine
end

