-- ==== Sys2Proof/Machine/Step.lean ====
section
/-! DEFINITION. One step of block and host: the host's next action, or, when it has none, the engine's turn (in IDLE
nothing: 70 R312). -/

namespace Sys2Proof.Machine

/-- One step (log 3, log 4). -/
def step (s : State) : Host.Outcome State Fault Refusal :=
  match s.hostQueue with
  | [] => engineTurn s
  | a :: rest => hostTurn a { s with hostQueue := rest }

/-- The state whose next step runs the command in the first `nbits` bits of `w`: the host's next action is the write
of that word to CMD, where the block takes its commands from (30 R70). -/
def State.withFetchWord (s : State) (nbits w : Nat) : State :=
  s.withCommand (BitVec.ofNat 32 (w % 2 ^ nbits))

end Sys2Proof.Machine
end

