-- ==== Sys2Proof/Safety.lean ====
section
/-! DEFINITION. The terms the statements use: the ends of a command, the coming random words, the mathematical notions
of the rules (first primes, strong probable primes, the sieve), the invariant of the machine, and the views under which
two states are compared. -/

namespace Sys2Proof.Safety

open Sys2Proof.Machine

/-- The state a command leaves when it ends without error (10 R23, R28): the four results, C, ERR = 0, DONE = 1,
BUSY = 0, IDLE; every other field of `s` as it was. -/
def ended (s : State) (ph pl qh ql : Word32) (c : Bool) : State :=
  { s with
    ph := ph, pl := pl, qh := qh, ql := ql, carry := c, err := 0,
    done := true, busy := false, seq := .idle, running := none, verify := .none }

/-- The state a command leaves when it ends with an error (60 R272): results and C 0, ERR the code, DONE = 1,
BUSY = 0, IDLE; every other field of `s` as it was. -/
def failed (s : State) (code : BitVec 4) : State :=
  { s with
    ph := 0, pl := 0, qh := 0, ql := 0, carry := false, err := code,
    done := true, busy := false, seq := .idle, running := none, verify := .none }

/-- The setup has run (10 R32). -/
abbrev Ready (s : State) : Prop := s.isp = true ∧ s.ipt = true

/-- The setup has run and the small-prime table holds what INITSP writes (10 R33). -/
abbrev ReadyTables (s : State) : Prop := Ready s ∧ s.sp = smallPrimes

/-- The unsigned value of a pair of limbs (20 R52). -/
def value64 (hi lo : Word32) : Nat := hi.toNat * 2 ^ 32 + lo.toNat

/-- The upper and the lower limb of a number below `2^64`. -/
def upper (n : Nat) : Word32 := BitVec.ofNat 32 (n / 2 ^ 32)

/-- See `upper`. -/
def lower (n : Nat) : Word32 := BitVec.ofNat 32 n

/-- The answer to the `k`-th `RngNext()` from now, `k` from 0 (43 R160): the port's list of answers, then free. -/
def nextWord (s : State) (k : Nat) : Word32 :=
  (s.rngIn[k]?).getD (Config.rngWord (s.rngCalls + k) s.rngSeeds)

/-- The `j`-th composed word from now, from the answers `3j`, `3j+1`, `3j+2` (43 R162). -/
def composed (s : State) (j : Nat) : Nat :=
  match s.params.compose3 with
  | .standard =>
    ((nextWord s (3 * j)).toNat % 2 ^ 30 / 2 ^ 19) * 2 ^ 21
      + ((nextWord s (3 * j + 1)).toNat % 2 ^ 30 / 2 ^ 19) * 2 ^ 10
      + (nextWord s (3 * j + 2)).toNat % 2 ^ 30 / 2 ^ 20
  | .other id =>
    (Config.otherCompose3 id ((nextWord s (3 * j)).setWidth 30) ((nextWord s (3 * j + 1)).setWidth 30)
      ((nextWord s (3 * j + 2)).setWidth 30)).toNat

/-- The random-source port after `n` more `RngNext()` calls. -/
def afterCalls (s : State) (n : Nat) : State :=
  { s with rngIn := s.rngIn.drop n, rngCalls := s.rngCalls + n }

/-- The value of the `j`-th attempt of a range draw (43 R165): `BITLEN32(range - 1)` bits of the composed word. -/
def attempt (s : State) (range : Nat) (j : Nat) : Nat :=
  composed s j % 2 ^ Nat.size (range - 1)

/-- The witness test in exact arithmetic (44 R182): with `w - 1 = 2^a * m`, `m` odd, `b^m mod w` is 1, or one of
`b^m, b^(2m), …, b^(2^(a-1) m)` is `w - 1` modulo `w`. -/
def StrongProbablePrime (w b : Nat) : Prop :=
  ∃ a m, w - 1 = 2 ^ a * m ∧ m % 2 = 1 ∧
    (b ^ m % w = 1 ∨ ∃ t < a, b ^ (2 ^ t * m) % w = w - 1)

/-- The table's primes as numbers: 2 to 311 (10 R33). -/
def tablePrimes : List Nat := smallPrimes.map BitVec.toNat

/-- `p` hits `v` (45 R207): it divides `v`, or in safe mode `(v - 1)/2`, which is formed for odd `v` (45 R208); with
`exempt` a number does not hit itself. -/
abbrev Hits (exempt safe : Bool) (p v : Nat) : Prop :=
  (p ∣ v ∧ ¬ (exempt = true ∧ v = p)) ∨
  (safe = true ∧ v % 2 = 1 ∧ p ∣ (v - 1) / 2 ∧ ¬ (exempt = true ∧ (v - 1) / 2 = p))

/-- The sieve clears `v`: no table prime hits it. -/
abbrev Clear (exempt safe : Bool) (v : Nat) : Prop := ∀ p ∈ tablePrimes, ¬ Hits exempt safe p v

/-- The draw of 45 R204 on the drawn bits `v`: top two bits, bit 0, and in safe mode bit 1 forced. -/
def forced (bits : Nat) (safe : Bool) (v : Nat) : Nat :=
  (if safe then 2 else 0) ||| (v ||| 2 ^ (bits - 1) ||| 2 ^ (bits - 2) ||| 1)

/-- The preconditions on the bit length hold (45 R202, R203). -/
abbrev BitsOk (bits : Nat) (safe : Bool) : Prop := 2 ≤ bits ∧ bits ≤ 31 ∧ (safe = true → 6 ≤ bits)

/-- `c` is the first value of `c0, c0 + d, c0 + 2d, …` that the sieve clears, after `k` bumps, and it has `bits` bits;
the offset stays within MAXDELTA (45 R207, R209, R212). -/
abbrev FirstClear (s : State) (safe : Bool) (c0 d k c bits : Nat) : Prop :=
  c = c0 + k * d ∧ k * d ≤ s.params.maxDelta.toNat ∧
  (∀ j < k, ¬ Clear s.params.selfExempt safe (c0 + j * d)) ∧
  Clear s.params.selfExempt safe c ∧ Nat.size c = bits

/-- The sieve from `c0` is abandoned after `k` bumps and a fresh candidate is drawn: the first clear value has another
bit length (45 R212), or none is clear and one more bump would take the offset past MAXDELTA (45 R209). -/
abbrev AbandonedAfter (s : State) (safe : Bool) (c0 d k bits : Nat) : Prop :=
  k * d ≤ s.params.maxDelta.toNat ∧ (∀ j < k, ¬ Clear s.params.selfExempt safe (c0 + j * d)) ∧
  ((Clear s.params.selfExempt safe (c0 + k * d) ∧ Nat.size (c0 + k * d) ≠ bits) ∨
    (¬ Clear s.params.selfExempt safe (c0 + k * d) ∧ s.params.maxDelta.toNat < (k + 1) * d))

/-- The value that label `again` sieves from, on the `j`-th composed word: the draw of 45 R204, moved to the class of ADD
and REM when `cls` (45 R205). -/
def firstValue (s : State) (safe cls : Bool) (j : Nat) : Nat :=
  let c0 := forced s.xl.toNat safe (composed s j % 2 ^ s.xl.toNat)
  if cls then c0 - c0 % s.add.toNat + s.rem.toNat else c0

/-- The step of the bump (45 R209). -/
def searchStep (s : State) (safe cls : Bool) : Nat := if cls then s.add.toNat else if safe then 4 else 2

/-- The search from label `again` on the `j`-th composed word abandons `n` draws, one composed word each, and returns `c`
from the next; it makes `b` bumps in all (45 R210, R211). -/
def SearchFinds (s : State) (safe cls : Bool) : Nat → Nat → Nat → Nat → Prop
  | 0, j, b, c => FirstClear s safe (firstValue s safe cls j) (searchStep s safe cls) b c s.xl.toNat
  | n + 1, j, b, c => ∃ k b', b = k + b' ∧
      AbandonedAfter s safe (firstValue s safe cls j) (searchStep s safe cls) k s.xl.toNat ∧
      SearchFinds s safe cls n (j + 1) b' c

/-- The base draw of a round on `w`, from the `j`-th composed word on, rejects `k` attempts and accepts the next
(44 R181, 43 R165). -/
abbrev BaseDrawn (s : State) (w j k : Nat) : Prop :=
  k < 100 ∧ (∀ i < k, w - 3 ≤ attempt s (w - 3) (j + i)) ∧ attempt s (w - 3) (j + k) < w - 3

/-- The base that `BaseDrawn` accepts (44 R181). -/
def drawnBase (s : State) (w j k : Nat) : Nat := attempt s (w - 3) (j + k) + 2

/-- `r` rounds on `w` from the `j`-th composed word on all pass, and take the words up to the `j'`-th (44 R180 to
R182). -/
def RoundsPassed (s : State) (w : Nat) : Nat → Nat → Nat → Prop
  | 0, j, j' => j' = j
  | r + 1, j, j' => ∃ k, BaseDrawn s w j k ∧ StrongProbablePrime w (drawnBase s w j k) ∧
      RoundsPassed s w r (j + k + 1) j'

/-- Some round on `w`, after passed ones, fails: the verdict Composite (44 R180). -/
def RoundFails (s : State) (w j j' : Nat) : Prop :=
  ∃ r < s.checks.toNat, ∃ j1 k, RoundsPassed s w r j j1 ∧ BaseDrawn s w j1 k ∧
    ¬ StrongProbablePrime w (drawnBase s w j1 k) ∧ j' = j1 + k + 1

/-- Some round's base draw on `w`, after passed rounds, rejects 100 attempts: Inconclusive (44 R181). -/
def DrawExhausts (s : State) (w j j' : Nat) : Prop :=
  ∃ r < s.checks.toNat, ∃ j1, RoundsPassed s w r j j1 ∧ (∀ i < 100, w - 3 ≤ attempt s (w - 3) (j1 + i)) ∧
    j' = j1 + 100

/-- Both verifications of GENPRIME's candidate `c` pass: `c`, and in safe mode `(c - 1)/2`, `checks` rounds each
(45 R215). -/
def CandidatePasses (s : State) (safe : Bool) (c j j' : Nat) : Prop :=
  ∃ j1, RoundsPassed s c s.checks.toNat j j1 ∧
    (if safe then RoundsPassed s ((c - 1) / 2) s.checks.toNat j1 j' else j' = j1)

/-- A verification of GENPRIME's candidate `c` gives Composite (45 R215, R218). -/
def CandidateFails (s : State) (safe : Bool) (c j j' : Nat) : Prop :=
  RoundFails s c j j' ∨
  (safe = true ∧ ∃ j1, RoundsPassed s c s.checks.toNat j j1 ∧ RoundFails s ((c - 1) / 2) j1 j')

/-- A verification of GENPRIME's candidate `c` is inconclusive (45 R215). -/
def CandidateInconclusive (s : State) (safe : Bool) (c j j' : Nat) : Prop :=
  DrawExhausts s c j j' ∨
  (safe = true ∧ ∃ j1, RoundsPassed s c s.checks.toNat j j1 ∧ DrawExhausts s ((c - 1) / 2) j1 j')

/-- GENPRIME from label `top` on the `j`-th composed word searches and refuses `m` candidates, up to the `j'`-th word;
the transitions of these searches number at most `t` (45 R215: Composite goes to `top`). -/
def CandidatesFail (s : State) (safe cls : Bool) : Nat → Nat → Nat → Nat → Prop
  | 0, j, j', t => j' = j ∧ t = 0
  | m + 1, j, j', t => ∃ n k c j1 t', t = 68 * (n + 1) + 66 * k + t' ∧ SearchFinds s safe cls n j k c ∧
      CandidateFails s safe c (j + n + 1) j1 ∧ CandidatesFail s safe cls m j1 j' t'

/-- Whether the running search is in a residue class (45 R215). -/
abbrev inClass (i : Instr) (add : Word32) : Prop :=
  (∃ safe, i = .probprimedh safe) ∨ ((∃ safe, i = .genprime safe) ∧ add ≠ 0)

/-- The three generator commands (45 R200). -/
abbrev IsSearch (i : Instr) : Prop := ∃ safe, i = .probprime safe ∨ i = .probprimedh safe ∨ i = .genprime safe

/-- What a search's result satisfies (45 R210, R211, R216) without the exemption: exactly `bits` bits, no factor in the
table, in safe mode none of `(p - 1)/2` either, and the class; without a class odd, in safe mode 3 modulo 4. -/
abbrev ResultClean (i : Instr) (s : State) (p : Nat) : Prop :=
  Nat.size p = s.xl.toNat ∧
  (∀ q ∈ tablePrimes, ¬ q ∣ p) ∧
  (safeFlag i = true → ∀ q ∈ tablePrimes, ¬ q ∣ (p - 1) / 2) ∧
  (inClass i s.add → p % s.add.toNat = s.rem.toNat % s.add.toNat) ∧
  (¬ inClass i s.add → p % 2 = 1 ∧ (safeFlag i = true → p % 4 = 3))

/-! ### The invariant of the machine -/

/-- A draw is under way (43 R166). -/
abbrev DrawOk (s : State) (range : Word32) (k : Nat) : Prop :=
  1 ≤ k ∧ k ≤ 100 ∧ range ≠ 0 ∧ s.draw.range = range ∧ s.draw.width = Nat.size (range.toNat - 1)

/-- Miller-Rabin was entered (44 R176): `w` is odd, above 3, and no table prime divides it. -/
abbrev Entered (s : State) : Prop :=
  s.mr.w.toNat % 2 = 1 ∧ 3 < s.mr.w.toNat ∧ s.checks ≠ 0 ∧ ∀ p ∈ tablePrimes, ¬ p ∣ s.mr.w.toNat

/-- `w - 1 = 2^a * m` with `m` odd (44 R179), and the round is one of 1 to `checks`. -/
abbrev Factored (s : State) (j : Nat) : Prop :=
  Entered s ∧ s.mr.w.toNat - 1 = 2 ^ s.mr.a * s.mr.m.toNat ∧ s.mr.m.toNat % 2 = 1 ∧ 1 ≤ j ∧ j ≤ s.checks.toNat

/-- The base of the round lies in `[2, w - 2]` (44 R181). -/
abbrev BaseOk (s : State) : Prop := 2 ≤ s.mr.b.toNat ∧ s.mr.b.toNat ≤ s.mr.w.toNat - 2

/-- The tester's states (44 R186). -/
def TesterOk (s : State) : Prop :=
  match s.seq with
  | .ipPre => True
  | .ipTrial i =>
    i < 64 ∧ s.mr.w.toNat % 2 = 1 ∧ 3 < s.mr.w.toNat ∧ s.checks ≠ 0 ∧
      ∀ j < i, ¬ tablePrimes.getD j 0 ∣ s.mr.w.toNat
  | .ipFactor => Entered s
  | .ipRound j false => Factored s j
  | .rrTry k => Factored s s.mr.round ∧ DrawOk s (s.mr.w - 3) k
  | .ipRound j true => Factored s j ∧ BaseOk s
  | .ipSquare j t =>
    Factored s j ∧ BaseOk s ∧ 1 ≤ t ∧ t < s.mr.a ∧
      s.mr.z.toNat = s.mr.b.toNat ^ (2 ^ (t - 1) * s.mr.m.toNat) % s.mr.w.toNat ∧
      s.mr.b.toNat ^ s.mr.m.toNat % s.mr.w.toNat ≠ 1 ∧
      ∀ u < t, s.mr.b.toNat ^ (2 ^ u * s.mr.m.toNat) % s.mr.w.toNat ≠ s.mr.w.toNat - 1
  | _ => False

/-- The preconditions of the running search have passed (45 R202, R203, R211, R215). -/
abbrev RequestOk (i : Instr) (s : State) : Prop :=
  BitsOk s.xl.toNat (safeFlag i) ∧
  ((∃ safe, i = .probprimedh safe) → s.add ≠ 0) ∧ ((∃ safe, i = .genprime safe) → s.checks ≠ 0)

/-- What the draw and the move guarantee of a candidate, kept by every bump (45 R204, R205, R209). -/
abbrev CandidateOk (i : Instr) (s : State) (v : Nat) : Prop :=
  (inClass i s.add → v % s.add.toNat = s.rem.toNat % s.add.toNat) ∧
  (¬ inClass i s.add → v % 2 = 1 ∧ (safeFlag i = true → v % 4 = 3))

/-- The sieve's registers (10 R35, 45 R206, R208): `mods[i]` is the residue of the candidate, `delta` is within
MAXDELTA, `c + delta` is exact and in its class. -/
abbrev SieveOk (i : Instr) (s : State) : Prop :=
  s.cand.toNat < 2 ^ 34 ∧ s.delta.toNat ≤ s.params.maxDelta.toNat ∧
  CandidateOk i s (s.cand.toNat + s.delta.toNat) ∧
  s.mods.map BitVec.toNat = tablePrimes.map (s.cand.toNat % ·)

/-- The candidate is final (45 R212): of the length asked for, cleared by the sieve, in its class. -/
abbrev FinalOk (i : Instr) (s : State) : Prop :=
  Nat.size s.cand.toNat = s.xl.toNat ∧ Clear s.params.selfExempt (safeFlag i) s.cand.toNat ∧
  CandidateOk i s s.cand.toNat

/-- The states of the search (45 R213) under the command `i`. -/
def SearchOk (i : Instr) (s : State) : Prop :=
  match s.seq with
  | .pgCheck => True
  | .pgAgain => RequestOk i s
  | .pgResidue => RequestOk i s ∧ s.cand.toNat < 2 ^ 34 ∧ CandidateOk i s s.cand.toNat
  | .pgLoop => RequestOk i s ∧ SieveOk i s
  | .pgSieve n =>
    RequestOk i s ∧ SieveOk i s ∧ n < 64 ∧
      ∀ j < n, ¬ Hits s.params.selfExempt (safeFlag i) (tablePrimes.getD j 0) (s.cand.toNat + s.delta.toNat)
  | .pgBump =>
    RequestOk i s ∧ SieveOk i s ∧ ¬ Clear s.params.selfExempt (safeFlag i) (s.cand.toNat + s.delta.toNat)
  | .pgFinal =>
    RequestOk i s ∧ SieveOk i s ∧ Clear s.params.selfExempt (safeFlag i) (s.cand.toNat + s.delta.toNat)
  | _ => False

/-- The states of GENPRIME's outer loop (45 R218). -/
def OuterOk (safe : Bool) (s : State) : Prop :=
  SearchOk (.genprime safe) s ∨
  (s.seq = .gpCall ∧ RequestOk (.genprime safe) s) ∨
  (RequestOk (.genprime safe) s ∧ FinalOk (.genprime safe) s ∧
    (s.seq = .gpVerifyP ∨ (s.seq = .gpVerifyQ ∧ safe = true) ∨
      (TesterOk s ∧ s.verify = .p ∧ s.mr.w.toNat = s.cand.toNat) ∨
      (TesterOk s ∧ s.verify = .q ∧ safe = true ∧ s.mr.w.toNat = (s.cand.toNat - 1) / 2)))

/-- The sequencer is in a state of the running command (10 R30). -/
def RunningOk (s : State) : Prop :=
  match s.running with
  | some .randrange => ∃ k, s.seq = .rrTry k ∧ DrawOk s s.xl k
  | some .isprime => TesterOk s ∧ s.verify = .none ∧ s.mr.w = s.xl
  | some (.probprime safe) => SearchOk (.probprime safe) s
  | some (.probprimedh safe) => SearchOk (.probprimedh safe) s
  | some (.genprime safe) => OuterOk safe s
  | _ => False

/-- The invariant: the tables have their size and, once set up, their content (10 R33, R34); ERR is a code the block
writes (60 R270, R278); BUSY is 0 exactly in IDLE (10 R30); while BUSY the setup has run, DONE is 0 (10 R28), the
running command is the one in CMD (10 R29) and the sequencer is in one of its states. -/
structure Inv (s : State) : Prop where
  spLength : s.sp.length = 64
  pow2Length : s.pow2.length = 32
  modsLength : s.mods.length = 64
  spContent : s.isp = true → s.sp = smallPrimes
  pow2Content : s.ipt = true → s.pow2 = powersOfTwo
  errCode : s.err.toNat < 8 ∧ s.err ≠ 4
  idle : s.busy = false → s.seq = .idle ∧ s.running = none
  busy : s.busy = true →
    s.done = false ∧ Ready s ∧ s.running = decode s.cmd ∧ RunningOk s

/-- The next host action does not assert the reset input. -/
abbrev NoReset (s : State) : Prop := s.hostQueue.head? ≠ some .reset

/-! ### Views -/

/-- A state without what no command reads before writing it (10 R35, R36, R22): the results of the command before, C and
ERR, the candidate state and the working registers. -/
def carried (s : State) : State :=
  { s with
    ph := 0, pl := 0, qh := 0, ql := 0, carry := false, err := 0,
    mods := [], delta := 0, cand := 0,
    div := ⟨0, 0, 0, 0⟩, exp := ⟨0, 0, 0⟩, inv := ⟨0, 0, 0, 0, .minus⟩, draw := ⟨0, 0⟩, mr := ⟨0, 0, 0, 0, 0, 0⟩ }

/-- A state without the candidate state and the working registers, none of which the host can read (10 R35, R36). -/
def outside (s : State) : State :=
  { s with
    mods := [], delta := 0, cand := 0,
    div := ⟨0, 0, 0, 0⟩, exp := ⟨0, 0, 0⟩, inv := ⟨0, 0, 0, 0, .minus⟩, draw := ⟨0, 0⟩, mr := ⟨0, 0, 0, 0, 0, 0⟩ }

/-- The registers the host writes (10 R20), and CMD. -/
def hostRegs (s : State) : List Word32 :=
  [s.xh, s.xl, s.yh, s.yl, s.m, s.add, s.rem, s.checks, s.cmd]

/-- The commands accepted before setup (60 R274). -/
abbrev IsExempt (i : Instr) : Prop := i = .nop ∨ i = .initsp ∨ i = .initpt ∨ i = .seedrng

/-- The illegal words as 30 R75 lists them: an unused opcode, a nonzero ZERO field, or bit 8 set in format N. -/
abbrev IllegalWord (w : Word32) : Prop :=
  let op := w.toNat % 256
  (0x0A ≤ op ∧ op ≤ 0x10) ∨ op = 0x17 ∨ (0x1A ≤ op ∧ op ≤ 0x20) ∨ (0x24 ≤ op ∧ op ≤ 0x2F) ∨
  (0x34 ≤ op ∧ op ≤ 0x40) ∨ (0x43 ≤ op ∧ op ≤ 0x50) ∨ (0x54 ≤ op ∧ op ≤ 0x5F) ∨ 0x62 ≤ op ∨
  ((op < 0x51 ∨ 0x53 < op) ∧ w.toNat / 256 ≠ 0) ∨
  (0x51 ≤ op ∧ op ≤ 0x53 ∧ w.toNat / 512 ≠ 0)

/-- The causes of InvalidParameter, the complete list of 60 R275. -/
def BadOperands (i : Instr) (s : State) : Prop :=
  match i with
  | .divrem32 => s.yl = 0
  | .divrem64 => s.yh = 0 ∧ s.yl = 0
  | .mulmod => s.m = 0
  | .expmod => s.m = 0
  | .randbits => 32 < s.xl.toNat
  | .randrange => s.xl = 0
  | .isprime => s.checks = 0
  | .mrround =>
    s.xl.toNat % 2 = 0 ∨ s.xl.toNat < 5 ∨ s.yl.toNat < 2 ∨ s.xl.toNat - 2 < s.yl.toNat
  | .probprime safe => ¬ BitsOk s.xl.toNat safe
  | .probprimedh safe => ¬ BitsOk s.xl.toNat safe ∨ s.add = 0
  | .genprime safe => ¬ BitsOk s.xl.toNat safe ∨ s.checks = 0
  | .nop | .cmp32 | .add32 | .sub32 | .neg32 | .srl32 | .sll32 | .mul32 | .bitlen32 | .cmp64 | .add64 | .sub64
  | .neg64 | .srl64 | .sll64 | .bitlen64 | .invmod | .seedrng | .rand32 | .initsp | .initpt => False

/-- How the command `i`, started in a state `Ready` or not, may end (60 R270 to R279): without error, or with one of its
errors and no partial result. -/
abbrev EndsProperly (i : Instr) (ready : Prop) (t : State) : Prop :=
  t.err = 0 ∨
  (t.ph = 0 ∧ t.pl = 0 ∧ t.qh = 0 ∧ t.ql = 0 ∧ t.carry = false ∧
    ((t.err = 7 ∧ ¬ IsExempt i ∧ ¬ ready) ∨
     (t.err = 1 ∧ (i = .divrem32 ∨ i = .divrem64 ∨ i = .mulmod ∨ i = .expmod ∨ i = .randbits ∨ i = .randrange ∨
        i = .isprime ∨ i = .mrround ∨ IsSearch i)) ∨
     (t.err = 2 ∧ i = .randrange) ∨ (t.err = 3 ∧ i = .invmod) ∨
     (t.err = 5 ∧ (i = .isprime ∨ ∃ safe, i = .genprime safe))))

/-- The commands that call `RngNext()` (43 R167). -/
abbrev Draws (i : Instr) : Prop := i = .rand32 ∨ i = .randbits ∨ i = .randrange ∨ i = .isprime ∨ IsSearch i

end Sys2Proof.Safety
end

