-- ==== Sys2Proof/Certificates/Slice0/Obligations.lean ====
section
/-! DEFINITION. The statements for the provers. Each formalises the rule its docstring names; OBLIGATIONS.json lists
them. A command's statement says its whole next state, and so its frame: every field that the right-hand side does not
name is the one of the state before. -/

open Sys2Proof Sys2Proof.Machine Sys2Proof.Safety

/-! ### Decoding and the step -/

/-- 30 R74: a word decodes to a command exactly when it is that command's word; so decode and encode agree both ways. -/
def Obligations.DecodeIsTheInverseOfEncode : Prop :=
  (∀ i : Instr, i.wellFormed = true → decode (encode i) = some i) ∧
  (∀ (w : Word32) (i : Instr), decode w = some i ↔ encode i = w)

/-- 30 R74, R75: the words that decode to no command are those listed. -/
def Obligations.IllegalWordsAreThoseListed : Prop :=
  ∀ w : Word32, decode w = none ↔ IllegalWord w

/-- 30 R73, R76: words written out from the opcode map decode to their commands. -/
def Obligations.WordsOfTheOpcodeMapDecode : Prop :=
  decode 0x00000000#32 = some .nop ∧ decode 0x00000009#32 = some .divrem32 ∧
  decode 0x00000012#32 = some .add64 ∧ decode 0x00000023#32 = some .invmod ∧
  decode 0x00000033#32 = some .randrange ∧ decode 0x00000041#32 = some .isprime ∧
  decode 0x00000051#32 = some (.probprime false) ∧ decode 0x00000153#32 = some (.genprime true) ∧
  decode 0x00000061#32 = some .initpt ∧ decode 0x00000017#32 = none ∧ decode 0x00000102#32 = none

/-- 10 R29: the host's write of a legal word to CMD while BUSY = 0 stores the word and runs the command it encodes. -/
def Obligations.StepRunsTheDecodedCommand : Prop :=
  ∀ (s : State) (w : Word32) (i : Instr) (rest : List HostAction),
    s.busy = false → s.hostQueue = .write 12 w :: rest → decode w = some i →
    step s = exec i { s with hostQueue := rest, cmd := w }

/-- 30 R75, 60 R273: an illegal word ends at once with IllegalCommand, whatever ISP, IPT and the operands are; no random
word is drawn. -/
def Obligations.IllegalWordEndsWithIllegalCommand : Prop :=
  ∀ (s : State) (w : Word32) (rest : List HostAction),
    s.busy = false → s.hostQueue = .write 12 w :: rest → IllegalWord w →
    step s = .next (failed { s with hostQueue := rest, cmd := w } 6)

/-! ### Word commands -/

/-- 40 R101. -/
def Obligations.Cmp32ComparesUnsigned : Prop :=
  decode 0x00000001#32 = some .cmp32 ∧ ∀ s, Ready s → exec .cmp32 s = .next (ended s 0
    (if s.xl.toNat < s.yl.toNat then 0xFFFFFFFF else if s.xl.toNat = s.yl.toNat then 0 else 1) 0 0 false)

/-- 40 R102. -/
def Obligations.Add32GivesSumAndCarry : Prop :=
  decode 0x00000002#32 = some .add32 ∧ ∀ s, Ready s → exec .add32 s = .next (ended s 0
    (BitVec.ofNat 32 ((s.xl.toNat + s.yl.toNat) % 2 ^ 32)) 0 0 (decide (2 ^ 32 ≤ s.xl.toNat + s.yl.toNat)))

/-- 40 R103. -/
def Obligations.Sub32GivesDifferenceAndBorrow : Prop :=
  decode 0x00000003#32 = some .sub32 ∧ ∀ s, Ready s → exec .sub32 s = .next (ended s 0
    (BitVec.ofInt 32 ((s.xl.toNat : Int) - s.yl.toNat)) 0 0 (decide (s.xl.toNat < s.yl.toNat)))

/-- 40 R104. -/
def Obligations.Neg32Negates : Prop :=
  decode 0x00000004#32 = some .neg32 ∧ ∀ s, Ready s → exec .neg32 s = .next (ended s 0
    (BitVec.ofNat 32 ((2 ^ 32 - s.xl.toNat) % 2 ^ 32)) 0 0 false)

/-- 40 R105. -/
def Obligations.Srl32ShiftsRight : Prop :=
  decode 0x00000005#32 = some .srl32 ∧ ∀ s, Ready s → exec .srl32 s = .next (ended s 0
    (if 32 ≤ s.yl.toNat then 0 else BitVec.ofNat 32 (s.xl.toNat / 2 ^ s.yl.toNat)) 0 0 false)

/-- 40 R106. -/
def Obligations.Sll32ShiftsLeft : Prop :=
  decode 0x00000006#32 = some .sll32 ∧ ∀ s, Ready s → exec .sll32 s = .next (ended s 0
    (if 32 ≤ s.yl.toNat then 0 else BitVec.ofNat 32 (s.xl.toNat * 2 ^ s.yl.toNat % 2 ^ 32)) 0 0 false)

/-- 40 R107: the half-word datapath gives the exact product. -/
def Obligations.Mul32GivesTheExactProduct : Prop :=
  decode 0x00000007#32 = some .mul32 ∧ ∀ s, Ready s → exec .mul32 s = .next (ended s
    (upper (s.xl.toNat * s.yl.toNat)) (lower (s.xl.toNat * s.yl.toNat)) 0 0 false)

/-- 40 R108: the smallest `n` with `SRL32(v, n) = 0`. -/
def Obligations.Bitlen32IsTheBitLength : Prop :=
  decode 0x00000008#32 = some .bitlen32 ∧ ∀ s, Ready s →
    ∃ n ≤ 32, exec .bitlen32 s = .next (ended s 0 (BitVec.ofNat 32 n) 0 0 false) ∧
    s.xl.toNat / 2 ^ n = 0 ∧ ∀ k < n, s.xl.toNat / 2 ^ k ≠ 0

/-- 40 R109: quotient and remainder for a nonzero divisor (the divider's working registers are left open); a zero divisor
is InvalidParameter. -/
def Obligations.Divrem32Divides : Prop :=
  decode 0x00000009#32 = some .divrem32 ∧ ∀ s, Ready s →
    (s.yl = 0 → exec .divrem32 s = .next (failed s 1)) ∧
    (s.yl ≠ 0 → ∃ d, exec .divrem32 s = .next { ended s
      0 (BitVec.ofNat 32 (s.xl.toNat / s.yl.toNat)) 0 (BitVec.ofNat 32 (s.xl.toNat % s.yl.toNat)) false with div := d })

/-! ### Double-word commands -/

/-- 41 R121. -/
def Obligations.Cmp64ComparesUnsigned : Prop :=
  decode 0x00000011#32 = some .cmp64 ∧ ∀ s, Ready s → exec .cmp64 s = .next (ended s 0
    (if value64 s.xh s.xl < value64 s.yh s.yl then 0xFFFFFFFF
     else if value64 s.xh s.xl = value64 s.yh s.yl then 0 else 1) 0 0 false)

/-- 41 R122, R123: the limb-by-limb sum is the 64-bit sum, C its carry. -/
def Obligations.Add64GivesSumAndCarry : Prop :=
  decode 0x00000012#32 = some .add64 ∧ ∀ s, Ready s →
    let n := value64 s.xh s.xl + value64 s.yh s.yl
    exec .add64 s = .next (ended s (upper (n % 2 ^ 64)) (lower (n % 2 ^ 64)) 0 0 (decide (2 ^ 64 ≤ n)))

/-- 41 R124, R123: the limb-by-limb difference is the 64-bit difference, C its borrow. -/
def Obligations.Sub64GivesDifferenceAndBorrow : Prop :=
  decode 0x00000013#32 = some .sub64 ∧ ∀ s, Ready s →
    let n := (2 ^ 64 + value64 s.xh s.xl - value64 s.yh s.yl) % 2 ^ 64
    exec .sub64 s = .next (ended s (upper n) (lower n) 0 0
      (decide (value64 s.xh s.xl < value64 s.yh s.yl)))

/-- 41 R125. -/
def Obligations.Neg64Negates : Prop :=
  decode 0x00000014#32 = some .neg64 ∧ ∀ s, Ready s →
    let n := (2 ^ 64 - value64 s.xh s.xl) % 2 ^ 64
    exec .neg64 s = .next (ended s (upper n) (lower n) 0 0 false)

/-- 41 R126: the limb-by-limb shift is the 64-bit shift. -/
def Obligations.Srl64ShiftsRight : Prop :=
  decode 0x00000015#32 = some .srl64 ∧ ∀ s, Ready s →
    let n := if 64 ≤ s.yl.toNat then 0 else value64 s.xh s.xl / 2 ^ s.yl.toNat
    exec .srl64 s = .next (ended s (upper n) (lower n) 0 0 false)

/-- 41 R127: the limb-by-limb shift is the 64-bit shift. -/
def Obligations.Sll64ShiftsLeft : Prop :=
  decode 0x00000016#32 = some .sll64 ∧ ∀ s, Ready s →
    let n := if 64 ≤ s.yl.toNat then 0 else value64 s.xh s.xl * 2 ^ s.yl.toNat % 2 ^ 64
    exec .sll64 s = .next (ended s (upper n) (lower n) 0 0 false)

/-- 41 R128: the smallest `n` with `SRL64(A, n) = 0`. -/
def Obligations.Bitlen64IsTheBitLength : Prop :=
  decode 0x00000018#32 = some .bitlen64 ∧ ∀ s, Ready s →
    ∃ n ≤ 64, exec .bitlen64 s = .next (ended s 0 (BitVec.ofNat 32 n) 0 0 false) ∧
    value64 s.xh s.xl / 2 ^ n = 0 ∧ ∀ k < n, value64 s.xh s.xl / 2 ^ k ≠ 0

/-- 41 R129: the shift-subtract divider gives quotient and remainder; a zero divisor is InvalidParameter. Its round counter
ends at the rule's `bit_length(A) - bit_length(B) + 1` rounds (none when that is not positive): that it counts completed
rounds and keeps the total is the model's choice (log 22). -/
def Obligations.Divrem64Divides : Prop :=
  decode 0x00000019#32 = some .divrem64 ∧ ∀ s, Ready s →
    (value64 s.yh s.yl = 0 → exec .divrem64 s = .next (failed s 1)) ∧
    (value64 s.yh s.yl ≠ 0 →
      let q := value64 s.xh s.xl / value64 s.yh s.yl
      let r := value64 s.xh s.xl % value64 s.yh s.yl
      ∃ d, exec .divrem64 s = .next { ended s (upper q) (lower q) (upper r) (lower r) false with div := d } ∧
        d.rounds = Nat.size (value64 s.xh s.xl) + 1 - Nat.size (value64 s.yh s.yl))

/-! ### Modular commands -/

/-- 42 R141: for all operands and every nonzero modulus of 32 bits; modulus 0 is InvalidParameter. -/
def Obligations.MulmodMultipliesModulo : Prop :=
  decode 0x00000021#32 = some .mulmod ∧ ∀ s, Ready s →
    (s.m = 0 → exec .mulmod s = .next (failed s 1)) ∧
    (s.m ≠ 0 → ∃ d, exec .mulmod s = .next { ended s
      0 (BitVec.ofNat 32 (s.xl.toNat * s.yl.toNat % s.m.toNat)) 0 0 false with div := d })

/-- 42 R142: `base^e mod m`, and 1 for exponent 0 whatever the modulus is; modulus 0 is InvalidParameter, also for
exponent 0. The exponentiator's and the divider's working registers are left open. -/
def Obligations.ExpmodRaisesModulo : Prop :=
  decode 0x00000022#32 = some .expmod ∧ ∀ s, Ready s →
    (s.m = 0 → exec .expmod s = .next (failed s 1)) ∧
    (s.m ≠ 0 → ∃ w d, exec .expmod s = .next { ended s
      0 (if s.yl = 0 then 1 else BitVec.ofNat 32 (s.xl.toNat ^ s.yl.toNat % s.m.toNat)) 0 0 false with
      exp := w, div := d })

/-- 42 R143: the inverse in `[0, n)` when it exists, by either path (42 R144, R145); NoInverseExists for `n` in {0, 1} or a
common factor (60 R277). The working registers of the inverse and of the divider are left open. -/
def Obligations.InvmodGivesTheInverseOrReportsNone : Prop :=
  decode 0x00000023#32 = some .invmod ∧ ∀ s, Ready s →
    (2 ≤ s.m.toNat → Nat.gcd s.xl.toNat s.m.toNat = 1 →
      ∃ v w d, exec .invmod s = .next { ended s 0 v 0 0 false with inv := w, div := d } ∧
        v.toNat < s.m.toNat ∧ s.xl.toNat * v.toNat % s.m.toNat = 1) ∧
    ((s.m.toNat ≤ 1 ∨ Nat.gcd s.xl.toNat s.m.toNat ≠ 1) →
      ∃ w d, exec .invmod s = .next { failed s 3 with inv := w, div := d })

/-- 60 R275: InvalidParameter is raised exactly for the causes listed, and then nothing has been drawn. (Before setup
NotInitialised comes first, 60 R282.) -/
def Obligations.InvalidParameterHasExactlyTheListedCauses : Prop :=
  ∀ (s t : State) (i : Instr), Ready s → exec i s = .next t →
    ((t.busy = false ∧ t.err = 1) ↔ BadOperands i s) ∧
    (BadOperands i s → t.rngIn = s.rngIn ∧ t.rngCalls = s.rngCalls ∧ t.rngSeeds = s.rngSeeds)

/-! ### Random source adapter -/

/-- 43 R161: the seed goes to the port, also before setup; nothing else inside the block but the end of the command. -/
def Obligations.SeedrngPassesTheSeedOn : Prop :=
  decode 0x00000030#32 = some .seedrng ∧ ∀ s,
    exec .seedrng s = .next { ended s 0 0 0 0 false with rngSeeds := (s.rngCalls, s.xl) :: s.rngSeeds }

/-- 43 R163, R162: the composition of the next three answers, in order. -/
def Obligations.Rand32ComposesThreeWords : Prop :=
  decode 0x00000031#32 = some .rand32 ∧ ∀ s, Ready s →
    exec .rand32 s = .next (afterCalls (ended s 0 (BitVec.ofNat 32 (composed s 0)) 0 0 false) 3)

/-- 43 R164: the low `n` bits of one composed word for `n ≤ 32`; else InvalidParameter before any draw. -/
def Obligations.RandbitsTakesTheLowBits : Prop :=
  decode 0x00000032#32 = some .randbits ∧ ∀ s, Ready s →
    exec .randbits s =
      if s.xl.toNat ≤ 32 then
        .next (afterCalls (ended s 0 (BitVec.ofNat 32 (composed s 0 % 2 ^ s.xl.toNat)) 0 0 false) 3)
      else .next (failed s 1)

/-- 43 R165, R166: the value of the first attempt below the range, when there is one among the attempts that the
engine makes in its turn (log 4), after three words per attempt. -/
def Obligations.RandrangeTakesTheFirstValueInRange : Prop :=
  ∀ (s : State) (k : Nat), Ready s → s.xl ≠ 0 → k < 100 → k ≤ s.pace →
    (∀ j < k, s.xl.toNat ≤ attempt s s.xl.toNat j) → attempt s s.xl.toNat k < s.xl.toNat →
    ∃ w, exec .randrange s = .next { afterCalls
      (ended s 0 (BitVec.ofNat 32 (attempt s s.xl.toNat k)) 0 0 false) (3 * (k + 1)) with draw := w }

/-- 43 R165, 60 R276: an empty range is InvalidParameter before any draw; 100 rejected attempts, 300 words, are
SamplingExhausted. -/
def Obligations.RandrangeFails : Prop :=
  ∀ s, Ready s →
    (s.xl = 0 → exec .randrange s = .next (failed s 1)) ∧
    (s.xl ≠ 0 → 99 ≤ s.pace → (∀ j < 100, s.xl.toNat ≤ attempt s s.xl.toNat j) →
      ∃ w, exec .randrange s = .next { afterCalls (failed s 2) 300 with draw := w })

/-! ### Primality -/

/-- 44 R177, R178: a number at most 1, or divisible by a table prime, is settled without a random word, PL = 1 exactly
when it is prime. -/
def Obligations.IsprimeSettlesByTrialDivision : Prop :=
  ∀ s, ReadyTables s → s.checks ≠ 0 → 64 ≤ s.pace →
    (s.xl.toNat ≤ 1 ∨ ∃ p ∈ tablePrimes, p ∣ s.xl.toNat) →
    ∃ d w, exec .isprime s = .next { ended s 0 (if Nat.Prime s.xl.toNat then 1 else 0) 0 0 false with
      div := d, mr := w }

/-- 44 R180, R181, R182, 60 R279: a number that no table prime divides gets the outcome of its rounds on the words the
source gives: PL = 1 when every round's base is drawn and passes, PL = 0 at the first round that fails,
PrimalityInconclusive at the first round whose 100 attempts are all rejected; one of the three is the case. `n` is the
number of composed words taken, and the turn must reach the end (log 4). -/
def Obligations.IsprimeGivesTheOutcomeOfItsRounds : Prop :=
  ∀ s, ReadyTables s → s.checks ≠ 0 → 1 < s.xl.toNat → (∀ p ∈ tablePrimes, ¬ p ∣ s.xl.toNat) →
    (∃ n, RoundsPassed s s.xl.toNat s.checks.toNat 0 n ∨ RoundFails s s.xl.toNat 0 n ∨
      DrawExhausts s s.xl.toNat 0 n) ∧
    ∀ n, 66 + 32 * s.checks.toNat + n ≤ s.pace →
      (RoundsPassed s s.xl.toNat s.checks.toNat 0 n →
        ∃ d e dw mw, exec .isprime s = .next { afterCalls (ended s 0 1 0 0 false) (3 * n) with
          div := d, exp := e, draw := dw, mr := mw }) ∧
      (RoundFails s s.xl.toNat 0 n →
        ∃ d e dw mw, exec .isprime s = .next { afterCalls (ended s 0 0 0 0 false) (3 * n) with
          div := d, exp := e, draw := dw, mr := mw }) ∧
      (DrawExhausts s s.xl.toNat 0 n →
        ∃ d e dw mw, exec .isprime s = .next { afterCalls (failed s 5) (3 * n) with
          div := d, exp := e, draw := dw, mr := mw })

/-- 44 R186: every path of ISPRIME is finite: it ends with a verdict, or with PrimalityInconclusive exactly when a round's
draw exhausts. The counts, 66 transitions and 133 a round, are of the model's transitions (log 4), with IP_ROUND(j) in
two parts (log 18). -/
def Obligations.IsprimeAlwaysEnds : Prop :=
  ∀ s, ReadyTables s → s.checks ≠ 0 → 65 + 133 * s.checks.toNat ≤ s.pace →
    ∃ t, exec .isprime s = .next t ∧ t.busy = false ∧ t.done = true ∧
      ((t.err = 0 ∧ (t.pl = 0 ∨ t.pl = 1)) ∨ (t.err = 5 ∧ t.pl = 0)) ∧
      (t.err = 5 ↔ 1 < s.xl.toNat ∧ (∀ p ∈ tablePrimes, ¬ p ∣ s.xl.toNat) ∧ ∃ n, DrawExhausts s s.xl.toNat 0 n) ∧
      t.ph = 0 ∧ t.qh = 0 ∧ t.ql = 0 ∧ t.carry = false

/-- 44 R184: "a prime is never called Composite", whatever the random words are, whether ISPRIME ends in the step that
starts it or in a later one. -/
def Obligations.IsprimeNeverCallsAPrimeComposite : Prop :=
  ∀ s t, Nat.Prime s.xl.toNat → t.busy = false → t.err = 0 →
    (ReadyTables s → exec .isprime s = .next t → t.pl = 1) ∧
    (Inv s → s.busy = true → s.running = some .isprime → NoReset s → step s = .next t → t.pl = 1)

/-- 44 R185: below `312^2` a verdict is exact and does not depend on the random words, whether ISPRIME ends in the step
that starts it or in a later one. -/
def Obligations.IsprimeIsExactBelow97344 : Prop :=
  ∀ s t, s.xl.toNat < 97344 → t.busy = false → t.err = 0 →
    ((ReadyTables s ∧ exec .isprime s = .next t) ∨
      (Inv s ∧ s.busy = true ∧ s.running = some .isprime ∧ NoReset s ∧ step s = .next t)) →
    (t.pl = 1 ↔ Nat.Prime s.xl.toNat) ∧ (t.pl = 0 ↔ ¬ Nat.Prime s.xl.toNat)

/-- 44 R183, R182: PL is the outcome of the witness test in exact arithmetic; operands outside their ranges are
InvalidParameter. The working registers of the tester, the exponentiator and the divider are left open. -/
def Obligations.MrroundMakesOneWitnessTest : Prop :=
  decode 0x00000042#32 = some .mrround ∧ ∀ s, Ready s →
    ((s.xl.toNat % 2 = 1 ∧ 5 ≤ s.xl.toNat ∧ 2 ≤ s.yl.toNat ∧ s.yl.toNat ≤ s.xl.toNat - 2) →
      ∃ v w e d, exec .mrround s = .next { ended s 0 v 0 0 false with mr := w, exp := e, div := d } ∧
        (v = 0 ∨ v = 1) ∧ (v = 1 ↔ StrongProbablePrime s.xl.toNat s.yl.toNat)) ∧
    ((s.xl.toNat % 2 = 0 ∨ s.xl.toNat < 5 ∨ s.yl.toNat < 2 ∨ s.xl.toNat - 2 < s.yl.toNat) →
      exec .mrround s = .next (failed s 1))

/-! ### Prime generation -/

/-- 45 R210 with R204, R207, R209, R212: PROBPRIME returns the first value that the sieve clears among the drawn
candidate and its successors in steps of 2, or 4 in safe mode, when it has the length asked for. A draw whose first clear
value has another length, or whose offset would pass MAXDELTA, is abandoned for the next composed word, and the sieve
starts again from its own value: `n` draws are, after `b` bumps in all, and the engine's turn reaches the end (log 4). -/
def Obligations.ProbprimeReturnsTheFirstClearValue : Prop :=
  ∀ (s : State) (safe : Bool) (n b c : Nat), ReadyTables s → BitsOk s.xl.toNat safe →
    SearchFinds s safe false n 0 b c → 68 * (n + 1) + 66 * b ≤ s.pace →
    ∃ c' ms dl d, exec (.probprime safe) s =
      .next { afterCalls (ended s 0 (BitVec.ofNat 32 c) 0 0 false) (3 * (n + 1)) with
        cand := c', mods := ms, delta := dl, div := d }

/-- 45 R211 with R205, R207, R209, R212: the same in a residue class, from the moved draws and in steps of `add`. -/
def Obligations.ProbprimedhReturnsTheFirstClearValue : Prop :=
  ∀ (s : State) (safe : Bool) (n b c : Nat), ReadyTables s → BitsOk s.xl.toNat safe → s.add ≠ 0 →
    SearchFinds s safe true n 0 b c → 68 * (n + 1) + 66 * b ≤ s.pace →
    ∃ c' ms dl d, exec (.probprimedh safe) s =
      .next { afterCalls (ended s 0 (BitVec.ofNat 32 c) 0 0 false) (3 * (n + 1)) with
        cand := c', mods := ms, delta := dl, div := d }

/-- 45 R215, R218: GENPRIME returns the first candidate of its searches whose verifications pass, `p` and in safe mode
`(p - 1)/2`, `checks` rounds each, on the words the source gives. A candidate with a round that fails is refused and the
search starts again from `top` on the next words: `m` candidates are. A verification whose draw exhausts ends the command
with PrimalityInconclusive. `w` composed words are taken in all, and the engine's turn reaches the end (log 4). -/
def Obligations.GenprimeReturnsAVerifiedCandidate : Prop :=
  ∀ (s : State) (safe : Bool) (m j t n k c w : Nat), ReadyTables s → BitsOk s.xl.toNat safe → s.checks ≠ 0 →
    s.params.selfExempt = false →
    CandidatesFail s safe (s.add != 0) m 0 j t → SearchFinds s safe (s.add != 0) n j k c →
    t + 68 * (n + 1) + 66 * k + (m + 1) * (136 + 64 * s.checks.toNat) + w ≤ s.pace →
    (CandidatePasses s safe c (j + n + 1) w → ∃ c' ms dl d e dw mw,
      exec (.genprime safe) s = .next { afterCalls (ended s 0 (BitVec.ofNat 32 c) 0 0 false) (3 * w) with
        cand := c', mods := ms, delta := dl, div := d, exp := e, draw := dw, mr := mw }) ∧
    (CandidateInconclusive s safe c (j + n + 1) w → ∃ c' ms dl d e dw mw,
      exec (.genprime safe) s = .next { afterCalls (failed s 5) (3 * w) with
        cand := c', mods := ms, delta := dl, div := d, exp := e, draw := dw, mr := mw })

/-- 45 R202, R203, R211, R215, 44 R176 and 60 R275: the requests refused with InvalidParameter before any random word is
drawn. -/
def Obligations.BadRequestsAreRefused : Prop :=
  ∀ (s : State) (safe : Bool), Ready s →
    (¬ BitsOk s.xl.toNat safe →
      exec (.probprime safe) s = .next (failed s 1) ∧ exec (.probprimedh safe) s = .next (failed s 1) ∧
      exec (.genprime safe) s = .next (failed s 1)) ∧
    (s.add = 0 → exec (.probprimedh safe) s = .next (failed s 1)) ∧
    (s.checks = 0 → exec (.genprime safe) s = .next (failed s 1)) ∧
    (s.checks = 0 → ∃ w, exec .isprime s = .next { failed s 1 with mr := w })

/-- 45 R210, R211, R216: whatever the random words were, and over however many steps the search has run, a result that
PROBPRIME, PROBPRIMEDH or GENPRIME leaves without error has exactly `bits` bits, no factor in the table, and its
class. -/
def Obligations.SearchResultsAreClean : Prop :=
  ∀ (s t : State) (i : Instr), IsSearch i → s.params.selfExempt = false → t.busy = false → t.err = 0 → Inv s →
    (s.busy = true → s.running = some i → NoReset s → step s = .next t → ResultClean i s t.pl.toNat) ∧
    (s.busy = false → exec i { s with cmd := encode i } = .next t → ResultClean i s t.pl.toNat)

/-- 45 R214: requests of at most 8 bits, or 9 in safe mode, pass the preconditions and never end: no step ends them but
the reset input. -/
def Obligations.SmallRequestsNeverEnd : Prop :=
  ∀ (s t : State) (i : Instr), IsSearch i → s.params.selfExempt = false → Inv s →
    RequestOk i s → s.xl.toNat ≤ (if safeFlag i then 9 else 8) →
    (s.busy = true → s.running = some i → NoReset s → step s = .next t →
      t.busy = true ∧ t.running = some i ∧ t.xl = s.xl ∧ RequestOk i t) ∧
    (s.busy = false → Ready s → exec i { s with cmd := encode i } = .next t →
      t.busy = true ∧ t.running = some i ∧ t.xl = s.xl ∧ RequestOk i t)

/-! ### Setup and system -/

/-- 46 R232, 10 R33: INITSP fills the table with the first 64 primes and sets ISP, also before setup. -/
def Obligations.InitspFillsTheSmallPrimeTable : Prop :=
  decode 0x00000060#32 = some .initsp ∧ ∀ s, ∃ ps : List SmallWord,
    exec .initsp s = .next { ended s 0 0 0 0 false with sp := ps, isp := true } ∧
    ps.length = 64 ∧ ∀ i < 64, (ps.getD i 0).toNat = Nat.nth Nat.Prime i

/-- 46 R233: INITPT fills the power table and sets IPT, also before setup. The content `2^i` is an assumption that the spec
marks as its own (10 R34; log 12). -/
def Obligations.InitptFillsThePowerTable : Prop :=
  decode 0x00000061#32 = some .initpt ∧ ∀ s, ∃ ps : List Word32,
    exec .initpt s = .next { ended s 0 0 0 0 false with pow2 := ps, ipt := true } ∧
    ps.length = 32 ∧ ∀ i < 32, (ps.getD i 0).toNat = 2 ^ i

/-- 46 R231: NOP clears the results and the error of the previous command. -/
def Obligations.NopClearsResults : Prop :=
  decode 0x00000000#32 = some .nop ∧ ∀ s, exec .nop s = .next (ended s 0 0 0 0 false)

/-- 60 R274: every command but the four exempt ones is refused with NotInitialised unless both flags are 1, before any
operand is read or any random word drawn; the exempt ones never are. -/
def Obligations.CommandsBeforeSetupAreRefused : Prop :=
  ∀ (s : State) (i : Instr),
    (¬ IsExempt i → ¬ Ready s → exec i s = .next (failed s 7)) ∧
    (IsExempt i → ∃ t, exec i s = .next t ∧ t.busy = false ∧ t.err = 0)

/-! ### What every command leaves and writes -/

/-- 10 R22, 70 R303: no command writes an operand register, CHECKS or CMD, whatever its outcome, neither in the step that
starts it nor in one that goes on with it; only INITSP and INITPT write the tables and their flags. -/
def Obligations.OperandsAndTablesAreKept : Prop :=
  (∀ (s t : State) (i : Instr), exec i s = .next t →
    hostRegs t = hostRegs s ∧
    (i ≠ .initsp → t.isp = s.isp ∧ t.sp = s.sp) ∧ (i ≠ .initpt → t.ipt = s.ipt ∧ t.pow2 = s.pow2) ∧
    t.hostQueue = s.hostQueue ∧ t.hostOut = s.hostOut ∧ t.params = s.params) ∧
  (∀ s t : State, engineTurn s = .next t →
    hostRegs t = hostRegs s ∧ t.isp = s.isp ∧ t.sp = s.sp ∧ t.ipt = s.ipt ∧ t.pow2 = s.pow2 ∧
    t.hostQueue = s.hostQueue ∧ t.hostOut = s.hostOut ∧ t.params = s.params)

/-- 60 R270 to R279: which command can end with which error, and no partial result with any of them, in the step that
starts it and in a later one; code 4 and the codes from 8 on are never written. -/
def Obligations.ErrorsAreThoseOfTheCommand : Prop :=
  ∀ (s t : State) (i : Instr), t.busy = false →
    (exec i s = .next t → EndsProperly i (Ready s) t) ∧
    (Inv s → s.busy = true → s.running = some i → engineTurn s = .next t → EndsProperly i (Ready s) t)

/-- 10 R31: C is left 1 by the adds and subtracts only; a command that ends in a later step leaves C = 0. -/
def Obligations.CarryComesFromAddAndSubtractOnly : Prop :=
  (∀ (s t : State) (i : Instr), exec i s = .next t → t.busy = false → t.carry = true →
    i = .add32 ∨ i = .sub32 ∨ i = .add64 ∨ i = .sub64) ∧
  (∀ s t : State, s.busy = true → engineTurn s = .next t → t.busy = false → t.carry = false)

/-- 43 R167: which commands call the random source, and that the calls come by threes, in order, in the step that starts a
command and in a later one. -/
def Obligations.RandomWordsComeByThrees : Prop :=
  (∀ (s t : State) (i : Instr), exec i s = .next t →
    (¬ Draws i → t.rngIn = s.rngIn ∧ t.rngCalls = s.rngCalls) ∧
    (i ≠ .seedrng → t.rngSeeds = s.rngSeeds) ∧
    ∃ n, t.rngCalls = s.rngCalls + 3 * n ∧ t.rngIn = s.rngIn.drop (3 * n)) ∧
  (∀ s t : State, engineTurn s = .next t →
    t.rngSeeds = s.rngSeeds ∧ ∃ n, t.rngCalls = s.rngCalls + 3 * n ∧ t.rngIn = s.rngIn.drop (3 * n)) ∧
  (∀ (s : State) (i : Instr), Inv s → s.busy = true → s.running = some i → Draws i)

/-- 10 R35, R36, 70 R303: the candidate state, the working registers, and the results and error of the command before
carry nothing into a command: states that differ in them alone give outcomes that the host cannot tell apart. So
nothing rests on the values that logs 1 and 8 name. -/
def Obligations.WorkingStateCarriesNothing : Prop :=
  ∀ (s s' t : State) (i : Instr), carried s = carried s' → exec i s = .next t →
    ∃ t', exec i s' = .next t' ∧ t'.busy = t.busy ∧ (t.busy = false → outside t' = outside t)

/-! ### The host port -/

/-- 20 R57, 10 R29: while BUSY = 1 a host write at any index, CMD included, is ignored: the step is the one in which the
host makes no access, and no register that the host writes changes. -/
def Obligations.WritesWhileBusyAreIgnored : Prop :=
  ∀ (s : State) (idx : RegIndex) (v : Word32) (rest : List HostAction), s.busy = true →
    step { s with hostQueue := .write idx v :: rest } = step { s with hostQueue := .pass :: rest } ∧
    ∀ t, step { s with hostQueue := .write idx v :: rest } = .next t → hostRegs t = hostRegs s

/-- 20 R57: what a host read gives while BUSY = 1, before the engine goes on: indices 0 to 7 and 12 their content;
STATUS with BUSY = 1, DONE = 0, ISP and IPT valid and its reserved bits 0; 14 and 15 read 0. Nothing is said of PH, PL,
QH, QL, C and ERR. -/
def Obligations.ReadsWhileBusy : Prop :=
  ∀ (s : State) (idx : RegIndex) (rest : List HostAction), s.busy = true →
    ∃ v n, step { s with hostQueue := .read idx :: rest } =
        engineTurn { s with hostQueue := rest, hostOut := s.hostOut ++ [v], freeReads := n } ∧
      (idx.toNat < 8 → v = [s.xh, s.xl, s.yh, s.yl, s.m, s.add, s.rem, s.checks].getD idx.toNat 0) ∧
      (idx.toNat = 12 → v = s.cmd) ∧
      (idx.toNat = 13 → v.getLsbD 0 = true ∧ v.getLsbD 1 = false ∧ v.getLsbD 3 = s.isp ∧ v.getLsbD 4 = s.ipt ∧
        v.toNat / 2 ^ 5 % 2 ^ 3 = 0 ∧ v.toNat / 2 ^ 12 = 0) ∧
      (14 ≤ idx.toNat → v = 0)

/-- 20 R56, 10 R20, R28: a host read while BUSY = 0 gives the register and changes nothing; STATUS has its fields at
their bits. 70 R312: with nothing for the host to do the block stays as it is. -/
def Obligations.ReadsWhileIdle : Prop :=
  (∀ (s : State) (idx : RegIndex) (rest : List HostAction), s.busy = false →
    let status := BitVec.ofNat 32
      (2 * s.done.toNat + 4 * s.carry.toNat + 8 * s.isp.toNat + 16 * s.ipt.toNat + 256 * s.err.toNat)
    step { s with hostQueue := .read idx :: rest } = .next { s with
      hostQueue := rest
      hostOut := s.hostOut ++ [[s.xh, s.xl, s.yh, s.yl, s.m, s.add, s.rem, s.checks, s.ph, s.pl, s.qh, s.ql,
        s.cmd, status, 0, 0].getD idx.toNat 0] }) ∧
  (∀ s : State, s.busy = false → s.hostQueue = [] → step s = .next s)

/-- 20 R56: a host write while BUSY = 0 to indices 0 to 7 stores the value and does nothing else; to 8 to 11 and 13 to 15
it is ignored. -/
def Obligations.WritesWhileIdle : Prop :=
  ∀ (s : State) (v : Word32) (rest : List HostAction), s.busy = false →
    let after (idx : RegIndex) := step { s with hostQueue := .write idx v :: rest }
    after 0 = .next { s with hostQueue := rest, xh := v } ∧ after 1 = .next { s with hostQueue := rest, xl := v } ∧
    after 2 = .next { s with hostQueue := rest, yh := v } ∧ after 3 = .next { s with hostQueue := rest, yl := v } ∧
    after 4 = .next { s with hostQueue := rest, m := v } ∧ after 5 = .next { s with hostQueue := rest, add := v } ∧
    after 6 = .next { s with hostQueue := rest, rem := v } ∧
    after 7 = .next { s with hostQueue := rest, checks := v } ∧
    ∀ idx : RegIndex, 8 ≤ idx.toNat → idx.toNat ≠ 12 → after idx = .next { s with hostQueue := rest }

/-- 70 R300, R301: the reset input, in any state, BUSY or not, puts the registers and STATUS to 0 and the sequencer to
IDLE; the random source is not reset. That the input is a host action, and that the host's queue, its record and the
parameters stay, is the model's choice (log 13). -/
def Obligations.ResetFromAnyState : Prop :=
  ∀ (s : State) (rest : List HostAction), ∃ t,
    step { s with hostQueue := .reset :: rest } = .next t ∧
    hostRegs t = List.replicate 9 0 ∧ t.ph = 0 ∧ t.pl = 0 ∧ t.qh = 0 ∧ t.ql = 0 ∧
    t.busy = false ∧ t.done = false ∧ t.carry = false ∧ t.isp = false ∧ t.ipt = false ∧ t.err = 0 ∧
    t.seq = .idle ∧ t.rngIn = s.rngIn ∧ t.rngCalls = s.rngCalls ∧ t.rngSeeds = s.rngSeeds ∧
    t.hostQueue = rest ∧ t.hostOut = s.hostOut ∧ t.params = s.params

/-! ### The machine -/

/-- 70 R301: after reset the invariant holds. -/
def Obligations.ResetSatisfiesTheInvariant : Prop := Inv State.reset

/-- 10 R28 to R36, 44 R186, 45 R208 to R218: every step keeps the invariant: the tables' content, the error codes, BUSY
and IDLE, the sequencer in a state of the command in CMD, `mods[i]` the residue of the candidate, `delta` within
MAXDELTA, the candidate in its class, the round's base and running value. -/
def Obligations.EveryStepKeepsTheInvariant : Prop :=
  ∀ s t : State, Inv s → step s = .next t → Inv t

/-- 60 R280: from a state with the invariant no step stops the machine: the divider is never driven with divisor 0 and
the sequencer is never in a foreign state. -/
def Obligations.NoStepStopsTheMachine : Prop :=
  ∀ s : State, Inv s → ∃ t, step s = .next t
end

