-- ==== Sys2Proof/Laws/Datapath.lean ====
section
/-! SUPPORT. What the functional units compute, as numbers: limbs, the carry and borrow forms, shifts, the half-word
multiplier, the bit length and the shift-subtract divider. -/

namespace Sys2Proof.Laws

open Sys2Proof.Machine

/-! ### Limbs -/

@[simp] theorem joinLimbs_toNat (hi lo : Word32) : (joinLimbs hi lo).toNat = hi.toNat * 2 ^ 32 + lo.toNat := by
  have h := lo.isLt
  rw [joinLimbs, BitVec.toNat_append, Nat.shiftLeft_eq, Nat.mul_comm, Nat.two_pow_add_eq_or_of_lt h]

@[simp] theorem loLimb_toNat (v : Word64) : (loLimb v).toNat = v.toNat % 2 ^ 32 := by simp [loLimb]

@[simp] theorem hiLimb_toNat (v : Word64) : (hiLimb v).toNat = v.toNat / 2 ^ 32 := by
  have h := v.isLt
  simp [hiLimb, Nat.shiftRight_eq_div_pow]
  omega

@[simp] theorem zext64_toNat (v : Word32) : (zext64 v).toNat = v.toNat := by
  have h := v.isLt
  simp [zext64]
  omega

@[simp] theorem zextSmall_toNat (v : SmallWord) : (zextSmall v).toNat = v.toNat := by
  have h := v.isLt
  simp [zextSmall]
  omega

@[simp] theorem loLimb_joinLimbs (hi lo : Word32) : loLimb (joinLimbs hi lo) = lo := by
  have h := lo.isLt
  apply BitVec.eq_of_toNat_eq
  simp only [loLimb_toNat, joinLimbs_toNat]
  omega

@[simp] theorem hiLimb_joinLimbs (hi lo : Word32) : hiLimb (joinLimbs hi lo) = hi := by
  have h := lo.isLt
  have h' := hi.isLt
  apply BitVec.eq_of_toNat_eq
  simp only [hiLimb_toNat, joinLimbs_toNat]
  omega

/-! ### Carry and borrow -/

theorem carryIn_toNat (c : Bool) : (carryIn c).toNat = c.toNat := by cases c <;> rfl

/-- The complement form of the carry is the carry: sum and carry together are the exact sum (40 R102). -/
theorem addWithCarry_exact (a b : Word32) :
    (addWithCarry a b).1.toNat + 2 ^ 32 * (addWithCarry a b).2.toNat = a.toNat + b.toNat := by
  have ha := a.isLt
  have hb := b.isLt
  simp only [addWithCarry, BitVec.toNat_add, BitVec.lt_def, BitVec.toNat_not]
  by_cases h : 2 ^ 32 - 1 - a.toNat < b.toNat <;>
    simp only [h, decide_true, decide_false, Bool.toNat_true, Bool.toNat_false] <;> omega

/-- The two-add form of the borrow is the borrow (40 R103). -/
theorem subWithBorrow_exact (a b : Word32) :
    (subWithBorrow a b).1.toNat + b.toNat = a.toNat + 2 ^ 32 * (subWithBorrow a b).2.toNat := by
  have ha := a.isLt
  have hb := b.isLt
  have h1 := addWithCarry_exact (~~~b) 1
  have h2 := addWithCarry_exact a (addWithCarry (~~~b) 1).1
  have l1 := (addWithCarry (~~~b) 1).1.isLt
  have l2 := (addWithCarry a (addWithCarry (~~~b) 1).1).1.isLt
  have one : (1 : Word32).toNat = 1 := rfl
  simp only [BitVec.toNat_not, one] at h1
  simp only [subWithBorrow]
  cases e1 : (addWithCarry (~~~b) 1).2 <;> cases e2 : (addWithCarry a (addWithCarry (~~~b) 1).1).2 <;>
    simp only [e1, e2, Bool.toNat_false, Bool.toNat_true, Bool.or_false, Bool.or_true, Bool.not_false, Bool.not_true]
      at * <;> omega

/-- The limb-by-limb sum and its carry are the exact sum (41 R123). -/
theorem addWithCarry64_exact (a b : Word64) :
    (addWithCarry64 a b).1.toNat + 2 ^ 64 * (addWithCarry64 a b).2.toNat = a.toNat + b.toNat := by
  have ha := a.isLt
  have hb := b.isLt
  have h1 := addWithCarry_exact (loLimb a) (loLimb b)
  have h2 := addWithCarry_exact (hiLimb a) (hiLimb b)
  have h3 := addWithCarry_exact (addWithCarry (hiLimb a) (hiLimb b)).1
    (carryIn (addWithCarry (loLimb a) (loLimb b)).2)
  have l1 := (addWithCarry (hiLimb a) (hiLimb b)).1.isLt
  simp only [loLimb_toNat, hiLimb_toNat, carryIn_toNat] at h1 h2 h3
  simp only [addWithCarry64, joinLimbs_toNat]
  generalize (addWithCarry (addWithCarry (hiLimb a) (hiLimb b)).1
    (carryIn (addWithCarry (loLimb a) (loLimb b)).2)) = r3 at *
  generalize addWithCarry (hiLimb a) (hiLimb b) = r2 at *
  generalize addWithCarry (loLimb a) (loLimb b) = r1 at *
  have l3 := r3.1.isLt
  have l4 := r1.1.isLt
  cases e1 : r1.2 <;> cases e2 : r2.2 <;> cases e3 : r3.2 <;>
    simp only [e1, e2, e3, Bool.toNat_false, Bool.toNat_true, Bool.or_false, Bool.or_true] at * <;> omega

/-- The limb-by-limb difference and its borrow are exact (41 R123). -/
theorem subWithBorrow64_exact (a b : Word64) :
    (subWithBorrow64 a b).1.toNat + b.toNat = a.toNat + 2 ^ 64 * (subWithBorrow64 a b).2.toNat := by
  have ha := a.isLt
  have hb := b.isLt
  have h1 := subWithBorrow_exact (loLimb a) (loLimb b)
  have h2 := subWithBorrow_exact (hiLimb a) (hiLimb b)
  have h3 := subWithBorrow_exact (subWithBorrow (hiLimb a) (hiLimb b)).1
    (carryIn (subWithBorrow (loLimb a) (loLimb b)).2)
  have l1 := (subWithBorrow (hiLimb a) (hiLimb b)).1.isLt
  simp only [loLimb_toNat, hiLimb_toNat, carryIn_toNat] at h1 h2 h3
  simp only [subWithBorrow64, joinLimbs_toNat]
  generalize (subWithBorrow (subWithBorrow (hiLimb a) (hiLimb b)).1
    (carryIn (subWithBorrow (loLimb a) (loLimb b)).2)) = r3 at *
  generalize subWithBorrow (hiLimb a) (hiLimb b) = r2 at *
  generalize subWithBorrow (loLimb a) (loLimb b) = r1 at *
  have l3 := r3.1.isLt
  have l4 := r1.1.isLt
  cases e1 : r1.2 <;> cases e2 : r2.2 <;> cases e3 : r3.2 <;>
    simp only [e1, e2, e3, Bool.toNat_false, Bool.toNat_true, Bool.or_false, Bool.or_true] at * <;> omega

/-! ### Shifts -/

/-- 40 R105. -/
theorem srl32_toNat (v : Word32) (n : Nat) : (srl32 v n).toNat = v.toNat / 2 ^ n := by
  have hv := v.isLt
  unfold srl32
  split
  · rename_i h
    have := Nat.pow_le_pow_right (n := 2) (by omega) h
    rw [Nat.div_eq_of_lt (by omega)]
    rfl
  · simp [Nat.shiftRight_eq_div_pow]

/-- 40 R106. -/
theorem sll32_toNat (v : Word32) (n : Nat) : (sll32 v n).toNat = v.toNat * 2 ^ n % 2 ^ 32 := by
  unfold sll32
  split
  · rename_i h
    obtain ⟨k, rfl⟩ := Nat.exists_eq_add_of_le h
    rw [Nat.pow_add, ← Nat.mul_assoc, Nat.mul_right_comm, Nat.mul_mod_left]
    rfl
  · simp [Nat.shiftLeft_eq]

/-! ### The multiplier -/

/-- The half-word datapath with its two stages of carries gives the exact product (40 R107). -/
theorem mul32_toNat (a b : Word32) : (mul32 a b).toNat = a.toNat * b.toNat := by
  have ha := a.isLt
  have hb := b.isLt
  have mask : ∀ v : Word32, (v &&& 0xFFFF#32).toNat = v.toNat % 2 ^ 16 := fun v => by
    simp only [BitVec.toNat_and]
    exact Nat.and_two_pow_sub_one_eq_mod v.toNat 16
  have shr : ∀ v : Word32, (v >>> 16).toNat = v.toNat / 2 ^ 16 := fun v => by
    simp [Nat.shiftRight_eq_div_pow]
  have shl : ∀ v : Word32, (v <<< 16).toNat = v.toNat * 2 ^ 16 % 2 ^ 32 := fun v => by
    simp [Nat.shiftLeft_eq]
  have h16 : ∀ x y : Nat, x < 2 ^ 16 → y < 2 ^ 16 → x * y ≤ (2 ^ 16 - 1) * (2 ^ 16 - 1) := fun x y hx hy =>
    Nat.mul_le_mul (by omega) (by omega)
  have hal : a.toNat % 2 ^ 16 < 2 ^ 16 := Nat.mod_lt _ (by decide)
  have hbl : b.toNat % 2 ^ 16 < 2 ^ 16 := Nat.mod_lt _ (by decide)
  have hah : a.toNat / 2 ^ 16 < 2 ^ 16 := by omega
  have hbh : b.toNat / 2 ^ 16 < 2 ^ 16 := by omega
  have prod : a.toNat * b.toNat =
      (a.toNat / 2 ^ 16) * (b.toNat / 2 ^ 16) * 2 ^ 32 +
      ((a.toNat / 2 ^ 16) * (b.toNat % 2 ^ 16) + (a.toNat % 2 ^ 16) * (b.toNat / 2 ^ 16)) * 2 ^ 16 +
      (a.toNat % 2 ^ 16) * (b.toNat % 2 ^ 16) := by
    conv_lhs => rw [← Nat.div_add_mod a.toNat (2 ^ 16), ← Nat.div_add_mod b.toNat (2 ^ 16)]
    ring
  have lll := h16 _ _ hal hbl
  have lm1 := h16 _ _ hah hbl
  have lm2 := h16 _ _ hal hbh
  have lhh := h16 _ _ hah hbh
  have e1 := addWithCarry_exact ((a &&& 0xFFFF#32) * (b &&& 0xFFFF#32)) (((a >>> 16) * (b &&& 0xFFFF#32)) <<< 16)
  have e2 := addWithCarry_exact
    (addWithCarry ((a &&& 0xFFFF#32) * (b &&& 0xFFFF#32)) (((a >>> 16) * (b &&& 0xFFFF#32)) <<< 16)).1
    (((a &&& 0xFFFF#32) * (b >>> 16)) <<< 16)
  have p1 : ∀ x y : Word32, x.toNat * y.toNat ≤ (2 ^ 16 - 1) * (2 ^ 16 - 1) →
      (x * y).toNat = x.toNat * y.toNat := fun x y h => by
    rw [BitVec.toNat_mul, Nat.mod_eq_of_lt (by omega)]
  have q1 := p1 (a &&& 0xFFFF#32) (b &&& 0xFFFF#32) (by rw [mask, mask]; exact lll)
  have q2 := p1 (a >>> 16) (b &&& 0xFFFF#32) (by rw [mask, shr]; exact lm1)
  have q3 := p1 (a &&& 0xFFFF#32) (b >>> 16) (by rw [mask, shr]; exact lm2)
  have q4 := p1 (a >>> 16) (b >>> 16) (by rw [shr, shr]; exact lhh)
  simp only [mask, shr] at q1 q2 q3 q4
  have ub : a.toNat * b.toNat < 2 ^ 64 := lt_of_le_of_lt
    (Nat.mul_le_mul (Nat.le_sub_one_of_lt ha) (Nat.le_sub_one_of_lt hb)) (by decide)
  simp only [mul32, joinLimbs_toNat, BitVec.toNat_add, carryIn_toNat, shr, q4, q2, q3]
  simp only [shl, q1, q2, q3] at e1 e2
  rw [prod] at ub ⊢
  generalize addWithCarry (addWithCarry ((a &&& 0xFFFF#32) * (b &&& 0xFFFF#32))
    (((a >>> 16) * (b &&& 0xFFFF#32)) <<< 16)).1 (((a &&& 0xFFFF#32) * (b >>> 16)) <<< 16) = r2 at *
  generalize addWithCarry ((a &&& 0xFFFF#32) * (b &&& 0xFFFF#32)) (((a >>> 16) * (b &&& 0xFFFF#32)) <<< 16) = r1 at *
  have b1 := r1.1.isLt
  have b2 := r2.1.isLt
  have c1 : r1.2.toNat ≤ 1 := Bool.toNat_le r1.2
  have c2 : r2.2.toNat ≤ 1 := Bool.toNat_le r2.2
  generalize (a.toNat / 2 ^ 16) * (b.toNat / 2 ^ 16) = hh at *
  generalize (a.toNat / 2 ^ 16) * (b.toNat % 2 ^ 16) = m1 at *
  generalize (a.toNat % 2 ^ 16) * (b.toNat / 2 ^ 16) = m2 at *
  generalize (a.toNat % 2 ^ 16) * (b.toNat % 2 ^ 16) = ll at *
  omega

/-! ### The bit length -/

theorem ushiftRight_eq_zero_iff {w : Nat} (v : BitVec w) (n : Nat) : v >>> n = 0#w ↔ v.toNat < 2 ^ n := by
  rw [← BitVec.toNat_inj]
  simp [Nat.shiftRight_eq_div_pow, Nat.div_eq_zero_iff]

theorem bitLenFrom_eq {w : Nat} (v : BitVec w) (fuel n : Nat) (h1 : n ≤ Nat.size v.toNat)
    (h2 : Nat.size v.toNat ≤ n + fuel) : bitLenFrom v fuel n = Nat.size v.toNat := by
  induction fuel generalizing n with
  | zero => simp only [bitLenFrom]; omega
  | succ fuel ih =>
    unfold bitLenFrom
    split
    · rename_i h
      have := Nat.size_le.mpr ((ushiftRight_eq_zero_iff v n).mp h)
      omega
    · rename_i h
      rw [ushiftRight_eq_zero_iff, ← Nat.size_le] at h
      exact ih (n + 1) (by omega) (by omega)

/-- The loop gives the length in binary (40 R108, 41 R128). -/
theorem bitLen_eq_size {w : Nat} (v : BitVec w) : bitLen v = Nat.size v.toNat :=
  bitLenFrom_eq v w 0 (Nat.zero_le _) (by simpa using Nat.size_le.mpr v.isLt)

/-! ### The divider -/

/-- One round, on the numbers: with `D` the round's divisor and `A = q * 2D + r`, `r < 2D` before it, `A = q * D + r` and
`r < D` after it. -/
theorem divRound_spec (t : DivWork) (A : Nat) (hq : t.q.toNat < 2 ^ 63)
    (hA : A = t.q.toNat * (2 * t.d.toNat) + t.r.toNat) (hr : t.r.toNat < 2 * t.d.toNat) :
    (divRound t).d.toNat = t.d.toNat / 2 ∧ A = (divRound t).q.toNat * t.d.toNat + (divRound t).r.toNat ∧
    (divRound t).r.toNat < t.d.toNat ∧ (divRound t).rounds = t.rounds + 1 := by
  have hd2 : (t.d >>> 1).toNat = t.d.toNat / 2 := by
    rw [BitVec.toNat_ushiftRight, Nat.shiftRight_eq_div_pow, Nat.pow_one]
  have hq2 : (t.q <<< 1).toNat = t.q.toNat * 2 := by
    simp only [BitVec.toNat_shiftLeft, Nat.shiftLeft_eq]
    omega
  have hq3 : (t.q <<< 1 ||| 1#64).toNat = t.q.toNat * 2 + 1 := by
    rw [BitVec.toNat_or, hq2, Nat.mul_comm]
    exact (Nat.two_pow_add_eq_or_of_lt (i := 1) (b := 1) (by decide) t.q.toNat).symm
  have hm : t.q.toNat * (2 * t.d.toNat) = t.q.toNat * 2 * t.d.toNat := by rw [Nat.mul_assoc]
  unfold divRound
  split
  · rename_i h
    have h' : t.d.toNat ≤ t.r.toNat := h
    have hs : (t.r - t.d).toNat = t.r.toNat - t.d.toNat := BitVec.toNat_sub_of_le h
    refine ⟨hd2, ?_, ?_, rfl⟩
    · simp only [hq3, hs, Nat.add_mul]
      omega
    · simp only [hs]
      omega
  · rename_i h
    have h' : ¬ t.d.toNat ≤ t.r.toNat := h
    refine ⟨hd2, ?_, ?_, rfl⟩
    · simp only [hq2]
      omega
    · exact Nat.lt_of_not_le h'

/-- `n + 1` rounds from the divisor `b * 2^n` leave quotient and remainder by `b`. -/
theorem divRounds_spec (b A n : Nat) (hb : 0 < b) (hA64 : A < 2 ^ 64) (t : DivWork) (hd : t.d.toNat = b * 2 ^ n)
    (hA : A = t.q.toNat * (2 * t.d.toNat) + t.r.toNat) (hr : t.r.toNat < 2 * t.d.toNat) :
    A = (divRounds (n + 1) t).q.toNat * b + (divRounds (n + 1) t).r.toNat ∧
    (divRounds (n + 1) t).r.toNat < b ∧ (divRounds (n + 1) t).rounds = t.rounds + (n + 1) := by
  have hpos : 0 < t.d.toNat := by rw [hd]; positivity
  have hq : t.q.toNat < 2 ^ 63 := by
    have : t.q.toNat * 2 ≤ t.q.toNat * (2 * t.d.toNat) := Nat.mul_le_mul_left _ (by omega)
    omega
  obtain ⟨h1, h2, h3, h4⟩ := divRound_spec t A hq hA hr
  induction n generalizing t with
  | zero =>
    simp only [Nat.pow_zero, Nat.mul_one] at hd
    simp only [divRounds]
    rw [← hd]
    exact ⟨h2, h3, h4⟩
  | succ n ih =>
    have hd' : (divRound t).d.toNat = b * 2 ^ n := by
      rw [h1, hd, Nat.pow_succ, ← Nat.mul_assoc, Nat.mul_div_cancel _ (by decide)]
    have hdd : t.d.toNat = 2 * (divRound t).d.toNat := by
      rw [hd', hd, Nat.pow_succ]
      ring
    have hA' : A = (divRound t).q.toNat * (2 * (divRound t).d.toNat) + (divRound t).r.toNat := by rw [← hdd]; exact h2
    have hr' : (divRound t).r.toNat < 2 * (divRound t).d.toNat := by rw [← hdd]; exact h3
    have hpos' : 0 < (divRound t).d.toNat := by rw [hd']; positivity
    have hq' : (divRound t).q.toNat < 2 ^ 63 := by
      have : (divRound t).q.toNat * 2 ≤ (divRound t).q.toNat * (2 * (divRound t).d.toNat) :=
        Nat.mul_le_mul_left _ (by omega)
      omega
    obtain ⟨k1, k2, k3, k4⟩ := divRound_spec (divRound t) A hq' hA' hr'
    have := ih (divRound t) hd' hA' hr' hpos' hq' k1 k2 k3 k4
    rw [h4] at this
    exact ⟨this.1, this.2.1, by rw [divRounds]; omega⟩

/-- The divider gives quotient and remainder in the stated number of rounds (41 R129). -/
theorem divRem64_spec (a b : Word64) (h : b ≠ 0#64) :
    (divRem64 a b h).q.toNat = a.toNat / b.toNat ∧ (divRem64 a b h).r.toNat = a.toNat % b.toNat ∧
    (divRem64 a b h).rounds = Nat.size a.toNat + 1 - Nat.size b.toNat := by
  have hb : 0 < b.toNat := Nat.pos_of_ne_zero fun e => h (BitVec.eq_of_toNat_eq (by simpa using e))
  have ha := a.isLt
  unfold divRem64
  simp only [bitLen_eq_size]
  by_cases hlt : Nat.size a.toNat < Nat.size b.toNat
  · have hab : a.toNat < b.toNat := by
      by_contra hc
      exact absurd (Nat.size_le_size (Nat.le_of_not_lt hc)) (by omega)
    simp only [hlt, if_true, divRounds]
    refine ⟨?_, ?_, ?_⟩
    · rw [Nat.div_eq_of_lt hab]
      rfl
    · rw [Nat.mod_eq_of_lt hab]
    · omega
  · simp only [hlt, if_false]
    have hsa : a.toNat < 2 ^ Nat.size a.toNat := Nat.lt_size_self _
    have hsb : b.toNat < 2 ^ Nat.size b.toNat := Nat.lt_size_self _
    have hs64 : Nat.size a.toNat ≤ 64 := Nat.size_le.mpr ha
    have hsb0 : 0 < Nat.size b.toNat := Nat.size_pos.mpr hb
    have hbl : 2 ^ (Nat.size b.toNat - 1) ≤ b.toNat := by
      by_contra hc
      have := Nat.size_le.mpr (Nat.lt_of_not_le hc)
      omega
    generalize hk : Nat.size a.toNat - Nat.size b.toNat = k
    have hpow : 2 ^ Nat.size a.toNat = 2 ^ Nat.size b.toNat * 2 ^ k := by
      rw [← Nat.pow_add]
      congr 1
      omega
    have hpow2 : 2 ^ Nat.size b.toNat = 2 * 2 ^ (Nat.size b.toNat - 1) := by
      rw [← Nat.pow_succ']
      congr 1
      omega
    have hfit : b.toNat * 2 ^ k < 2 ^ 64 := by
      have h1 : b.toNat * 2 ^ k < 2 ^ Nat.size b.toNat * 2 ^ k := Nat.mul_lt_mul_of_pos_right hsb (by positivity)
      have h2 : 2 ^ Nat.size a.toNat ≤ 2 ^ 64 := Nat.pow_le_pow_right (by decide) hs64
      omega
    have hd : (b <<< k).toNat = b.toNat * 2 ^ k := by
      rw [BitVec.toNat_shiftLeft, Nat.shiftLeft_eq, Nat.mod_eq_of_lt hfit]
    have hr : a.toNat < 2 * (b <<< k).toNat := by
      have h1 : 2 ^ (Nat.size b.toNat - 1) * 2 ^ k ≤ b.toNat * 2 ^ k := Nat.mul_le_mul_right _ hbl
      rw [hd]
      rw [hpow2, Nat.mul_assoc] at hpow
      omega
    have := divRounds_spec b.toNat a.toNat k hb ha ⟨0#64, a, b <<< k, 0⟩ hd (by simp) hr
    obtain ⟨h1, h2, h3⟩ := this
    generalize divRounds (k + 1) ⟨0#64, a, b <<< k, 0⟩ = w at *
    refine ⟨?_, ?_, ?_⟩
    · rw [h1, Nat.add_comm, Nat.add_mul_div_right _ _ hb, Nat.div_eq_of_lt h2, Nat.zero_add]
    · rw [h1, Nat.add_comm, Nat.add_mul_mod_self_right, Nat.mod_eq_of_lt h2]
    · simp only at h3
      omega

/-- MULMOD is multiplication modulo `p` (42 R141). -/
theorem mulMod_toNat (a b p : Word32) (h : p ≠ 0#32) : (mulMod a b p h).toNat = a.toNat * b.toNat % p.toNat := by
  have hp := p.isLt
  have hpos : 0 < p.toNat := Nat.pos_of_ne_zero fun e => h (BitVec.eq_of_toNat_eq (by simpa using e))
  have := Nat.mod_lt (a.toNat * b.toNat) hpos
  rw [mulMod, loLimb_toNat, (divRem64_spec _ _ _).2.1, mul32_toNat, zext64_toNat, Nat.mod_eq_of_lt (by omega)]

end Sys2Proof.Laws
end

