-- ==== Sys2Proof/Laws/State.lean ====
section
/-! SUPPORT. For each update of the state one lemma per field, so that no proof unfolds a record update. -/

namespace Sys2Proof.Laws

open Sys2Proof.Machine

/-! ### `State.start` -/

@[simp] theorem start_xh (s : State) (i : Instr) : (s.start i).xh = s.xh := rfl
@[simp] theorem start_xl (s : State) (i : Instr) : (s.start i).xl = s.xl := rfl
@[simp] theorem start_yh (s : State) (i : Instr) : (s.start i).yh = s.yh := rfl
@[simp] theorem start_yl (s : State) (i : Instr) : (s.start i).yl = s.yl := rfl
@[simp] theorem start_m (s : State) (i : Instr) : (s.start i).m = s.m := rfl
@[simp] theorem start_add (s : State) (i : Instr) : (s.start i).add = s.add := rfl
@[simp] theorem start_rem (s : State) (i : Instr) : (s.start i).rem = s.rem := rfl
@[simp] theorem start_checks (s : State) (i : Instr) : (s.start i).checks = s.checks := rfl
@[simp] theorem start_ph (s : State) (i : Instr) : (s.start i).ph = s.ph := rfl
@[simp] theorem start_pl (s : State) (i : Instr) : (s.start i).pl = s.pl := rfl
@[simp] theorem start_qh (s : State) (i : Instr) : (s.start i).qh = s.qh := rfl
@[simp] theorem start_ql (s : State) (i : Instr) : (s.start i).ql = s.ql := rfl
@[simp] theorem start_cmd (s : State) (i : Instr) : (s.start i).cmd = s.cmd := rfl
@[simp] theorem start_busy (s : State) (i : Instr) : (s.start i).busy = true := rfl
@[simp] theorem start_done (s : State) (i : Instr) : (s.start i).done = false := rfl
@[simp] theorem start_carry (s : State) (i : Instr) : (s.start i).carry = s.carry := rfl
@[simp] theorem start_isp (s : State) (i : Instr) : (s.start i).isp = s.isp := rfl
@[simp] theorem start_ipt (s : State) (i : Instr) : (s.start i).ipt = s.ipt := rfl
@[simp] theorem start_err (s : State) (i : Instr) : (s.start i).err = s.err := rfl
@[simp] theorem start_seq (s : State) (i : Instr) : (s.start i).seq = .exec := rfl
@[simp] theorem start_running (s : State) (i : Instr) : (s.start i).running = some i := rfl
@[simp] theorem start_verify (s : State) (i : Instr) : (s.start i).verify = .none := rfl
@[simp] theorem start_sp (s : State) (i : Instr) : (s.start i).sp = s.sp := rfl
@[simp] theorem start_pow2 (s : State) (i : Instr) : (s.start i).pow2 = s.pow2 := rfl
@[simp] theorem start_mods (s : State) (i : Instr) : (s.start i).mods = s.mods := rfl
@[simp] theorem start_delta (s : State) (i : Instr) : (s.start i).delta = s.delta := rfl
@[simp] theorem start_cand (s : State) (i : Instr) : (s.start i).cand = s.cand := rfl
@[simp] theorem start_div (s : State) (i : Instr) : (s.start i).div = s.div := rfl
@[simp] theorem start_exp (s : State) (i : Instr) : (s.start i).exp = s.exp := rfl
@[simp] theorem start_inv (s : State) (i : Instr) : (s.start i).inv = s.inv := rfl
@[simp] theorem start_draw (s : State) (i : Instr) : (s.start i).draw = s.draw := rfl
@[simp] theorem start_mr (s : State) (i : Instr) : (s.start i).mr = s.mr := rfl
@[simp] theorem start_rngIn (s : State) (i : Instr) : (s.start i).rngIn = s.rngIn := rfl
@[simp] theorem start_rngCalls (s : State) (i : Instr) : (s.start i).rngCalls = s.rngCalls := rfl
@[simp] theorem start_rngSeeds (s : State) (i : Instr) : (s.start i).rngSeeds = s.rngSeeds := rfl
@[simp] theorem start_hostQueue (s : State) (i : Instr) : (s.start i).hostQueue = s.hostQueue := rfl
@[simp] theorem start_hostOut (s : State) (i : Instr) : (s.start i).hostOut = s.hostOut := rfl
@[simp] theorem start_freeReads (s : State) (i : Instr) : (s.start i).freeReads = s.freeReads := rfl
@[simp] theorem start_pace (s : State) (i : Instr) : (s.start i).pace = s.pace := rfl
@[simp] theorem start_params (s : State) (i : Instr) : (s.start i).params = s.params := rfl

/-! ### `State.finish` -/

@[simp] theorem finish_xh (s : State) (ph pl qh ql : Word32) (c : Bool) : (s.finish ph pl qh ql c).xh = s.xh := rfl
@[simp] theorem finish_xl (s : State) (ph pl qh ql : Word32) (c : Bool) : (s.finish ph pl qh ql c).xl = s.xl := rfl
@[simp] theorem finish_yh (s : State) (ph pl qh ql : Word32) (c : Bool) : (s.finish ph pl qh ql c).yh = s.yh := rfl
@[simp] theorem finish_yl (s : State) (ph pl qh ql : Word32) (c : Bool) : (s.finish ph pl qh ql c).yl = s.yl := rfl
@[simp] theorem finish_m (s : State) (ph pl qh ql : Word32) (c : Bool) : (s.finish ph pl qh ql c).m = s.m := rfl
@[simp] theorem finish_add (s : State) (ph pl qh ql : Word32) (c : Bool) : (s.finish ph pl qh ql c).add = s.add := rfl
@[simp] theorem finish_rem (s : State) (ph pl qh ql : Word32) (c : Bool) : (s.finish ph pl qh ql c).rem = s.rem := rfl
@[simp] theorem finish_checks (s : State) (ph pl qh ql : Word32) (c : Bool) : (s.finish ph pl qh ql c).checks = s.checks := rfl
@[simp] theorem finish_ph (s : State) (ph pl qh ql : Word32) (c : Bool) : (s.finish ph pl qh ql c).ph = ph := rfl
@[simp] theorem finish_pl (s : State) (ph pl qh ql : Word32) (c : Bool) : (s.finish ph pl qh ql c).pl = pl := rfl
@[simp] theorem finish_qh (s : State) (ph pl qh ql : Word32) (c : Bool) : (s.finish ph pl qh ql c).qh = qh := rfl
@[simp] theorem finish_ql (s : State) (ph pl qh ql : Word32) (c : Bool) : (s.finish ph pl qh ql c).ql = ql := rfl
@[simp] theorem finish_cmd (s : State) (ph pl qh ql : Word32) (c : Bool) : (s.finish ph pl qh ql c).cmd = s.cmd := rfl
@[simp] theorem finish_busy (s : State) (ph pl qh ql : Word32) (c : Bool) : (s.finish ph pl qh ql c).busy = false := rfl
@[simp] theorem finish_done (s : State) (ph pl qh ql : Word32) (c : Bool) : (s.finish ph pl qh ql c).done = true := rfl
@[simp] theorem finish_carry (s : State) (ph pl qh ql : Word32) (c : Bool) : (s.finish ph pl qh ql c).carry = c := rfl
@[simp] theorem finish_isp (s : State) (ph pl qh ql : Word32) (c : Bool) : (s.finish ph pl qh ql c).isp = s.isp := rfl
@[simp] theorem finish_ipt (s : State) (ph pl qh ql : Word32) (c : Bool) : (s.finish ph pl qh ql c).ipt = s.ipt := rfl
@[simp] theorem finish_err (s : State) (ph pl qh ql : Word32) (c : Bool) : (s.finish ph pl qh ql c).err = 0 := rfl
@[simp] theorem finish_seq (s : State) (ph pl qh ql : Word32) (c : Bool) : (s.finish ph pl qh ql c).seq = .idle := rfl
@[simp] theorem finish_running (s : State) (ph pl qh ql : Word32) (c : Bool) : (s.finish ph pl qh ql c).running = none := rfl
@[simp] theorem finish_verify (s : State) (ph pl qh ql : Word32) (c : Bool) : (s.finish ph pl qh ql c).verify = .none := rfl
@[simp] theorem finish_sp (s : State) (ph pl qh ql : Word32) (c : Bool) : (s.finish ph pl qh ql c).sp = s.sp := rfl
@[simp] theorem finish_pow2 (s : State) (ph pl qh ql : Word32) (c : Bool) : (s.finish ph pl qh ql c).pow2 = s.pow2 := rfl
@[simp] theorem finish_mods (s : State) (ph pl qh ql : Word32) (c : Bool) : (s.finish ph pl qh ql c).mods = s.mods := rfl
@[simp] theorem finish_delta (s : State) (ph pl qh ql : Word32) (c : Bool) : (s.finish ph pl qh ql c).delta = s.delta := rfl
@[simp] theorem finish_cand (s : State) (ph pl qh ql : Word32) (c : Bool) : (s.finish ph pl qh ql c).cand = s.cand := rfl
@[simp] theorem finish_div (s : State) (ph pl qh ql : Word32) (c : Bool) : (s.finish ph pl qh ql c).div = s.div := rfl
@[simp] theorem finish_exp (s : State) (ph pl qh ql : Word32) (c : Bool) : (s.finish ph pl qh ql c).exp = s.exp := rfl
@[simp] theorem finish_inv (s : State) (ph pl qh ql : Word32) (c : Bool) : (s.finish ph pl qh ql c).inv = s.inv := rfl
@[simp] theorem finish_draw (s : State) (ph pl qh ql : Word32) (c : Bool) : (s.finish ph pl qh ql c).draw = s.draw := rfl
@[simp] theorem finish_mr (s : State) (ph pl qh ql : Word32) (c : Bool) : (s.finish ph pl qh ql c).mr = s.mr := rfl
@[simp] theorem finish_rngIn (s : State) (ph pl qh ql : Word32) (c : Bool) : (s.finish ph pl qh ql c).rngIn = s.rngIn := rfl
@[simp] theorem finish_rngCalls (s : State) (ph pl qh ql : Word32) (c : Bool) : (s.finish ph pl qh ql c).rngCalls = s.rngCalls := rfl
@[simp] theorem finish_rngSeeds (s : State) (ph pl qh ql : Word32) (c : Bool) : (s.finish ph pl qh ql c).rngSeeds = s.rngSeeds := rfl
@[simp] theorem finish_hostQueue (s : State) (ph pl qh ql : Word32) (c : Bool) : (s.finish ph pl qh ql c).hostQueue = s.hostQueue := rfl
@[simp] theorem finish_hostOut (s : State) (ph pl qh ql : Word32) (c : Bool) : (s.finish ph pl qh ql c).hostOut = s.hostOut := rfl
@[simp] theorem finish_freeReads (s : State) (ph pl qh ql : Word32) (c : Bool) : (s.finish ph pl qh ql c).freeReads = s.freeReads := rfl
@[simp] theorem finish_pace (s : State) (ph pl qh ql : Word32) (c : Bool) : (s.finish ph pl qh ql c).pace = s.pace := rfl
@[simp] theorem finish_params (s : State) (ph pl qh ql : Word32) (c : Bool) : (s.finish ph pl qh ql c).params = s.params := rfl

/-! ### `State.raise` -/

@[simp] theorem raise_xh (s : State) (e : ErrKind) : (s.raise e).xh = s.xh := rfl
@[simp] theorem raise_xl (s : State) (e : ErrKind) : (s.raise e).xl = s.xl := rfl
@[simp] theorem raise_yh (s : State) (e : ErrKind) : (s.raise e).yh = s.yh := rfl
@[simp] theorem raise_yl (s : State) (e : ErrKind) : (s.raise e).yl = s.yl := rfl
@[simp] theorem raise_m (s : State) (e : ErrKind) : (s.raise e).m = s.m := rfl
@[simp] theorem raise_add (s : State) (e : ErrKind) : (s.raise e).add = s.add := rfl
@[simp] theorem raise_rem (s : State) (e : ErrKind) : (s.raise e).rem = s.rem := rfl
@[simp] theorem raise_checks (s : State) (e : ErrKind) : (s.raise e).checks = s.checks := rfl
@[simp] theorem raise_ph (s : State) (e : ErrKind) : (s.raise e).ph = 0 := rfl
@[simp] theorem raise_pl (s : State) (e : ErrKind) : (s.raise e).pl = 0 := rfl
@[simp] theorem raise_qh (s : State) (e : ErrKind) : (s.raise e).qh = 0 := rfl
@[simp] theorem raise_ql (s : State) (e : ErrKind) : (s.raise e).ql = 0 := rfl
@[simp] theorem raise_cmd (s : State) (e : ErrKind) : (s.raise e).cmd = s.cmd := rfl
@[simp] theorem raise_busy (s : State) (e : ErrKind) : (s.raise e).busy = false := rfl
@[simp] theorem raise_done (s : State) (e : ErrKind) : (s.raise e).done = true := rfl
@[simp] theorem raise_carry (s : State) (e : ErrKind) : (s.raise e).carry = false := rfl
@[simp] theorem raise_isp (s : State) (e : ErrKind) : (s.raise e).isp = s.isp := rfl
@[simp] theorem raise_ipt (s : State) (e : ErrKind) : (s.raise e).ipt = s.ipt := rfl
@[simp] theorem raise_err (s : State) (e : ErrKind) : (s.raise e).err = e.code := rfl
@[simp] theorem raise_seq (s : State) (e : ErrKind) : (s.raise e).seq = .idle := rfl
@[simp] theorem raise_running (s : State) (e : ErrKind) : (s.raise e).running = none := rfl
@[simp] theorem raise_verify (s : State) (e : ErrKind) : (s.raise e).verify = .none := rfl
@[simp] theorem raise_sp (s : State) (e : ErrKind) : (s.raise e).sp = s.sp := rfl
@[simp] theorem raise_pow2 (s : State) (e : ErrKind) : (s.raise e).pow2 = s.pow2 := rfl
@[simp] theorem raise_mods (s : State) (e : ErrKind) : (s.raise e).mods = s.mods := rfl
@[simp] theorem raise_delta (s : State) (e : ErrKind) : (s.raise e).delta = s.delta := rfl
@[simp] theorem raise_cand (s : State) (e : ErrKind) : (s.raise e).cand = s.cand := rfl
@[simp] theorem raise_div (s : State) (e : ErrKind) : (s.raise e).div = s.div := rfl
@[simp] theorem raise_exp (s : State) (e : ErrKind) : (s.raise e).exp = s.exp := rfl
@[simp] theorem raise_inv (s : State) (e : ErrKind) : (s.raise e).inv = s.inv := rfl
@[simp] theorem raise_draw (s : State) (e : ErrKind) : (s.raise e).draw = s.draw := rfl
@[simp] theorem raise_mr (s : State) (e : ErrKind) : (s.raise e).mr = s.mr := rfl
@[simp] theorem raise_rngIn (s : State) (e : ErrKind) : (s.raise e).rngIn = s.rngIn := rfl
@[simp] theorem raise_rngCalls (s : State) (e : ErrKind) : (s.raise e).rngCalls = s.rngCalls := rfl
@[simp] theorem raise_rngSeeds (s : State) (e : ErrKind) : (s.raise e).rngSeeds = s.rngSeeds := rfl
@[simp] theorem raise_hostQueue (s : State) (e : ErrKind) : (s.raise e).hostQueue = s.hostQueue := rfl
@[simp] theorem raise_hostOut (s : State) (e : ErrKind) : (s.raise e).hostOut = s.hostOut := rfl
@[simp] theorem raise_freeReads (s : State) (e : ErrKind) : (s.raise e).freeReads = s.freeReads := rfl
@[simp] theorem raise_pace (s : State) (e : ErrKind) : (s.raise e).pace = s.pace := rfl
@[simp] theorem raise_params (s : State) (e : ErrKind) : (s.raise e).params = s.params := rfl

/-! ### `State.rngSeed` -/

@[simp] theorem rngSeed_xh (s : State) (v : Word32) : (s.rngSeed v).xh = s.xh := rfl
@[simp] theorem rngSeed_xl (s : State) (v : Word32) : (s.rngSeed v).xl = s.xl := rfl
@[simp] theorem rngSeed_yh (s : State) (v : Word32) : (s.rngSeed v).yh = s.yh := rfl
@[simp] theorem rngSeed_yl (s : State) (v : Word32) : (s.rngSeed v).yl = s.yl := rfl
@[simp] theorem rngSeed_m (s : State) (v : Word32) : (s.rngSeed v).m = s.m := rfl
@[simp] theorem rngSeed_add (s : State) (v : Word32) : (s.rngSeed v).add = s.add := rfl
@[simp] theorem rngSeed_rem (s : State) (v : Word32) : (s.rngSeed v).rem = s.rem := rfl
@[simp] theorem rngSeed_checks (s : State) (v : Word32) : (s.rngSeed v).checks = s.checks := rfl
@[simp] theorem rngSeed_ph (s : State) (v : Word32) : (s.rngSeed v).ph = s.ph := rfl
@[simp] theorem rngSeed_pl (s : State) (v : Word32) : (s.rngSeed v).pl = s.pl := rfl
@[simp] theorem rngSeed_qh (s : State) (v : Word32) : (s.rngSeed v).qh = s.qh := rfl
@[simp] theorem rngSeed_ql (s : State) (v : Word32) : (s.rngSeed v).ql = s.ql := rfl
@[simp] theorem rngSeed_cmd (s : State) (v : Word32) : (s.rngSeed v).cmd = s.cmd := rfl
@[simp] theorem rngSeed_busy (s : State) (v : Word32) : (s.rngSeed v).busy = s.busy := rfl
@[simp] theorem rngSeed_done (s : State) (v : Word32) : (s.rngSeed v).done = s.done := rfl
@[simp] theorem rngSeed_carry (s : State) (v : Word32) : (s.rngSeed v).carry = s.carry := rfl
@[simp] theorem rngSeed_isp (s : State) (v : Word32) : (s.rngSeed v).isp = s.isp := rfl
@[simp] theorem rngSeed_ipt (s : State) (v : Word32) : (s.rngSeed v).ipt = s.ipt := rfl
@[simp] theorem rngSeed_err (s : State) (v : Word32) : (s.rngSeed v).err = s.err := rfl
@[simp] theorem rngSeed_seq (s : State) (v : Word32) : (s.rngSeed v).seq = s.seq := rfl
@[simp] theorem rngSeed_running (s : State) (v : Word32) : (s.rngSeed v).running = s.running := rfl
@[simp] theorem rngSeed_verify (s : State) (v : Word32) : (s.rngSeed v).verify = s.verify := rfl
@[simp] theorem rngSeed_sp (s : State) (v : Word32) : (s.rngSeed v).sp = s.sp := rfl
@[simp] theorem rngSeed_pow2 (s : State) (v : Word32) : (s.rngSeed v).pow2 = s.pow2 := rfl
@[simp] theorem rngSeed_mods (s : State) (v : Word32) : (s.rngSeed v).mods = s.mods := rfl
@[simp] theorem rngSeed_delta (s : State) (v : Word32) : (s.rngSeed v).delta = s.delta := rfl
@[simp] theorem rngSeed_cand (s : State) (v : Word32) : (s.rngSeed v).cand = s.cand := rfl
@[simp] theorem rngSeed_div (s : State) (v : Word32) : (s.rngSeed v).div = s.div := rfl
@[simp] theorem rngSeed_exp (s : State) (v : Word32) : (s.rngSeed v).exp = s.exp := rfl
@[simp] theorem rngSeed_inv (s : State) (v : Word32) : (s.rngSeed v).inv = s.inv := rfl
@[simp] theorem rngSeed_draw (s : State) (v : Word32) : (s.rngSeed v).draw = s.draw := rfl
@[simp] theorem rngSeed_mr (s : State) (v : Word32) : (s.rngSeed v).mr = s.mr := rfl
@[simp] theorem rngSeed_rngIn (s : State) (v : Word32) : (s.rngSeed v).rngIn = s.rngIn := rfl
@[simp] theorem rngSeed_rngCalls (s : State) (v : Word32) : (s.rngSeed v).rngCalls = s.rngCalls := rfl
@[simp] theorem rngSeed_rngSeeds (s : State) (v : Word32) : (s.rngSeed v).rngSeeds = (s.rngCalls, v) :: s.rngSeeds := rfl
@[simp] theorem rngSeed_hostQueue (s : State) (v : Word32) : (s.rngSeed v).hostQueue = s.hostQueue := rfl
@[simp] theorem rngSeed_hostOut (s : State) (v : Word32) : (s.rngSeed v).hostOut = s.hostOut := rfl
@[simp] theorem rngSeed_freeReads (s : State) (v : Word32) : (s.rngSeed v).freeReads = s.freeReads := rfl
@[simp] theorem rngSeed_pace (s : State) (v : Word32) : (s.rngSeed v).pace = s.pace := rfl
@[simp] theorem rngSeed_params (s : State) (v : Word32) : (s.rngSeed v).params = s.params := rfl

/-! ### `State.withCommand` -/

@[simp] theorem withCommand_xh (s : State) (w : Word32) : (s.withCommand w).xh = s.xh := rfl
@[simp] theorem withCommand_xl (s : State) (w : Word32) : (s.withCommand w).xl = s.xl := rfl
@[simp] theorem withCommand_yh (s : State) (w : Word32) : (s.withCommand w).yh = s.yh := rfl
@[simp] theorem withCommand_yl (s : State) (w : Word32) : (s.withCommand w).yl = s.yl := rfl
@[simp] theorem withCommand_m (s : State) (w : Word32) : (s.withCommand w).m = s.m := rfl
@[simp] theorem withCommand_add (s : State) (w : Word32) : (s.withCommand w).add = s.add := rfl
@[simp] theorem withCommand_rem (s : State) (w : Word32) : (s.withCommand w).rem = s.rem := rfl
@[simp] theorem withCommand_checks (s : State) (w : Word32) : (s.withCommand w).checks = s.checks := rfl
@[simp] theorem withCommand_ph (s : State) (w : Word32) : (s.withCommand w).ph = s.ph := rfl
@[simp] theorem withCommand_pl (s : State) (w : Word32) : (s.withCommand w).pl = s.pl := rfl
@[simp] theorem withCommand_qh (s : State) (w : Word32) : (s.withCommand w).qh = s.qh := rfl
@[simp] theorem withCommand_ql (s : State) (w : Word32) : (s.withCommand w).ql = s.ql := rfl
@[simp] theorem withCommand_cmd (s : State) (w : Word32) : (s.withCommand w).cmd = s.cmd := rfl
@[simp] theorem withCommand_busy (s : State) (w : Word32) : (s.withCommand w).busy = false := rfl
@[simp] theorem withCommand_done (s : State) (w : Word32) : (s.withCommand w).done = s.done := rfl
@[simp] theorem withCommand_carry (s : State) (w : Word32) : (s.withCommand w).carry = s.carry := rfl
@[simp] theorem withCommand_isp (s : State) (w : Word32) : (s.withCommand w).isp = s.isp := rfl
@[simp] theorem withCommand_ipt (s : State) (w : Word32) : (s.withCommand w).ipt = s.ipt := rfl
@[simp] theorem withCommand_err (s : State) (w : Word32) : (s.withCommand w).err = s.err := rfl
@[simp] theorem withCommand_seq (s : State) (w : Word32) : (s.withCommand w).seq = .idle := rfl
@[simp] theorem withCommand_running (s : State) (w : Word32) : (s.withCommand w).running = none := rfl
@[simp] theorem withCommand_verify (s : State) (w : Word32) : (s.withCommand w).verify = s.verify := rfl
@[simp] theorem withCommand_sp (s : State) (w : Word32) : (s.withCommand w).sp = s.sp := rfl
@[simp] theorem withCommand_pow2 (s : State) (w : Word32) : (s.withCommand w).pow2 = s.pow2 := rfl
@[simp] theorem withCommand_mods (s : State) (w : Word32) : (s.withCommand w).mods = s.mods := rfl
@[simp] theorem withCommand_delta (s : State) (w : Word32) : (s.withCommand w).delta = s.delta := rfl
@[simp] theorem withCommand_cand (s : State) (w : Word32) : (s.withCommand w).cand = s.cand := rfl
@[simp] theorem withCommand_div (s : State) (w : Word32) : (s.withCommand w).div = s.div := rfl
@[simp] theorem withCommand_exp (s : State) (w : Word32) : (s.withCommand w).exp = s.exp := rfl
@[simp] theorem withCommand_inv (s : State) (w : Word32) : (s.withCommand w).inv = s.inv := rfl
@[simp] theorem withCommand_draw (s : State) (w : Word32) : (s.withCommand w).draw = s.draw := rfl
@[simp] theorem withCommand_mr (s : State) (w : Word32) : (s.withCommand w).mr = s.mr := rfl
@[simp] theorem withCommand_rngIn (s : State) (w : Word32) : (s.withCommand w).rngIn = s.rngIn := rfl
@[simp] theorem withCommand_rngCalls (s : State) (w : Word32) : (s.withCommand w).rngCalls = s.rngCalls := rfl
@[simp] theorem withCommand_rngSeeds (s : State) (w : Word32) : (s.withCommand w).rngSeeds = s.rngSeeds := rfl
@[simp] theorem withCommand_hostQueue (s : State) (w : Word32) : (s.withCommand w).hostQueue = .write 12 w :: s.hostQueue := rfl
@[simp] theorem withCommand_hostOut (s : State) (w : Word32) : (s.withCommand w).hostOut = s.hostOut := rfl
@[simp] theorem withCommand_freeReads (s : State) (w : Word32) : (s.withCommand w).freeReads = s.freeReads := rfl
@[simp] theorem withCommand_pace (s : State) (w : Word32) : (s.withCommand w).pace = s.pace := rfl
@[simp] theorem withCommand_params (s : State) (w : Word32) : (s.withCommand w).params = s.params := rfl

/-! ### `Safety.afterCalls` -/

@[simp] theorem afterCalls_xh (s : State) (n : Nat) : (Safety.afterCalls s n).xh = s.xh := rfl
@[simp] theorem afterCalls_xl (s : State) (n : Nat) : (Safety.afterCalls s n).xl = s.xl := rfl
@[simp] theorem afterCalls_yh (s : State) (n : Nat) : (Safety.afterCalls s n).yh = s.yh := rfl
@[simp] theorem afterCalls_yl (s : State) (n : Nat) : (Safety.afterCalls s n).yl = s.yl := rfl
@[simp] theorem afterCalls_m (s : State) (n : Nat) : (Safety.afterCalls s n).m = s.m := rfl
@[simp] theorem afterCalls_add (s : State) (n : Nat) : (Safety.afterCalls s n).add = s.add := rfl
@[simp] theorem afterCalls_rem (s : State) (n : Nat) : (Safety.afterCalls s n).rem = s.rem := rfl
@[simp] theorem afterCalls_checks (s : State) (n : Nat) : (Safety.afterCalls s n).checks = s.checks := rfl
@[simp] theorem afterCalls_ph (s : State) (n : Nat) : (Safety.afterCalls s n).ph = s.ph := rfl
@[simp] theorem afterCalls_pl (s : State) (n : Nat) : (Safety.afterCalls s n).pl = s.pl := rfl
@[simp] theorem afterCalls_qh (s : State) (n : Nat) : (Safety.afterCalls s n).qh = s.qh := rfl
@[simp] theorem afterCalls_ql (s : State) (n : Nat) : (Safety.afterCalls s n).ql = s.ql := rfl
@[simp] theorem afterCalls_cmd (s : State) (n : Nat) : (Safety.afterCalls s n).cmd = s.cmd := rfl
@[simp] theorem afterCalls_busy (s : State) (n : Nat) : (Safety.afterCalls s n).busy = s.busy := rfl
@[simp] theorem afterCalls_done (s : State) (n : Nat) : (Safety.afterCalls s n).done = s.done := rfl
@[simp] theorem afterCalls_carry (s : State) (n : Nat) : (Safety.afterCalls s n).carry = s.carry := rfl
@[simp] theorem afterCalls_isp (s : State) (n : Nat) : (Safety.afterCalls s n).isp = s.isp := rfl
@[simp] theorem afterCalls_ipt (s : State) (n : Nat) : (Safety.afterCalls s n).ipt = s.ipt := rfl
@[simp] theorem afterCalls_err (s : State) (n : Nat) : (Safety.afterCalls s n).err = s.err := rfl
@[simp] theorem afterCalls_seq (s : State) (n : Nat) : (Safety.afterCalls s n).seq = s.seq := rfl
@[simp] theorem afterCalls_running (s : State) (n : Nat) : (Safety.afterCalls s n).running = s.running := rfl
@[simp] theorem afterCalls_verify (s : State) (n : Nat) : (Safety.afterCalls s n).verify = s.verify := rfl
@[simp] theorem afterCalls_sp (s : State) (n : Nat) : (Safety.afterCalls s n).sp = s.sp := rfl
@[simp] theorem afterCalls_pow2 (s : State) (n : Nat) : (Safety.afterCalls s n).pow2 = s.pow2 := rfl
@[simp] theorem afterCalls_mods (s : State) (n : Nat) : (Safety.afterCalls s n).mods = s.mods := rfl
@[simp] theorem afterCalls_delta (s : State) (n : Nat) : (Safety.afterCalls s n).delta = s.delta := rfl
@[simp] theorem afterCalls_cand (s : State) (n : Nat) : (Safety.afterCalls s n).cand = s.cand := rfl
@[simp] theorem afterCalls_div (s : State) (n : Nat) : (Safety.afterCalls s n).div = s.div := rfl
@[simp] theorem afterCalls_exp (s : State) (n : Nat) : (Safety.afterCalls s n).exp = s.exp := rfl
@[simp] theorem afterCalls_inv (s : State) (n : Nat) : (Safety.afterCalls s n).inv = s.inv := rfl
@[simp] theorem afterCalls_draw (s : State) (n : Nat) : (Safety.afterCalls s n).draw = s.draw := rfl
@[simp] theorem afterCalls_mr (s : State) (n : Nat) : (Safety.afterCalls s n).mr = s.mr := rfl
@[simp] theorem afterCalls_rngIn (s : State) (n : Nat) : (Safety.afterCalls s n).rngIn = s.rngIn.drop n := rfl
@[simp] theorem afterCalls_rngCalls (s : State) (n : Nat) : (Safety.afterCalls s n).rngCalls = s.rngCalls + n := rfl
@[simp] theorem afterCalls_rngSeeds (s : State) (n : Nat) : (Safety.afterCalls s n).rngSeeds = s.rngSeeds := rfl
@[simp] theorem afterCalls_hostQueue (s : State) (n : Nat) : (Safety.afterCalls s n).hostQueue = s.hostQueue := rfl
@[simp] theorem afterCalls_hostOut (s : State) (n : Nat) : (Safety.afterCalls s n).hostOut = s.hostOut := rfl
@[simp] theorem afterCalls_freeReads (s : State) (n : Nat) : (Safety.afterCalls s n).freeReads = s.freeReads := rfl
@[simp] theorem afterCalls_pace (s : State) (n : Nat) : (Safety.afterCalls s n).pace = s.pace := rfl
@[simp] theorem afterCalls_params (s : State) (n : Nat) : (Safety.afterCalls s n).params = s.params := rfl

/-! ### `Safety.ended` -/

@[simp] theorem ended_xh (s : State) (ph pl qh ql : Word32) (c : Bool) : (Safety.ended s ph pl qh ql c).xh = s.xh := rfl
@[simp] theorem ended_xl (s : State) (ph pl qh ql : Word32) (c : Bool) : (Safety.ended s ph pl qh ql c).xl = s.xl := rfl
@[simp] theorem ended_yh (s : State) (ph pl qh ql : Word32) (c : Bool) : (Safety.ended s ph pl qh ql c).yh = s.yh := rfl
@[simp] theorem ended_yl (s : State) (ph pl qh ql : Word32) (c : Bool) : (Safety.ended s ph pl qh ql c).yl = s.yl := rfl
@[simp] theorem ended_m (s : State) (ph pl qh ql : Word32) (c : Bool) : (Safety.ended s ph pl qh ql c).m = s.m := rfl
@[simp] theorem ended_add (s : State) (ph pl qh ql : Word32) (c : Bool) : (Safety.ended s ph pl qh ql c).add = s.add := rfl
@[simp] theorem ended_rem (s : State) (ph pl qh ql : Word32) (c : Bool) : (Safety.ended s ph pl qh ql c).rem = s.rem := rfl
@[simp] theorem ended_checks (s : State) (ph pl qh ql : Word32) (c : Bool) : (Safety.ended s ph pl qh ql c).checks = s.checks := rfl
@[simp] theorem ended_ph (s : State) (ph pl qh ql : Word32) (c : Bool) : (Safety.ended s ph pl qh ql c).ph = ph := rfl
@[simp] theorem ended_pl (s : State) (ph pl qh ql : Word32) (c : Bool) : (Safety.ended s ph pl qh ql c).pl = pl := rfl
@[simp] theorem ended_qh (s : State) (ph pl qh ql : Word32) (c : Bool) : (Safety.ended s ph pl qh ql c).qh = qh := rfl
@[simp] theorem ended_ql (s : State) (ph pl qh ql : Word32) (c : Bool) : (Safety.ended s ph pl qh ql c).ql = ql := rfl
@[simp] theorem ended_cmd (s : State) (ph pl qh ql : Word32) (c : Bool) : (Safety.ended s ph pl qh ql c).cmd = s.cmd := rfl
@[simp] theorem ended_busy (s : State) (ph pl qh ql : Word32) (c : Bool) : (Safety.ended s ph pl qh ql c).busy = false := rfl
@[simp] theorem ended_done (s : State) (ph pl qh ql : Word32) (c : Bool) : (Safety.ended s ph pl qh ql c).done = true := rfl
@[simp] theorem ended_carry (s : State) (ph pl qh ql : Word32) (c : Bool) : (Safety.ended s ph pl qh ql c).carry = c := rfl
@[simp] theorem ended_isp (s : State) (ph pl qh ql : Word32) (c : Bool) : (Safety.ended s ph pl qh ql c).isp = s.isp := rfl
@[simp] theorem ended_ipt (s : State) (ph pl qh ql : Word32) (c : Bool) : (Safety.ended s ph pl qh ql c).ipt = s.ipt := rfl
@[simp] theorem ended_err (s : State) (ph pl qh ql : Word32) (c : Bool) : (Safety.ended s ph pl qh ql c).err = 0 := rfl
@[simp] theorem ended_seq (s : State) (ph pl qh ql : Word32) (c : Bool) : (Safety.ended s ph pl qh ql c).seq = .idle := rfl
@[simp] theorem ended_running (s : State) (ph pl qh ql : Word32) (c : Bool) : (Safety.ended s ph pl qh ql c).running = none := rfl
@[simp] theorem ended_verify (s : State) (ph pl qh ql : Word32) (c : Bool) : (Safety.ended s ph pl qh ql c).verify = .none := rfl
@[simp] theorem ended_sp (s : State) (ph pl qh ql : Word32) (c : Bool) : (Safety.ended s ph pl qh ql c).sp = s.sp := rfl
@[simp] theorem ended_pow2 (s : State) (ph pl qh ql : Word32) (c : Bool) : (Safety.ended s ph pl qh ql c).pow2 = s.pow2 := rfl
@[simp] theorem ended_mods (s : State) (ph pl qh ql : Word32) (c : Bool) : (Safety.ended s ph pl qh ql c).mods = s.mods := rfl
@[simp] theorem ended_delta (s : State) (ph pl qh ql : Word32) (c : Bool) : (Safety.ended s ph pl qh ql c).delta = s.delta := rfl
@[simp] theorem ended_cand (s : State) (ph pl qh ql : Word32) (c : Bool) : (Safety.ended s ph pl qh ql c).cand = s.cand := rfl
@[simp] theorem ended_div (s : State) (ph pl qh ql : Word32) (c : Bool) : (Safety.ended s ph pl qh ql c).div = s.div := rfl
@[simp] theorem ended_exp (s : State) (ph pl qh ql : Word32) (c : Bool) : (Safety.ended s ph pl qh ql c).exp = s.exp := rfl
@[simp] theorem ended_inv (s : State) (ph pl qh ql : Word32) (c : Bool) : (Safety.ended s ph pl qh ql c).inv = s.inv := rfl
@[simp] theorem ended_draw (s : State) (ph pl qh ql : Word32) (c : Bool) : (Safety.ended s ph pl qh ql c).draw = s.draw := rfl
@[simp] theorem ended_mr (s : State) (ph pl qh ql : Word32) (c : Bool) : (Safety.ended s ph pl qh ql c).mr = s.mr := rfl
@[simp] theorem ended_rngIn (s : State) (ph pl qh ql : Word32) (c : Bool) : (Safety.ended s ph pl qh ql c).rngIn = s.rngIn := rfl
@[simp] theorem ended_rngCalls (s : State) (ph pl qh ql : Word32) (c : Bool) : (Safety.ended s ph pl qh ql c).rngCalls = s.rngCalls := rfl
@[simp] theorem ended_rngSeeds (s : State) (ph pl qh ql : Word32) (c : Bool) : (Safety.ended s ph pl qh ql c).rngSeeds = s.rngSeeds := rfl
@[simp] theorem ended_hostQueue (s : State) (ph pl qh ql : Word32) (c : Bool) : (Safety.ended s ph pl qh ql c).hostQueue = s.hostQueue := rfl
@[simp] theorem ended_hostOut (s : State) (ph pl qh ql : Word32) (c : Bool) : (Safety.ended s ph pl qh ql c).hostOut = s.hostOut := rfl
@[simp] theorem ended_freeReads (s : State) (ph pl qh ql : Word32) (c : Bool) : (Safety.ended s ph pl qh ql c).freeReads = s.freeReads := rfl
@[simp] theorem ended_pace (s : State) (ph pl qh ql : Word32) (c : Bool) : (Safety.ended s ph pl qh ql c).pace = s.pace := rfl
@[simp] theorem ended_params (s : State) (ph pl qh ql : Word32) (c : Bool) : (Safety.ended s ph pl qh ql c).params = s.params := rfl

/-! ### `Safety.failed` -/

@[simp] theorem failed_xh (s : State) (k : BitVec 4) : (Safety.failed s k).xh = s.xh := rfl
@[simp] theorem failed_xl (s : State) (k : BitVec 4) : (Safety.failed s k).xl = s.xl := rfl
@[simp] theorem failed_yh (s : State) (k : BitVec 4) : (Safety.failed s k).yh = s.yh := rfl
@[simp] theorem failed_yl (s : State) (k : BitVec 4) : (Safety.failed s k).yl = s.yl := rfl
@[simp] theorem failed_m (s : State) (k : BitVec 4) : (Safety.failed s k).m = s.m := rfl
@[simp] theorem failed_add (s : State) (k : BitVec 4) : (Safety.failed s k).add = s.add := rfl
@[simp] theorem failed_rem (s : State) (k : BitVec 4) : (Safety.failed s k).rem = s.rem := rfl
@[simp] theorem failed_checks (s : State) (k : BitVec 4) : (Safety.failed s k).checks = s.checks := rfl
@[simp] theorem failed_ph (s : State) (k : BitVec 4) : (Safety.failed s k).ph = 0 := rfl
@[simp] theorem failed_pl (s : State) (k : BitVec 4) : (Safety.failed s k).pl = 0 := rfl
@[simp] theorem failed_qh (s : State) (k : BitVec 4) : (Safety.failed s k).qh = 0 := rfl
@[simp] theorem failed_ql (s : State) (k : BitVec 4) : (Safety.failed s k).ql = 0 := rfl
@[simp] theorem failed_cmd (s : State) (k : BitVec 4) : (Safety.failed s k).cmd = s.cmd := rfl
@[simp] theorem failed_busy (s : State) (k : BitVec 4) : (Safety.failed s k).busy = false := rfl
@[simp] theorem failed_done (s : State) (k : BitVec 4) : (Safety.failed s k).done = true := rfl
@[simp] theorem failed_carry (s : State) (k : BitVec 4) : (Safety.failed s k).carry = false := rfl
@[simp] theorem failed_isp (s : State) (k : BitVec 4) : (Safety.failed s k).isp = s.isp := rfl
@[simp] theorem failed_ipt (s : State) (k : BitVec 4) : (Safety.failed s k).ipt = s.ipt := rfl
@[simp] theorem failed_err (s : State) (k : BitVec 4) : (Safety.failed s k).err = k := rfl
@[simp] theorem failed_seq (s : State) (k : BitVec 4) : (Safety.failed s k).seq = .idle := rfl
@[simp] theorem failed_running (s : State) (k : BitVec 4) : (Safety.failed s k).running = none := rfl
@[simp] theorem failed_verify (s : State) (k : BitVec 4) : (Safety.failed s k).verify = .none := rfl
@[simp] theorem failed_sp (s : State) (k : BitVec 4) : (Safety.failed s k).sp = s.sp := rfl
@[simp] theorem failed_pow2 (s : State) (k : BitVec 4) : (Safety.failed s k).pow2 = s.pow2 := rfl
@[simp] theorem failed_mods (s : State) (k : BitVec 4) : (Safety.failed s k).mods = s.mods := rfl
@[simp] theorem failed_delta (s : State) (k : BitVec 4) : (Safety.failed s k).delta = s.delta := rfl
@[simp] theorem failed_cand (s : State) (k : BitVec 4) : (Safety.failed s k).cand = s.cand := rfl
@[simp] theorem failed_div (s : State) (k : BitVec 4) : (Safety.failed s k).div = s.div := rfl
@[simp] theorem failed_exp (s : State) (k : BitVec 4) : (Safety.failed s k).exp = s.exp := rfl
@[simp] theorem failed_inv (s : State) (k : BitVec 4) : (Safety.failed s k).inv = s.inv := rfl
@[simp] theorem failed_draw (s : State) (k : BitVec 4) : (Safety.failed s k).draw = s.draw := rfl
@[simp] theorem failed_mr (s : State) (k : BitVec 4) : (Safety.failed s k).mr = s.mr := rfl
@[simp] theorem failed_rngIn (s : State) (k : BitVec 4) : (Safety.failed s k).rngIn = s.rngIn := rfl
@[simp] theorem failed_rngCalls (s : State) (k : BitVec 4) : (Safety.failed s k).rngCalls = s.rngCalls := rfl
@[simp] theorem failed_rngSeeds (s : State) (k : BitVec 4) : (Safety.failed s k).rngSeeds = s.rngSeeds := rfl
@[simp] theorem failed_hostQueue (s : State) (k : BitVec 4) : (Safety.failed s k).hostQueue = s.hostQueue := rfl
@[simp] theorem failed_hostOut (s : State) (k : BitVec 4) : (Safety.failed s k).hostOut = s.hostOut := rfl
@[simp] theorem failed_freeReads (s : State) (k : BitVec 4) : (Safety.failed s k).freeReads = s.freeReads := rfl
@[simp] theorem failed_pace (s : State) (k : BitVec 4) : (Safety.failed s k).pace = s.pace := rfl
@[simp] theorem failed_params (s : State) (k : BitVec 4) : (Safety.failed s k).params = s.params := rfl

/-! ### The ends of a command in the statements' terms -/

theorem finish_eq_ended (s : State) (ph pl qh ql : Word32) (c : Bool) :
    s.finish ph pl qh ql c = Safety.ended s ph pl qh ql c := rfl

theorem raise_eq_failed (s : State) (e : ErrKind) : s.raise e = Safety.failed s e.code := rfl

/-- What starting a command changed, its end without error overwrites. -/
theorem finish_start (s : State) (i : Instr) (ph pl qh ql : Word32) (c : Bool) :
    (s.start i).finish ph pl qh ql c = Safety.ended s ph pl qh ql c := rfl

/-- What starting a command changed, its end with an error overwrites. -/
theorem raise_start (s : State) (i : Instr) (e : ErrKind) : (s.start i).raise e = Safety.failed s e.code := rfl

end Sys2Proof.Laws
end

