-- ==== Sys2Proof/Laws/Ops.lean ====
section
/-! SUPPORT. For each shared operation one lemma that says what it can do; the later proofs cite these and do not unfold
the operation. -/

namespace Sys2Proof.Laws

open Sys2Proof.Machine Sys2Proof.Safety

/-! ### Starting a command -/

theorem command_ready {s : State} (h : Ready s) (i : Instr) (body : State → Out) :
    s.command i body = body (s.start i) := by
  simp [State.command, h.1, h.2]

theorem command_not_ready {s : State} (h : ¬ Ready s) (i : Instr) (body : State → Out) :
    s.command i body = .next (failed s 7) := by
  have : (s.isp && s.ipt) = false := by simpa [Ready] using h
  simp only [State.command, this]
  rfl

/-- All that starting a gated command can do (60 R274). -/
theorem command_cases (s : State) (i : Instr) (body : State → Out) :
    (Ready s ∧ s.command i body = body (s.start i)) ∨ (¬ Ready s ∧ s.command i body = .next (failed s 7)) := by
  by_cases h : Ready s
  · exact .inl ⟨h, command_ready h i body⟩
  · exact .inr ⟨h, command_not_ready h i body⟩

theorem exempt_eq (s : State) (i : Instr) (body : State → Out) : s.exempt i body = body (s.start i) := rfl

/-! ### The guarded division -/

/-- A division by a nonzero divisor goes on with the divider's registers written. -/
theorem divide_of_ne {b : Word64} (h : b ≠ 0#64) (s : State) (a : Word64) (k : DivWork → State → Out) :
    s.divide a b k = k (divRem64 a b h) { s with div := divRem64 a b h } := by
  simp only [State.divide, dif_neg h]

/-- All that a division can do. -/
theorem divide_next {s t : State} {a b : Word64} {k : DivWork → State → Out} (h : s.divide a b k = .next t) :
    ∃ hb : b ≠ 0#64, k (divRem64 a b hb) { s with div := divRem64 a b hb } = .next t := by
  by_cases hb : b = 0#64
  · simp [State.divide, hb] at h
  · exact ⟨hb, by rwa [divide_of_ne hb] at h⟩

/-! ### The random-source port -/

theorem rngNext_eq (s : State) : s.rngNext = (nextWord s 0, afterCalls s 1) := by
  unfold State.rngNext
  split <;> simp_all [nextWord, afterCalls]

theorem nextWord_afterCalls (s : State) (n k : Nat) : nextWord (afterCalls s n) k = nextWord s (n + k) := by
  simp [nextWord, Nat.add_assoc]

@[simp] theorem afterCalls_zero (s : State) : afterCalls s 0 = s := by simp [afterCalls]

@[simp] theorem afterCalls_afterCalls (s : State) (n k : Nat) :
    afterCalls (afterCalls s n) k = afterCalls s (n + k) := by
  simp [afterCalls, Nat.add_assoc]

theorem composed_afterCalls (s : State) (n j : Nat) : composed (afterCalls s (3 * n)) j = composed s (n + j) := by
  simp only [composed, nextWord_afterCalls, afterCalls_params, Nat.mul_add, Nat.add_assoc]

theorem usableBits_toNat (w : Word32) : (usableBits w).toNat = w.toNat % 2 ^ 30 := by
  simp [usableBits]

theorem usableBits_eq_setWidth (w : Word32) : usableBits w = w.setWidth 30 := by
  apply BitVec.eq_of_toNat_eq
  simp [usableBits]

theorem composeStandard_toNat (w0 w1 w2 : RandWord) :
    (composeStandard w0 w1 w2).toNat =
      w0.toNat / 2 ^ 19 * 2 ^ 21 + w1.toNat / 2 ^ 19 * 2 ^ 10 + w2.toNat / 2 ^ 20 := by
  have h0 := w0.isLt
  have h1 := w1.isLt
  have h2 := w2.isLt
  have e : ∀ a b n : Nat, b < 2 ^ n → a <<< n ||| b = a * 2 ^ n + b := fun a b n hb => by
    rw [Nat.shiftLeft_eq, Nat.mul_comm, Nat.two_pow_add_eq_or_of_lt hb]
  simp only [composeStandard, BitVec.toNat_append, BitVec.extractLsb'_toNat, Nat.shiftRight_eq_div_pow]
  rw [e _ _ 11 (by omega), e _ _ 10 (by omega)]
  omega

/-- One composed word: three answers in order, and the port after three calls (43 R162). -/
theorem randWord_spec (s : State) : (s.randWord).1.toNat = composed s 0 ∧ (s.randWord).2 = afterCalls s 3 := by
  unfold State.randWord
  simp only [rngNext_eq, afterCalls_afterCalls, nextWord_afterCalls, and_true]
  unfold compose3 composed
  cases s.params.compose3 with
  | standard => simp only [composeStandard_toNat, usableBits_toNat]
  | other id => simp only [usableBits_eq_setWidth]

theorem lowBits_toNat (r : Word32) (n : Nat) (h : n ≤ 32) : (lowBits r n).toNat = r.toNat % 2 ^ n := by
  have hr := r.isLt
  unfold lowBits
  split
  · have : n = 32 := by omega
    subst this
    omega
  · have h2 : r.toNat % 2 ^ n < 2 ^ 32 := lt_of_le_of_lt (Nat.mod_le _ _) hr
    simpa using h2

/-- The low `n` bits of one composed word (43 R164). -/
theorem randBits_spec (s : State) (n : Nat) (h : n ≤ 32) :
    (s.randBits n).1.toNat = composed s 0 % 2 ^ n ∧ (s.randBits n).2 = afterCalls s 3 := by
  simp only [State.randBits, lowBits_toNat _ _ h, (randWord_spec s).1, (randWord_spec s).2, and_self]

/-- Drawing changes nothing but the port, whatever the width. -/
theorem randBits_state (s : State) (n : Nat) : (s.randBits n).2 = afterCalls s 3 := (randWord_spec s).2

/-! ### The register port -/

theorem memRead_idle {s : State} (h : s.busy = false) (idx : RegIndex) :
    s.memRead idx = (s.readIdle idx, s) := by
  simp [State.memRead, h]

theorem memWrite_busy {s : State} (h : s.busy = true) (idx : RegIndex) (v : Word32) : s.memWrite idx v = s := by
  simp [State.memWrite, h]

/-- A read after a write to an operand register gives the value written. -/
theorem read_write_same {s : State} (h : s.busy = false) {idx : RegIndex} (hi : idx.toNat < 8) (v : Word32) :
    (s.memWrite idx v).readIdle idx = v := by
  unfold State.memWrite State.readIdle
  generalize idx.toNat = n at hi
  interval_cases n <;> simp [h]

/-- A write leaves every other register alone. -/
theorem read_write_other {s : State} {i j : RegIndex} (hij : i.toNat ≠ j.toNat) (v : Word32) :
    (s.memWrite i v).readIdle j = s.readIdle j := by
  unfold State.memWrite
  split
  · rfl
  · have hi := i.isLt
    have hj := j.isLt
    unfold State.readIdle
    generalize i.toNat = m at *
    generalize j.toNat = n at *
    interval_cases m <;> first | rfl | (interval_cases n <;> first | rfl | exact absurd rfl hij)

/-- The reset input keeps the random source and the host (70 R301; log 13). -/
theorem resetBlock_keeps (s : State) :
    s.resetBlock.rngIn = s.rngIn ∧ s.resetBlock.rngCalls = s.rngCalls ∧ s.resetBlock.rngSeeds = s.rngSeeds ∧
    s.resetBlock.hostQueue = s.hostQueue ∧ s.resetBlock.hostOut = s.hostOut ∧ s.resetBlock.params = s.params :=
  ⟨rfl, rfl, rfl, rfl, rfl, rfl⟩

/-! ### The sub-operations of the loop commands -/

/-- A draw begins, or the range is empty (43 R165). -/
theorem beginDraw_cases (s : State) (range : Word32) :
    (range = 0 ∧ s.beginDraw range = s.raise .invalidParameter) ∨
    (range ≠ 0 ∧ s.beginDraw range = { s with draw := ⟨range, bitLen (range - 1)⟩, seq := .rrTry 1 }) := by
  by_cases h : range = 0
  · exact .inl ⟨h, by rw [State.beginDraw, if_pos h]⟩
  · exact .inr ⟨h, by rw [State.beginDraw, if_neg h]⟩

/-- All that an accepted attempt can lead to (43 R166, 44 R181). -/
theorem drawAccepted_next {s t : State} {v : Word32} (h : s.drawAccepted v = .next t) :
    (s.running = some .randrange ∧ t = s.finish32 v) ∨
    ((s.running = some .isprime ∨ ∃ safe, s.running = some (.genprime safe)) ∧
      t = { s with mr := { s.mr with b := v + 2 }, seq := .ipRound s.mr.round true }) := by
  unfold State.drawAccepted at h
  split at h <;> simp_all

/-- All that a spent budget can lead to (60 R280). -/
theorem drawExhausted_next {s t : State} (h : s.drawExhausted = .next t) :
    (s.running = some .randrange ∧ t = s.raise .samplingExhausted) ∨
    ((s.running = some .isprime ∨ ∃ safe, s.running = some (.genprime safe)) ∧
      t = s.raise .primalityInconclusive) := by
  unfold State.drawExhausted at h
  split at h <;> simp_all

/-- All that a verdict can lead to (44 R186, 45 R218). -/
theorem verdict_next {s t : State} {prime : Bool} (h : s.verdict prime = .next t) :
    (s.running = some .isprime ∧ t = s.finish32 (if prime then 1 else 0)) ∨
    (∃ safe, s.running = some (.genprime safe) ∧
      ((s.verify = .p ∧ prime = true ∧ safe = true ∧ t = { s with seq := .gpVerifyQ }) ∨
       (s.verify = .p ∧ prime = true ∧ safe = false ∧ t = s.finish32 (loLimb s.cand)) ∨
       (s.verify = .q ∧ prime = true ∧ t = s.finish32 (loLimb s.cand)) ∨
       (s.verify ≠ .none ∧ prime = false ∧ t = { s with seq := .gpCall }))) := by
  unfold State.verdict at h
  split at h
  · simp_all
  · rename_i safe hr
    refine .inr ⟨safe, hr, ?_⟩
    split at h <;> cases prime <;> cases safe <;> simp_all
  · simp at h

/-- All that a passed round can lead to (44 R180). -/
theorem roundPassed_next {s t : State} {j : Nat} (h : s.roundPassed j = .next t) :
    (j < s.checks.toNat ∧ t = { s with seq := .ipRound (j + 1) false }) ∨
    (s.checks.toNat ≤ j ∧ s.verdict true = .next t) := by
  unfold State.roundPassed at h
  split at h
  · rename_i hj
    exact .inl ⟨hj, by simpa using h.symm⟩
  · rename_i hj
    exact .inr ⟨by omega, h⟩

/-- A transition of the search happens under a generator command only. -/
theorem inSearch_next {s t : State} {body : Bool → Out} (h : s.inSearch body = .next t) :
    ∃ safe, (s.running = some (.probprime safe) ∨ s.running = some (.probprimedh safe) ∨
      s.running = some (.genprime safe)) ∧ body safe = .next t := by
  unfold State.inSearch at h
  split at h <;> simp_all

/-! ### The sequencer's runs -/

@[simp] theorem runSeq_zero (s : State) : runSeq 0 s = .next s := rfl

theorem runSeq_idle {s : State} (h : s.busy = false) (n : Nat) : runSeq n s = .next s := by
  cases n <;> simp [runSeq, h]

theorem runSeq_succ {s t : State} (hb : s.busy = true) (h : seqStep s = .next t) (n : Nat) :
    runSeq (n + 1) s = runSeq n t := by
  simp [runSeq, hb, h]

/-- All that a run of at least one transition can do. -/
theorem runSeq_succ_next {n : Nat} {s t : State} (h : runSeq (n + 1) s = .next t) :
    (s.busy = false ∧ t = s) ∨ (s.busy = true ∧ ∃ u, seqStep s = .next u ∧ runSeq n u = .next t) := by
  unfold runSeq at h
  split at h
  · rename_i hb
    split at h
    · rename_i u hu
      exact .inr ⟨hb, u, hu, h⟩
    · cases h
    · cases h
  · rename_i hb
    exact .inl ⟨by simpa using hb, by simpa using h.symm⟩

/-- A run of `m + n` transitions is a run of `m`, then one of `n`. -/
theorem runSeq_add {m n : Nat} {s t : State} (h : runSeq m s = .next t) : runSeq (m + n) s = runSeq n t := by
  induction m generalizing s with
  | zero => simp_all
  | succ m ih =>
    rcases runSeq_succ_next h with ⟨hb, rfl⟩ | ⟨hb, u, hu, hr⟩
    · simp [runSeq_idle hb]
    · rw [Nat.add_right_comm, runSeq_succ hb hu, ih hr]

/-- A run keeps what every transition keeps. -/
theorem runSeq_keeps {P : State → Prop} (hP : ∀ s t, P s → s.busy = true → seqStep s = .next t → P t)
    {n : Nat} {s t : State} (hs : P s) (h : runSeq n s = .next t) : P t := by
  induction n generalizing s with
  | zero => simp_all
  | succ n ih =>
    rcases runSeq_succ_next h with ⟨_, rfl⟩ | ⟨hb, u, hu, hr⟩
    · exact hs
    · exact ih (hP s u hs hb hu) hr

/-- A run from a state with an invariant under which no transition stops gives a next state. -/
theorem runSeq_total {P : State → Prop}
    (hP : ∀ s, P s → s.busy = true → ∃ t, seqStep s = .next t ∧ P t) {n : Nat} {s : State} (hs : P s) :
    ∃ t, runSeq n s = .next t ∧ P t := by
  induction n generalizing s with
  | zero => exact ⟨s, rfl, hs⟩
  | succ n ih =>
    cases hb : s.busy with
    | false => exact ⟨s, runSeq_idle hb _, hs⟩
    | true =>
      obtain ⟨u, hu, hPu⟩ := hP s hs hb
      rw [runSeq_succ hb hu]
      exact ih hPu

end Sys2Proof.Laws
end

