-- ==== Sys2Proof/Laws/PerInstr.lean ====
section
/-! SUPPORT. The statements made per command: a well-formed command's word passes each check of 30 R74, carries the
command's opcode in bits 7:0 and its flag S in bit 8. -/

/-- The word of the command `i` is legal (30 R74) and has `i`'s opcode and flag in their fields (30 R70). -/
def Sys2Proof.Laws.EncodedWord.Statement (i : Sys2Proof.Instr) : Prop :=
  i.wellFormed = true →
    Sys2Proof.wordWellFormed (Sys2Proof.encode i) = true ∧
    Sys2Proof.opcodeField (Sys2Proof.encode i) = Sys2Proof.opcode i ∧
    Sys2Proof.flagS (Sys2Proof.encode i) = Sys2Proof.safeFlag i

theorem Sys2Proof.Laws.EncodedWord.nop : Sys2Proof.Laws.EncodedWord.Statement .nop :=
  fun _ => by decide

theorem Sys2Proof.Laws.EncodedWord.cmp32 : Sys2Proof.Laws.EncodedWord.Statement .cmp32 :=
  fun _ => by decide

theorem Sys2Proof.Laws.EncodedWord.add32 : Sys2Proof.Laws.EncodedWord.Statement .add32 :=
  fun _ => by decide

theorem Sys2Proof.Laws.EncodedWord.sub32 : Sys2Proof.Laws.EncodedWord.Statement .sub32 :=
  fun _ => by decide

theorem Sys2Proof.Laws.EncodedWord.neg32 : Sys2Proof.Laws.EncodedWord.Statement .neg32 :=
  fun _ => by decide

theorem Sys2Proof.Laws.EncodedWord.srl32 : Sys2Proof.Laws.EncodedWord.Statement .srl32 :=
  fun _ => by decide

theorem Sys2Proof.Laws.EncodedWord.sll32 : Sys2Proof.Laws.EncodedWord.Statement .sll32 :=
  fun _ => by decide

theorem Sys2Proof.Laws.EncodedWord.mul32 : Sys2Proof.Laws.EncodedWord.Statement .mul32 :=
  fun _ => by decide

theorem Sys2Proof.Laws.EncodedWord.bitlen32 : Sys2Proof.Laws.EncodedWord.Statement .bitlen32 :=
  fun _ => by decide

theorem Sys2Proof.Laws.EncodedWord.divrem32 : Sys2Proof.Laws.EncodedWord.Statement .divrem32 :=
  fun _ => by decide

theorem Sys2Proof.Laws.EncodedWord.cmp64 : Sys2Proof.Laws.EncodedWord.Statement .cmp64 :=
  fun _ => by decide

theorem Sys2Proof.Laws.EncodedWord.add64 : Sys2Proof.Laws.EncodedWord.Statement .add64 :=
  fun _ => by decide

theorem Sys2Proof.Laws.EncodedWord.sub64 : Sys2Proof.Laws.EncodedWord.Statement .sub64 :=
  fun _ => by decide

theorem Sys2Proof.Laws.EncodedWord.neg64 : Sys2Proof.Laws.EncodedWord.Statement .neg64 :=
  fun _ => by decide

theorem Sys2Proof.Laws.EncodedWord.srl64 : Sys2Proof.Laws.EncodedWord.Statement .srl64 :=
  fun _ => by decide

theorem Sys2Proof.Laws.EncodedWord.sll64 : Sys2Proof.Laws.EncodedWord.Statement .sll64 :=
  fun _ => by decide

theorem Sys2Proof.Laws.EncodedWord.bitlen64 : Sys2Proof.Laws.EncodedWord.Statement .bitlen64 :=
  fun _ => by decide

theorem Sys2Proof.Laws.EncodedWord.divrem64 : Sys2Proof.Laws.EncodedWord.Statement .divrem64 :=
  fun _ => by decide

theorem Sys2Proof.Laws.EncodedWord.mulmod : Sys2Proof.Laws.EncodedWord.Statement .mulmod :=
  fun _ => by decide

theorem Sys2Proof.Laws.EncodedWord.expmod : Sys2Proof.Laws.EncodedWord.Statement .expmod :=
  fun _ => by decide

theorem Sys2Proof.Laws.EncodedWord.invmod : Sys2Proof.Laws.EncodedWord.Statement .invmod :=
  fun _ => by decide

theorem Sys2Proof.Laws.EncodedWord.seedrng : Sys2Proof.Laws.EncodedWord.Statement .seedrng :=
  fun _ => by decide

theorem Sys2Proof.Laws.EncodedWord.rand32 : Sys2Proof.Laws.EncodedWord.Statement .rand32 :=
  fun _ => by decide

theorem Sys2Proof.Laws.EncodedWord.randbits : Sys2Proof.Laws.EncodedWord.Statement .randbits :=
  fun _ => by decide

theorem Sys2Proof.Laws.EncodedWord.randrange : Sys2Proof.Laws.EncodedWord.Statement .randrange :=
  fun _ => by decide

theorem Sys2Proof.Laws.EncodedWord.isprime : Sys2Proof.Laws.EncodedWord.Statement .isprime :=
  fun _ => by decide

theorem Sys2Proof.Laws.EncodedWord.mrround : Sys2Proof.Laws.EncodedWord.Statement .mrround :=
  fun _ => by decide

theorem Sys2Proof.Laws.EncodedWord.probprime (safe : Bool) : Sys2Proof.Laws.EncodedWord.Statement (.probprime safe) := by
  cases safe <;> exact fun _ => by decide

theorem Sys2Proof.Laws.EncodedWord.probprimedh (safe : Bool) : Sys2Proof.Laws.EncodedWord.Statement (.probprimedh safe) := by
  cases safe <;> exact fun _ => by decide

theorem Sys2Proof.Laws.EncodedWord.genprime (safe : Bool) : Sys2Proof.Laws.EncodedWord.Statement (.genprime safe) := by
  cases safe <;> exact fun _ => by decide

theorem Sys2Proof.Laws.EncodedWord.initsp : Sys2Proof.Laws.EncodedWord.Statement .initsp :=
  fun _ => by decide

theorem Sys2Proof.Laws.EncodedWord.initpt : Sys2Proof.Laws.EncodedWord.Statement .initpt :=
  fun _ => by decide
end

