-- ==== Sys2Proof/Laws/Units.lean ====
section
/-! SUPPORT. What the loop controllers' units compute, as numbers: square-and-multiply, the factors of two of `w - 1`, the
residues of the sieve. -/

namespace Sys2Proof.Laws

open Sys2Proof.Machine

theorem toNat_pos {n : Nat} {v : BitVec n} (h : v ≠ 0#n) : 0 < v.toNat :=
  Nat.pos_of_ne_zero fun e => h (BitVec.eq_of_toNat_eq (by simpa using e))

theorem getLsbD_zero_iff {n : Nat} (v : BitVec n) : v.getLsbD 0 = true ↔ v.toNat % 2 = 1 := by
  simp [BitVec.getLsbD, Nat.testBit_zero]

/-! ### Exponentiation -/

/-- The registers after one round (42 R142). -/
theorem expRound_spec (m : Word32) (h : m ≠ 0#32) (t : ExpWork) (ha : t.acc.toNat < 2 ^ 32)
    (hb : t.base.toNat < 2 ^ 32) :
    (expRound m h t).e.toNat = t.e.toNat / 2 ∧
    (expRound m h t).base.toNat = t.base.toNat * t.base.toNat % m.toNat ∧
    (expRound m h t).acc.toNat =
      if t.e.toNat % 2 = 1 then t.acc.toNat * t.base.toNat % m.toNat else t.acc.toNat := by
  refine ⟨?_, ?_, ?_⟩
  · simp [expRound, srl32_toNat]
  · simp only [expRound, zext64_toNat, mulMod_toNat, loLimb_toNat, Nat.mod_eq_of_lt hb]
  · by_cases he : t.e.getLsbD 0 = true
    · have he' := (getLsbD_zero_iff _).mp he
      simp only [expRound, he, he', if_true, zext64_toNat, mulMod_toNat, loLimb_toNat, Nat.mod_eq_of_lt ha,
        Nat.mod_eq_of_lt hb]
    · have he' : ¬ t.e.toNat % 2 = 1 := fun c => he ((getLsbD_zero_iff _).mpr c)
      simp only [expRound, he, he', if_false, Bool.false_eq_true]

/-- The loop's accumulator: `acc` for exponent 0, else `acc * base^e` reduced (42 R142). -/
theorem expRounds_spec (m : Word32) (h : m ≠ 0#32) (n : Nat) (t : ExpWork) (ha : t.acc.toNat < 2 ^ 32)
    (hb : t.base.toNat < 2 ^ 32) (he : t.e.toNat < 2 ^ n) :
    (expRounds m h n t).acc.toNat =
      if t.e.toNat = 0 then t.acc.toNat else t.acc.toNat * t.base.toNat ^ t.e.toNat % m.toNat := by
  have hm := m.isLt
  have hmp := toNat_pos h
  induction n generalizing t with
  | zero =>
    have : t.e.toNat = 0 := by omega
    simp [expRounds, this]
  | succ n ih =>
    unfold expRounds
    by_cases e0 : t.e = 0#32
    · simp [e0]
    · have ep := toNat_pos e0
      obtain ⟨h1, h2, h3⟩ := expRound_spec m h t ha hb
      have lt2 : t.base.toNat * t.base.toNat % m.toNat < m.toNat := Nat.mod_lt _ hmp
      have lt3 : t.acc.toNat * t.base.toNat % m.toNat < m.toNat := Nat.mod_lt _ hmp
      have ha' : (expRound m h t).acc.toNat < 2 ^ 32 := by rw [h3]; split <;> omega
      have := ih (expRound m h t) ha' (by omega) (by rw [h1]; omega)
      rw [if_neg e0, this, h1, h2, h3, if_neg (by omega : ¬ t.e.toNat = 0)]
      have key : t.e.toNat = 2 * (t.e.toNat / 2) + t.e.toNat % 2 := by omega
      have sq : ∀ k, (t.base.toNat * t.base.toNat % m.toNat) ^ k ≡ t.base.toNat ^ (2 * k) [MOD m.toNat] := fun k => by
        rw [Nat.pow_mul, Nat.pow_two]
        exact (Nat.mod_modEq _ _).pow k
      rcases Nat.mod_two_eq_zero_or_one t.e.toNat with c | c
      · rw [if_neg (by omega), if_neg (by omega)]
        conv_rhs => rw [key, c, Nat.add_zero]
        exact (sq _).mul_left _
      · rw [if_pos c]
        by_cases e1 : t.e.toNat / 2 = 0
        · have : t.e.toNat = 1 := by omega
          rw [if_pos e1, this, Nat.pow_one]
        · rw [if_neg e1]
          conv_rhs => rw [key, c, Nat.pow_add, Nat.pow_one, Nat.mul_comm (_ ^ _), ← Nat.mul_assoc]
          exact (Nat.mod_modEq _ _).mul (sq _)

/-- EXPMOD is exponentiation modulo `m`, 1 for exponent 0 (42 R142). -/
theorem expMod_toNat (base e m : Word32) (h : m ≠ 0#32) :
    (expMod base e m h).toNat = if e.toNat = 0 then 1 else base.toNat ^ e.toNat % m.toNat := by
  have hb := base.isLt
  have hm := m.isLt
  have := expRounds_spec m h 32 ⟨1#64, zext64 base, e⟩ (by simp) (by simpa using hb) e.isLt
  have lt : base.toNat ^ e.toNat % m.toNat < m.toNat := Nat.mod_lt _ (toNat_pos h)
  simp only [expMod, expRun, loLimb_toNat, this, zext64_toNat]
  split
  · rfl
  · simp only [BitVec.toNat_ofNat, Nat.one_mod, Nat.reducePow, Nat.one_mul]
    omega

/-! ### The factors of two -/

theorem trailingZerosFrom_spec (v : Word32) (fuel n : Nat) (hv : v ≠ 0#32) (hf : 32 ≤ n + fuel)
    (hz : ∀ k < n, v.getLsbD k = false) :
    v.getLsbD (trailingZerosFrom v fuel n) = true ∧ ∀ k < trailingZerosFrom v fuel n, v.getLsbD k = false := by
  induction fuel generalizing n with
  | zero =>
    refine absurd (BitVec.eq_of_getLsbD_eq fun k hk => ?_) hv
    rw [hz k (by omega), BitVec.getLsbD_zero]
  | succ fuel ih =>
    unfold trailingZerosFrom
    split
    · rename_i h
      exact ⟨h, hz⟩
    · rename_i h
      refine ih (n + 1) (by omega) fun k hk => ?_
      rcases Nat.lt_succ_iff_lt_or_eq.mp hk with c | c
      · exact hz k c
      · rw [c]
        simpa using h

/-- `w - 1 = 2^a * m` with `m` odd (44 R179). -/
theorem factorTwos_spec (w : Word32) (hw : 2 ≤ w.toNat) :
    w.toNat - 1 = 2 ^ (factorTwos w).1 * (factorTwos w).2.toNat ∧ (factorTwos w).2.toNat % 2 = 1 := by
  have hv : (w - 1#32).toNat = w.toNat - 1 :=
    BitVec.toNat_sub_of_le (BitVec.le_def.mpr (by simp only [BitVec.toNat_ofNat]; omega))
  have hne : w - 1#32 ≠ 0#32 := fun e => by
    rw [e] at hv
    simp at hv
    omega
  obtain ⟨h1, h2⟩ := trailingZerosFrom_spec (w - 1#32) 32 0 hne (by omega) (by omega)
  simp only [factorTwos, srl32_toNat, ← hv]
  generalize trailingZerosFrom (w - 1#32) 32 0 = a at *
  have hdvd : (w - 1#32).toNat % 2 ^ a = 0 := by
    apply Nat.eq_of_testBit_eq
    intro k
    rw [Nat.testBit_mod_two_pow, Nat.zero_testBit]
    by_cases hk : k < a
    · have := h2 k hk
      simp only [BitVec.getLsbD] at this
      rw [this, Bool.and_false]
    · simp [hk]
  refine ⟨?_, ?_⟩
  · have := Nat.div_add_mod (w - 1#32).toNat (2 ^ a)
    omega
  · simp only [BitVec.getLsbD, Nat.testBit_eq_decide_div_mod_eq, decide_eq_true_eq] at h1
    exact h1

/-! ### The residues of the sieve -/

/-- One residue, for an entry that is not 0 (45 R208). -/
theorem residue_spec (c : Word64) (p : SmallWord) (hp : p ≠ 0#9) :
    ∃ r, residue c p = some r ∧ r.toNat = c.toNat % p.toNat := by
  have hpos := toNat_pos hp
  have hl := p.isLt
  have hne : zextSmall p ≠ 0#64 := fun e => by
    have := congrArg BitVec.toNat e
    rw [zextSmall_toNat] at this
    simp at this
    omega
  have lt := Nat.mod_lt c.toNat hpos
  refine ⟨_, by rw [residue, dif_neg hne], ?_⟩
  rw [BitVec.toNat_setWidth, (divRem64_spec _ _ _).2.1, zextSmall_toNat, Nat.mod_eq_of_lt (by omega)]

/-- The residues modulo every entry, in order (45 R208). -/
theorem residues_spec (c : Word64) (ps : List SmallWord) (h : ∀ p ∈ ps, p ≠ 0#9) :
    ∃ rs, residues c ps = some rs ∧ rs.map BitVec.toNat = ps.map (fun p => c.toNat % p.toNat) := by
  induction ps with
  | nil => exact ⟨[], rfl, rfl⟩
  | cons p ps ih =>
    obtain ⟨r, hr, hrn⟩ := residue_spec c p (h p (by simp))
    obtain ⟨rs, hrs, hrsn⟩ := ih fun q hq => h q (by simp [hq])
    exact ⟨r :: rs, by simp [residues, hr, hrs], by simp [hrn, hrsn]⟩

end Sys2Proof.Laws
end

