-- ==== Sys2Proof/Machine/HostKeygen.lean ====
section
/-! DEFINITION. The host's key-generation routines (47), host software outside the block (00 R6 d), as host scripts over
`step`: each writes operand registers, starts a command, waits, reads STATUS.ERR and PL, and "stops at the first nonzero
code" (47 R253). No command's meaning uses this file (log 20). -/

namespace Sys2Proof.Machine

/-- How a host routine ends. -/
inductive HostEnd (α : Type) where
  /-- With its value. -/
  | value (a : α) (s : State)
  /-- With an error code (60 R270), "aborting the remaining steps" (47 R253). -/
  | error (code : BitVec 4) (s : State)
  /-- Not within the steps given: a search, or a redraw loop without a cap (47 R244, R250), may have no end. -/
  | unfinished (s : State)
  /-- A step of the block stopped; no state with the invariant reaches this. -/
  | stopped
  deriving DecidableEq, Repr

/-- The next part of a routine, "propagates failure immediately" (47 R253). -/
def HostEnd.andThen {α β : Type} (r : HostEnd α) (k : α → State → HostEnd β) : HostEnd β :=
  match r with
  | .value a s => k a s
  | .error c s => .error c s
  | .unfinished s => .unfinished s
  | .stopped => .stopped

/-- The host's script runs to its end: at most `n` steps until the host has nothing more to do and no command runs. -/
def runScript : Nat → State → HostEnd Unit
  | 0, s => .unfinished s
  | n + 1, s =>
    if s.hostQueue.isEmpty && !s.busy then .value () s
    else
      match step s with
      | .next t => runScript n t
      | _ => .stopped

/-- `CMD(args)` of 47: the operand writes, the command, the wait, and PL, or the error that STATUS.ERR reports. -/
def hostCommand (n : Nat) (writes : List (RegIndex × Word32)) (i : Instr) (s : State) : HostEnd Word32 :=
  let script := writes.map (fun w => HostAction.write w.1 w.2) ++ [.write 12 (encode i), .wait]
  (runScript n { s with hostQueue := s.hostQueue ++ script }).andThen fun _ t =>
    let code := (t.memRead 13).1.extractLsb' 8 4
    if code = 0 then .value (t.memRead 9).1 t else .error code t

/-- `RANDBITS(n)` by the host. -/
def hostRandBits (n : Nat) (bits : Word32) (s : State) : HostEnd Word32 := hostCommand n [(1, bits)] .randbits s

/-- `EXPMOD(base, e, m)` by the host; with an RSA key's fields this is its encryption and decryption, "textbook, no
padding" (47 R251). -/
def hostExpMod (n : Nat) (base e m : Word32) (s : State) : HostEnd Word32 :=
  hostCommand n [(1, base), (3, e), (4, m)] .expmod s

/-- `INVMOD(a, m)` by the host. -/
def hostInvMod (n : Nat) (a m : Word32) (s : State) : HostEnd Word32 := hostCommand n [(1, a), (4, m)] .invmod s

/-- `GENPRIME(bits, safe, add, rem)` by the host, with its choice of CHECKS. -/
def hostGenPrime (n : Nat) (safe : Bool) (bits add rem checks : Word32) (s : State) : HostEnd Word32 :=
  hostCommand n [(1, bits), (5, add), (6, rem), (7, checks)] (.genprime safe) s

/-- Generator, modulus and order (47 R240). -/
structure FFCParams where
  g : Word32
  p : Word32
  q : Word32
  deriving DecidableEq, Repr

/-- A Diffie-Hellman key pair (47 R241). -/
structure KeyPair where
  params : FFCParams
  publicKey : Word32
  privateKey : Word32
  deriving DecidableEq, Repr

/-- An RSA key (47 R242). -/
structure RSAKey where
  n : Word32
  e : Word32
  d : Word32
  p : Word32
  q : Word32
  deriving DecidableEq, Repr

/-- The redraw loop of 47 R244, at most `tries` draws of `width` bits until one lies in `[1, top]`. -/
def privateKeyLoop (n : Nat) (width top : Word32) : Nat → State → HostEnd Word32
  | 0, s => .unfinished s
  | tries + 1, s =>
    (hostRandBits n width s).andThen fun v t =>
      if 1 ≤ v ∧ v ≤ top then .value v t else privateKeyLoop n width top tries t

/-- `ffc_generate_private_key(q, challenge_bits)` (47 R244), in at most `n` draws. For `min(q, 2^c) ≤ 1` no value is in
range and the loop has no end. Every challenge size `c` is accepted, since R244 gives `min(q, 2^c)` for each (log 21). -/
def ffcGeneratePrivateKey (n : Nat) (q : Word32) (c : Nat) (s : State) : HostEnd Word32 :=
  let bound := min q.toNat (2 ^ c)
  if bound ≤ 1 then .unfinished s
  else
    let top := BitVec.ofNat 32 (bound - 1)
    (hostCommand n [(1, top)] .bitlen32 s).andThen fun width t => privateKeyLoop n width top n t

/-- The congruence class of a generator (47 R245): `(add, rem)`. -/
def classOfGenerator (g : Word32) : Word32 × Word32 :=
  if g = 2 then (24, 23) else if g = 5 then (60, 59) else (12, 11)

/-- `dh_generate_parameters(bits, generator)` (47 R245). -/
def dhGenerateParameters (n : Nat) (bits g checks : Word32) (s : State) : HostEnd FFCParams :=
  let class' := classOfGenerator g
  (hostGenPrime n true bits class'.1 class'.2 checks s).andThen fun p t =>
    (hostCommand n [(1, p), (3, 1)] .srl32 t).andThen fun q u => .value ⟨g, p, q⟩ u

/-- `dh_generate_key` (47 R246), for the challenge size `c`. -/
def dhGenerateKey (n : Nat) (params : FFCParams) (c : Nat) (s : State) : HostEnd KeyPair :=
  (ffcGeneratePrivateKey n params.q c s).andThen fun x t =>
    (hostExpMod n params.g x params.p t).andThen fun y u => .value ⟨params, y, x⟩ u

/-- `dh_compute_key(peer_public)` (47 R247): a shared secret of 0, 1 or `p - 1` is DegenerateSharedSecret. -/
def dhComputeKey (n : Nat) (key : KeyPair) (peer : Word32) (s : State) : HostEnd Word32 :=
  (hostExpMod n peer key.privateKey key.params.p s).andThen fun v t =>
    if v = 0 ∨ v = 1 ∨ v = key.params.p - 1 then .error (ErrKind.code .degenerateSharedSecret) t else .value v t

/-- `elgamal_encrypt(plaintext)` for the receiver's public key (47 R248), the ephemeral drawn as a private key. -/
def elgamalEncrypt (n : Nat) (params : FFCParams) (publicKey : Word32) (c : Nat) (plaintext : Word32) (s : State) :
    HostEnd (Word32 × Word32) :=
  if params.p ≤ plaintext then .error (ErrKind.code .invalidParameter) s
  else
    (ffcGeneratePrivateKey n params.q c s).andThen fun y s1 =>
      (hostExpMod n params.g y params.p s1).andThen fun c0 s2 =>
        (hostExpMod n publicKey y params.p s2).andThen fun t s3 =>
          (hostCommand n [(1, t), (3, plaintext), (4, params.p)] .mulmod s3).andThen fun c1 s4 => .value (c0, c1) s4

/-- `elgamal_decrypt(c0, c1)` (47 R249). -/
def elgamalDecrypt (n : Nat) (key : KeyPair) (c0 c1 : Word32) (s : State) : HostEnd Word32 :=
  (hostExpMod n c0 key.privateKey key.params.p s).andThen fun t s1 =>
    (hostInvMod n t key.params.p s1).andThen fun v s2 =>
      hostCommand n [(1, c1), (3, v), (4, key.params.p)] .mulmod s2

/-- One of the two redraw loops of 47 R250, at most `tries` primes: until the prime is not `other` and
`INVMOD(e, prime - 1)` has an inverse. -/
def rsaPrimeLoop (n : Nat) (bits e checks other : Word32) : Nat → State → HostEnd Word32
  | 0, s => .unfinished s
  | tries + 1, s =>
    (hostGenPrime n false bits 0 0 checks s).andThen fun p t =>
      if p = other then rsaPrimeLoop n bits e checks other tries t
      else
        match hostInvMod n e (p - 1) t with
        | .value _ u => .value p u
        | .error c u =>
          if c = ErrKind.code .noInverseExists then rsaPrimeLoop n bits e checks other tries u else .error c u
        | .unfinished u => .unfinished u
        | .stopped => .stopped

/-- The requests for primes that `rsa_keygen` must refuse at once. A length outside `[2, 31]` is InvalidParameter: "all
bit-length parameters are bounded to [2,31] inclusive" (00 R10), which 47 R250's pseudocode does not test (DEDUCED,
log 21). For 2 and 3 bits "`b2 = 1`" and the refusal comes "at once with InvalidParameter from GENPRIME" (47 R250), so
the request for the second prime goes out first; the rule's pseudocode would first search for the other prime, without
end for 3 bits (DESIGN CHOICE, log 21: the prose over the pseudocode). -/
def rsaRefusals (n : Nat) (bits : Nat) (checks : Word32) (s : State) : HostEnd Unit :=
  if bits < Config.bitsMin ∨ Config.bitsMax < bits then .error (ErrKind.code .invalidParameter) s
  else if bits / 2 < Config.bitsMin then
    (hostGenPrime n false (BitVec.ofNat 32 (bits / 2)) 0 0 checks s).andThen fun _ t => .value () t
  else .value () s

/-- `rsa_keygen(bits, e)` (47 R250), with the host's choice of CHECKS and at most `n` primes drawn in each loop (log 20);
which lengths are refused, and when, is `rsaRefusals` (log 21). With `bits ≤ 31` PH of both products is 0. No prime is 0,
so 0 excludes nothing in the first loop. -/
def rsaKeygen (n : Nat) (bits : Nat) (e checks : Word32) (s : State) : HostEnd RSAKey :=
  if e.getLsbD 0 = false ∨ e ≤ 1 then .error (ErrKind.code .invalidParameter) s
  else
    (rsaRefusals n bits checks s).andThen fun _ s0 =>
      (rsaPrimeLoop n (BitVec.ofNat 32 (bits - bits / 2)) e checks 0 n s0).andThen fun p1 s1 =>
        (rsaPrimeLoop n (BitVec.ofNat 32 (bits / 2)) e checks p1 n s1).andThen fun p2 s2 =>
          let p := if p1 ≤ p2 then p2 else p1
          let q := if p1 ≤ p2 then p1 else p2
          (hostCommand n [(1, p), (3, q)] .mul32 s2).andThen fun modulus s3 =>
            (hostCommand n [(1, p - 1), (3, q - 1)] .mul32 s3).andThen fun phi s4 =>
              (hostInvMod n e phi s4).andThen fun d s5 => .value ⟨modulus, e, d, p, q⟩ s5

end Sys2Proof.Machine
end

