-- ==== Sys2Proof/Tests/Slice0.lean ====
section
/-! SUPPORT. The model's own tests: the ill-formed words, the decoding of words written out from 30 R73, vectors of 95
(section 2, each from the spec's tables), and for every statement a state that meets its hypotheses. -/

namespace Sys2Proof.Tests

-- One theorem at a time: the kernel evaluations in parallel would need a thread each.
set_option Elab.async false

open Sys2Proof Sys2Proof.Machine Sys2Proof.Safety

/-! ### Helpers -/

/-- After reset and setup (70 R302), CHECKS = 1. -/
def init : State :=
  { State.reset with isp := true, ipt := true, sp := smallPrimes, pow2 := powersOfTwo, checks := 1, done := true }

/-- `init` with the 32-bit operands. -/
def xy (x y : Word32) : State := { init with xl := x, yl := y }

/-- `init` with XL, YL and M. -/
def xym (x y m : Word32) : State := { init with xl := x, yl := y, m := m }

/-- `init` with the 64-bit operands. -/
def wide (xh xl yh yl : Word32) : State := { init with xh := xh, xl := xl, yh := yh, yl := yl }

/-- `s` with `n` coming random words, all equal to `w` (the streams `Z` and `F` of 95). -/
def stream (w : Word32) (n : Nat) (s : State) : State := { s with rngIn := List.replicate n w }

/-- PH, PL, QH, QL and STATUS after an outcome. -/
def results : Out → List Word32
  | .next s => [s.ph, s.pl, s.qh, s.ql, s.status]
  | _ => []

/-- PL, STATUS and the number of random words taken. -/
def drawn : Out → List Nat
  | .next s => [s.pl.toNat, s.status.toNat, s.rngCalls]
  | _ => []

/-- A property of the next state, tested. -/
def nextIs (p : State → Bool) : Out → Bool
  | .next s => p s
  | _ => false

theorem exists_next {o : Out} {P : State → Prop} [DecidablePred P] (h : nextIs (fun t => decide (P t)) o = true) :
    ∃ t, o = .next t ∧ P t := by
  cases o with
  | next t => exact ⟨t, rfl, by simpa [nextIs] using h⟩
  | fault r => simp [nextIs] at h
  | refused r => simp [nextIs] at h

/-! ### Well-formedness: one ill-formed word for each check of 30 R74, refused by the check and by the decoder -/

theorem test_unused_opcode : opcodeUsed 0x00000017#32 = false ∧
    decodeWord 0x00000017#32 = .rejected (.unusedOpcode 0x17#8) := by decide

theorem test_zero_field_N : reservedZero 0x80000002#32 = false ∧
    decodeWord 0x80000002#32 = .rejected .reservedBitsN := by decide

theorem test_flag_on_format_N : reservedZero 0x00000102#32 = false ∧
    decodeWord 0x00000102#32 = .rejected .reservedBitsN := by decide

theorem test_zero_field_S : reservedZero 0x00000251#32 = false ∧
    decodeWord 0x00000251#32 = .rejected .reservedBitsS := by decide

theorem test_wellFormed_word : wordWellFormed 0x00000153#32 = true ∧ wordWellFormed 0x00000061#32 = true := by decide

/-- The first and last opcode of each unused range of 30 R75. -/
theorem test_unused_ranges :
    ([0x0A, 0x10, 0x17, 0x1A, 0x20, 0x24, 0x2F, 0x34, 0x40, 0x43, 0x50, 0x54, 0x5F, 0x62, 0xFF] : List Word32).all
      (fun w => decode w == none) = true := by decide

/-! ### Decoding: the word of every command, written out from 30 R70 and R73 -/

theorem test_decode_nop : decode 0b0000_0000#32 = some (.nop) := by decide
theorem test_decode_cmp32 : decode 0b0000_0001#32 = some (.cmp32) := by decide
theorem test_decode_add32 : decode 0b0000_0010#32 = some (.add32) := by decide
theorem test_decode_sub32 : decode 0b0000_0011#32 = some (.sub32) := by decide
theorem test_decode_neg32 : decode 0b0000_0100#32 = some (.neg32) := by decide
theorem test_decode_srl32 : decode 0b0000_0101#32 = some (.srl32) := by decide
theorem test_decode_sll32 : decode 0b0000_0110#32 = some (.sll32) := by decide
theorem test_decode_mul32 : decode 0b0000_0111#32 = some (.mul32) := by decide
theorem test_decode_bitlen32 : decode 0b0000_1000#32 = some (.bitlen32) := by decide
theorem test_decode_divrem32 : decode 0b0000_1001#32 = some (.divrem32) := by decide
theorem test_decode_cmp64 : decode 0b0001_0001#32 = some (.cmp64) := by decide
theorem test_decode_add64 : decode 0b0001_0010#32 = some (.add64) := by decide
theorem test_decode_sub64 : decode 0b0001_0011#32 = some (.sub64) := by decide
theorem test_decode_neg64 : decode 0b0001_0100#32 = some (.neg64) := by decide
theorem test_decode_srl64 : decode 0b0001_0101#32 = some (.srl64) := by decide
theorem test_decode_sll64 : decode 0b0001_0110#32 = some (.sll64) := by decide
theorem test_decode_bitlen64 : decode 0b0001_1000#32 = some (.bitlen64) := by decide
theorem test_decode_divrem64 : decode 0b0001_1001#32 = some (.divrem64) := by decide
theorem test_decode_mulmod : decode 0b0010_0001#32 = some (.mulmod) := by decide
theorem test_decode_expmod : decode 0b0010_0010#32 = some (.expmod) := by decide
theorem test_decode_invmod : decode 0b0010_0011#32 = some (.invmod) := by decide
theorem test_decode_seedrng : decode 0b0011_0000#32 = some (.seedrng) := by decide
theorem test_decode_rand32 : decode 0b0011_0001#32 = some (.rand32) := by decide
theorem test_decode_randbits : decode 0b0011_0010#32 = some (.randbits) := by decide
theorem test_decode_randrange : decode 0b0011_0011#32 = some (.randrange) := by decide
theorem test_decode_isprime : decode 0b0100_0001#32 = some (.isprime) := by decide
theorem test_decode_mrround : decode 0b0100_0010#32 = some (.mrround) := by decide
theorem test_decode_probprime : decode 0b0101_0001#32 = some (.probprime false) := by decide
theorem test_decode_probprime_s : decode 0b1_0101_0001#32 = some (.probprime true) := by decide
theorem test_decode_probprimedh : decode 0b0101_0010#32 = some (.probprimedh false) := by decide
theorem test_decode_probprimedh_s : decode 0b1_0101_0010#32 = some (.probprimedh true) := by decide
theorem test_decode_genprime : decode 0b0101_0011#32 = some (.genprime false) := by decide
theorem test_decode_genprime_s : decode 0b1_0101_0011#32 = some (.genprime true) := by decide
theorem test_decode_initsp : decode 0b0110_0000#32 = some (.initsp) := by decide
theorem test_decode_initpt : decode 0b0110_0001#32 = some (.initpt) := by decide

theorem test_decodeTableWord : decodeTableWord 32 0x153 = some (.genprime true) ∧ decodeTableWord 32 0x17 = none := by
  decide

/-- The step that runs a fetched word runs that command (10 R29). -/
theorem test_withFetchWord :
    results (step ((xy 5 7).withFetchWord 32 0x02)) = [0, 12, 0, 0, 0x1A] ∧
    results (step (State.reset.withFetchWord 32 0x02)) = [0, 0, 0, 0, 0x702] := by decide

/-! ### Commands: vectors of 95 section 2 (PH, PL, QH, QL, STATUS) -/

/-- 46 R231: NOP after a failed command. -/
theorem test_nop : results (exec (.nop) { State.reset with pl := 7, err := 1 }) = [0, 0, 0, 0, 2] := by decide

/-- 95 2.1, CMP32. -/
theorem test_cmp32_sign_split : results (exec (.cmp32) (xy 0x80000000 0x7FFFFFFF)) = [0, 1, 0, 0, 0x1A] := by decide

/-- 95 2.1, CMP32. -/
theorem test_cmp32_less : results (exec (.cmp32) (xy 5 7)) = [0, 0xFFFFFFFF, 0, 0, 0x1A] := by decide

/-- 95 2.1, ADD32. -/
theorem test_add32_carry : results (exec (.add32) (xy 0xFFFFFFFF 0xFFFFFFFF)) = [0, 0xFFFFFFFE, 0, 0, 0x1E] := by decide

/-- 95 2.1, ADD32. -/
theorem test_add32_no_carry : results (exec (.add32) (xy 0x7FFFFFFF 1)) = [0, 0x80000000, 0, 0, 0x1A] := by decide

/-- 95 2.1, SUB32. -/
theorem test_sub32_borrow : results (exec (.sub32) (xy 0 1)) = [0, 0xFFFFFFFF, 0, 0, 0x1E] := by decide

/-- 95 2.1, SUB32. -/
theorem test_sub32_zero : results (exec (.sub32) (xy 5 0)) = [0, 5, 0, 0, 0x1A] := by decide

/-- 95 2.1, NEG32. -/
theorem test_neg32_zero : results (exec (.neg32) (xy 0 9)) = [0, 0, 0, 0, 0x1A] := by decide

/-- 95 2.1, NEG32. -/
theorem test_neg32 : results (exec (.neg32) (xy 0x12345678 0)) = [0, 0xEDCBA988, 0, 0, 0x1A] := by decide

/-- 95 2.1, SRL32. -/
theorem test_srl32_31 : results (exec (.srl32) (xy 0x80000000 31)) = [0, 1, 0, 0, 0x1A] := by decide

/-- 95 2.1, SRL32. -/
theorem test_srl32_all : results (exec (.srl32) (xy 0xFFFFFFFF 0xFFFFFFFF)) = [0, 0, 0, 0, 0x1A] := by decide

/-- 95 2.1, SLL32. -/
theorem test_sll32 : results (exec (.sll32) (xy 0x12345678 8)) = [0, 0x34567800, 0, 0, 0x1A] := by decide

/-- 95 2.1, SLL32. -/
theorem test_sll32_32 : results (exec (.sll32) (xy 1 32)) = [0, 0, 0, 0, 0x1A] := by decide

/-- 95 2.1, MUL32. -/
theorem test_mul32_carry_2 : results (exec (.mul32) (xy 0x0001FFFF 0x0001FFFF)) = [3, 0xFFFC0001, 0, 0, 0x1A] := by decide

/-- 95 2.1, MUL32. -/
theorem test_mul32_max : results (exec (.mul32) (xy 0xFFFFFFFF 0xFFFFFFFF)) = [0xFFFFFFFE, 1, 0, 0, 0x1A] := by decide

/-- 40 R108, example. -/
theorem test_bitlen32 : results (exec (.bitlen32) (xy 311 0)) = [0, 9, 0, 0, 0x1A] := by decide

/-- 95 2.1, BITLEN32. -/
theorem test_bitlen32_max : results (exec (.bitlen32) (xy 0x80000000 0)) = [0, 32, 0, 0, 0x1A] := by decide

/-- 95 2.1, DIVREM32: the high halves are ignored. -/
theorem test_divrem32 : results (exec (.divrem32) (wide 9 100 7 7)) = [0, 14, 0, 2, 0x1A] := by decide

/-- 95 2.1, DIVREM32. -/
theorem test_divrem32_zero : results (exec (.divrem32) (xy 5 0)) = [0, 0, 0, 0, 0x11A] := by decide

/-- 95 2.2, CMP64. -/
theorem test_cmp64 : results (exec (.cmp64) (wide 0 0xFFFFFFFF 1 0)) = [0, 0xFFFFFFFF, 0, 0, 0x1A] := by decide

/-- 41 R121: equal high limbs. -/
theorem test_cmp64_low : results (exec (.cmp64) (wide 3 9 3 5)) = [0, 1, 0, 0, 0x1A] := by decide

/-- 95 2.2, ADD64. -/
theorem test_add64_cross : results (exec (.add64) (wide 0x12345678 0x9ABCDEF0 0x0FEDCBA9 0x87654321)) = [0x22222222, 0x22222211, 0, 0, 0x1A] := by decide

/-- 95 2.2, ADD64. -/
theorem test_add64_carry : results (exec (.add64) (wide 0xFFFFFFFF 0xFFFFFFFF 0 1)) = [0, 0, 0, 0, 0x1E] := by decide

/-- 95 2.2, SUB64. -/
theorem test_sub64_cross : results (exec (.sub64) (wide 1 0 0 1)) = [0, 0xFFFFFFFF, 0, 0, 0x1A] := by decide

/-- 95 2.2, SUB64. -/
theorem test_sub64_borrow : results (exec (.sub64) (wide 0 5 0 7)) = [0xFFFFFFFF, 0xFFFFFFFE, 0, 0, 0x1E] := by decide

/-- 95 2.2, NEG64. -/
theorem test_neg64 : results (exec (.neg64) (wide 1 0 0 0)) = [0xFFFFFFFF, 0, 0, 0, 0x1A] := by decide

/-- 95 2.2, NEG64. -/
theorem test_neg64_mixed : results (exec (.neg64) (wide 0x12345678 0x9ABCDEF0 0 0)) = [0xEDCBA987, 0x65432110, 0, 0, 0x1A] := by decide

/-- 95 2.2, SRL64. -/
theorem test_srl64_33 : results (exec (.srl64) (wide 0x80000000 0 5 33)) = [0, 0x40000000, 0, 0, 0x1A] := by decide

/-- 95 2.2, SRL64. -/
theorem test_srl64_16 : results (exec (.srl64) (wide 0x12345678 0x9ABCDEF0 0 16)) = [0x1234, 0x56789ABC, 0, 0, 0x1A] := by decide

/-- 95 2.2, SLL64. -/
theorem test_sll64_16 : results (exec (.sll64) (wide 0x12345678 0x9ABCDEF0 0 16)) = [0x56789ABC, 0xDEF00000, 0, 0, 0x1A] := by decide

/-- 95 2.2, SLL64. -/
theorem test_sll64_63 : results (exec (.sll64) (wide 0 3 0 63)) = [0x80000000, 0, 0, 0, 0x1A] := by decide

/-- 95 2.2, BITLEN64. -/
theorem test_bitlen64 : results (exec (.bitlen64) (wide 3 0 0 0)) = [0, 34, 0, 0, 0x1A] := by decide

/-- 95 2.2, BITLEN64. -/
theorem test_bitlen64_max : results (exec (.bitlen64) (wide 0xFFFFFFFF 0xFFFFFFFF 0 0)) = [0, 64, 0, 0, 0x1A] := by decide

/-- 95 2.2, DIVREM64. -/
theorem test_divrem64 : results (exec (.divrem64) (wide 0x12345678 0x9ABCDEF0 0 0x87654321)) = [0, 0x226B9022, 0, 0x38BC648E, 0x1A] := by decide +kernel

/-- 95 2.2, DIVREM64. -/
theorem test_divrem64_short : results (exec (.divrem64) (wide 0x80000000 0 0x80000000 1)) = [0, 0, 0x80000000, 0, 0x1A] := by decide +kernel

/-- 95 2.3, MULMOD. -/
theorem test_mulmod : results (exec (.mulmod) (xym 123456789 987654321 1000000007)) = [0, 259106859, 0, 0, 0x1A] := by decide +kernel

/-- 95 2.3, MULMOD. -/
theorem test_mulmod_wide : results (exec (.mulmod) (xym 0xFFFFFFFF 0xFFFFFFFE 0xFFFFFFFB)) = [0, 0x0C, 0, 0, 0x1A] := by decide +kernel

/-- 95 2.3, EXPMOD. -/
theorem test_expmod : results (exec (.expmod) (xym 4 13 497)) = [0, 445, 0, 0, 0x1A] := by decide +kernel

/-- 95 2.3, EXPMOD. -/
theorem test_expmod_zero_exponent : results (exec (.expmod) (xym 5 0 1)) = [0, 1, 0, 0, 0x1A] := by decide +kernel

/-- 95 2.3, INVMOD, even path. -/
theorem test_invmod_even : results (exec (.invmod) (xym 17 0 3120)) = [0, 2753, 0, 0, 0x1A] := by decide +kernel

/-- 95 2.3, INVMOD, odd path. -/
theorem test_invmod_odd : results (exec (.invmod) (xym 10 0 7)) = [0, 5, 0, 0, 0x1A] := by decide +kernel

/-- 95 2.4, SEEDRNG: one `RngSeed(0xDEADBEEF)`, also before setup. -/
theorem test_seedrng : nextIs (fun t => t.rngSeeds == [(0, 0xDEADBEEF#32)] && t.status == 2#32)
    (exec .seedrng { State.reset with xl := 0xDEADBEEF }) = true := by decide

/-- 95 2.4, RAND32. -/
theorem test_rand32 : drawn (exec .rand32 { init with rngIn := [0x3FF80000, 0, 0x3FF00000] }) =
    [0xFFE003FF, 0x1A, 3] := by decide

/-- 95 2.4, RAND32: bits 31 and 30 are ignored. -/
theorem test_rand32_usable_bits : drawn (exec .rand32 (stream 0xC0000000 3 init)) = [0, 0x1A, 3] := by decide

/-- 95 2.4, RANDBITS. -/
theorem test_randbits : drawn (exec .randbits (stream 0x3FFFFFFF 3 (xy 5 0))) = [31, 0x1A, 3] := by decide

/-- 95 2.4, RANDBITS. -/
theorem test_randbits_33 : drawn (exec .randbits (xy 33 0)) = [0, 0x11A, 0] := by decide

/-- 95 2.4, RANDRANGE: 100 attempts, 300 words. -/
theorem test_randrange_exhausted : drawn (exec .randrange (stream 0x3FFFFFFF 300 (xy 5 0))) = [0, 0x21A, 300] := by
  decide +kernel

/-- 95 2.4, RANDRANGE 0x80000001 on the stream `T`: the first value is rejected. -/
theorem test_randrange_second : drawn (exec .randrange { xy 0x80000001 0 with
    rngIn := [0x2545F491, 0x0A8BE922, 0x2FD1DDB3, 0x1517D244, 0x3A5DC6D5, 0x1FA3BB66] }) =
    [0x545D2DFA, 0x1A, 6] := by decide +kernel

/-- 95 2.5, ISPRIME 1194649 on `Z`: a composite that base 2 accepts. -/
theorem test_isprime_pseudoprime : drawn (exec .isprime (stream 0 3 (xy 1194649 0))) = [1, 0x1A, 3] := by
  decide +kernel

/-- 95 2.5, ISPRIME 313 on `F`: the draw exhausts. -/
theorem test_isprime_inconclusive : drawn (exec .isprime (stream 0x3FFFFFFF 300 (xy 313 0))) = [0, 0x51A, 300] := by
  decide +kernel

/-- 95 2.5, MRROUND: a 1 met during the squarings does not pass. -/
theorem test_mrround_one_in_squarings : results (exec (.mrround) (xy 561 2)) = [0, 0, 0, 0, 0x1A] := by decide +kernel

/-- 95 2.5, MRROUND: passes at the fifteenth squaring. -/
theorem test_mrround_last_squaring : results (exec (.mrround) (xy 65537 3)) = [0, 1, 0, 0, 0x1A] := by decide +kernel

/-- 95 2.6, PROBPRIME 12 on `Z`. -/
theorem test_probprime : drawn (exec (.probprime false) (stream 0 3 (xy 12 0))) = [3079, 0x1A, 3] := by decide +kernel

/-- 95 2.6, PROBPRIME.s 10 on `Z`. -/
theorem test_probprime_s : drawn (exec (.probprime true) (stream 0 3 (xy 10 0))) = [839, 0x1A, 3] := by decide +kernel

/-- 95 2.6, PROBPRIMEDH.s 10 with 24, 23 on `Z`. -/
theorem test_probprimedh_s : drawn (exec (.probprimedh true) (stream 0 3 { xy 10 0 with add := 24, rem := 23 })) =
    [839, 0x1A, 3] := by decide +kernel

/-- 95 2.6, PROBPRIMEDH 12 with 3, 5 on `Z`: `rem` above `add`. -/
theorem test_probprimedh_rem : drawn (exec (.probprimedh false) (stream 0 3 { xy 12 0 with add := 3, rem := 5 })) =
    [3083, 0x1A, 3] := by decide +kernel

/-- 95 program P3, GENPRIME.s 24 with 24, 23 on the stream `T`. -/
theorem test_genprime_s : drawn (exec (.genprime true) { xy 24 0 with
    add := 24, rem := 23,
    rngIn := [0x2545F491, 0x0A8BE922, 0x2FD1DDB3, 0x1517D244, 0x3A5DC6D5, 0x1FA3BB66, 0x04E9AFF7, 0x2A2FA488,
      0x0F759919] }) = [12929039, 0x1A, 9] := by decide +kernel

/-- 95 2.6, GENPRIME 31 on `F`: the base draw exhausts. -/
theorem test_genprime_inconclusive : drawn (exec (.genprime false) (stream 0x3FFFFFFF 303 (xy 31 0))) =
    [0, 0x51A, 303] := by decide +kernel

/-- 95 2.7, INITSP from reset. -/
theorem test_initsp : nextIs (fun t => t.status == 0x0A#32 && t.sp.length == 64 && t.sp.getD 63 0 == 311#9)
    (exec .initsp State.reset) = true := by decide

/-- 95 2.7, INITPT first, from reset. -/
theorem test_initpt : nextIs (fun t => t.status == 0x12#32 && t.pow2.getD 31 0 == 0x80000000#32)
    (exec .initpt State.reset) = true := by decide

/-- 95 2.7, ADD32 after INITSP only. -/
theorem test_not_initialised : results (exec .add32 { State.reset with isp := true }) = [0, 0, 0, 0, 0x70A] := by decide

/-! ### The host port -/

/-- The search of program P7, started by the host's CMD write on the stream `Z`, one transition a step. -/
def p7 : State :=
  { stream 0 3 (xy 8 0) with
    pace := 0, cmd := 0x51, busy := true, done := false, seq := .pgAgain, running := some (.probprime false) }

/-- 95 program P7: STATUS while BUSY, with C and ERR masked out; XL keeps its content. -/
theorem test_read_busy :
    p7.statusBusy 0 &&& 0x1B = 0x19 ∧ p7.statusBusy 0xFFFFFFFF &&& 0x1B = 0x19 ∧
    nextIs (fun t => t.hostOut == [8#32]) (step { p7 with hostQueue := [.read 1] }) = true := by decide +kernel

/-- 95 program P7: writes while BUSY are ignored, CMD's too. -/
theorem test_write_busy :
    nextIs (fun t => t.xl == 8 && t.busy) (step { p7 with hostQueue := [.write 1 0x10] }) = true ∧
    nextIs (fun t => t.cmd == 0x51 && t.busy) (step { p7 with hostQueue := [.write 12 0] }) = true := by decide +kernel

/-- 20 R56, 10 R20: a store, an ignored write, a reserved index. -/
theorem test_write_idle :
    nextIs (fun t => t.checks == 9) (step { init with hostQueue := [.write 7 9] }) = true ∧
    nextIs (fun t => t.pl == 0 && t.status == 0x1A#32) (step { init with hostQueue := [.write 13 9] }) = true ∧
    nextIs (fun t => t.hostOut == [0#32]) (step { init with hostQueue := [.read 15] }) = true := by decide

/-- 30 R76: `wait` stays while the command runs and ends when DONE reads 1. -/
theorem test_wait :
    nextIs (fun t => t.hostQueue == [.wait] && t.busy) (step { p7 with hostQueue := [.wait] }) = true ∧
    nextIs (fun t => t.hostQueue == []) (step { init with hostQueue := [.wait] }) = true := by decide +kernel

/-- 70 R300: reset ends a running search. -/
theorem test_reset_busy : nextIs (fun t => t.status == 0 && t.xl == 0 && t.seq == .idle && t.rngIn.length == 3)
    (step { p7 with hostQueue := [.reset] }) = true := by decide

/-- 95 program P5, `dh_compute_key` on the prime of P3 (47 R247). -/
theorem test_dhComputeKey :
    (match dhComputeKey 8 ⟨⟨2, 0x00C5480F, 0x0062A407⟩, 0x002034FE, 0x000003F4⟩ 0x00333F61 init with
      | .value v _ => v
      | _ => 0) = 0x006D3153#32 := by decide +kernel

/-- 47 R247: a shared secret of 1 is refused with code 4. -/
theorem test_dhComputeKey_degenerate :
    (match dhComputeKey 8 ⟨⟨2, 0x00C5480F, 0x0062A407⟩, 0x002034FE, 0x000003F4⟩ 1 init with
      | .error c _ => c
      | _ => 0) = 4#4 := by decide +kernel

/-- 47 R250, 00 R10: `rsa_keygen` fails at once for 3 bits and for 32 bits, and draws nothing (log 21). -/
theorem test_rsaKeygen_refused :
    (match rsaKeygen 8 3 65537 1 init with
      | .error c t => (c, t.rngCalls)
      | _ => (0, 1)) = (1#4, 0) ∧
    (match rsaKeygen 8 32 65537 1 init with
      | .error c t => (c, t.rngCalls)
      | _ => (0, 1)) = (1#4, 0) := by decide +kernel

/-! ### The invariant holds in the states used below -/

theorem inv_init : Inv init where
  spLength := by decide
  pow2Length := by decide
  modsLength := by decide
  spContent := fun _ => rfl
  pow2Content := fun _ => rfl
  errCode := by decide
  idle := fun _ => ⟨rfl, rfl⟩
  busy := fun h => by cases h

/-- The operands, the coming random words and the pace do not enter the invariant of an idle state. -/
theorem inv_idle (x y : Word32) (words : List Word32) (n : Nat) :
    Inv { xy x y with rngIn := words, pace := n } where
  spLength := by simp [xy, init, smallPrimes]
  pow2Length := by simp [xy, init, powersOfTwo]
  modsLength := by simp [xy, init, State.reset]
  spContent := fun _ => rfl
  pow2Content := fun _ => rfl
  errCode := by simp [xy, init, State.reset]
  idle := fun _ => ⟨rfl, rfl⟩
  busy := fun h => by cases h

/-- PROBPRIME's request of `n` bits passes the preconditions. -/
theorem request_probprime {s : State} (h : BitsOk s.xl.toNat false) : RequestOk (.probprime false) s := by
  refine ⟨h, ?_, ?_⟩ <;> (rintro ⟨_, e⟩; cases e)

theorem inv_p7 : Inv p7 where
  spLength := by decide
  pow2Length := by decide
  modsLength := by decide
  spContent := fun _ => rfl
  pow2Content := fun _ => rfl
  errCode := by decide
  idle := fun h => by cases h
  busy := fun _ => ⟨rfl, ⟨rfl, rfl⟩, by decide, request_probprime (s := p7) (by decide)⟩

/-- A search about to return 769, a prime of 10 bits. -/
def final : State :=
  { xy 10 0 with
    cmd := 0x51, busy := true, done := false, seq := .pgFinal, running := some (.probprime false),
    cand := 769, mods := smallPrimes.map fun p => BitVec.ofNat 9 (769 % p.toNat) }

theorem not_inClass {add : Word32} : ¬ inClass (.probprime false) add := by
  rintro (⟨_, e⟩ | ⟨⟨_, e⟩, _⟩) <;> cases e

theorem inv_final : Inv final where
  spLength := by decide
  pow2Length := by decide
  modsLength := by decide
  spContent := fun _ => rfl
  pow2Content := fun _ => rfl
  errCode := by decide
  idle := fun h => by cases h
  busy := fun _ => ⟨rfl, ⟨rfl, rfl⟩, by decide, request_probprime (s := final) (by decide),
    ⟨by decide, by decide, ⟨fun h => absurd h not_inClass, fun _ => by decide⟩, by decide⟩, by decide⟩

/-! ### For every statement that has hypotheses, a state and operands that meet them; for several clauses, each clause -/

theorem witness_DecodeIsTheInverseOfEncode : Instr.wellFormed (.genprime true) = true := by decide

theorem witness_StepRunsTheDecodedCommand :
    ({ init with hostQueue := [.write 12 2] } : State).busy = false ∧
    ({ init with hostQueue := [.write 12 2] } : State).hostQueue = .write 12 2 :: [] ∧
    decode 2 = some .add32 := by decide

/-- The ends of the unused opcode ranges, bit 8 on format N, bit 9 on format S (30 R75). -/
theorem illegal_words :
    ([0x0A, 0x10, 0x17, 0x1A, 0x20, 0x24, 0x2F, 0x34, 0x40, 0x43, 0x50, 0x54, 0x5F, 0x62, 0xFF, 0x100, 0x253] :
      List Word32).all (fun w => decide (IllegalWord w)) = true := by decide

/-- The legal words beside them. -/
theorem legal_words :
    ([0x00, 0x09, 0x11, 0x16, 0x18, 0x19, 0x21, 0x23, 0x30, 0x33, 0x41, 0x42, 0x51, 0x153, 0x60, 0x61] :
      List Word32).all (fun w => decide (¬ IllegalWord w)) = true := by decide

theorem witness_IllegalWordEndsWithIllegalCommand :
    let s := { init with hostQueue := [.write 12 0x17] }
    s.busy = false ∧ s.hostQueue = .write 12 0x17 :: [] ∧ IllegalWord 0x17 := ⟨rfl, rfl, by decide⟩

theorem ready_init : Ready init := ⟨rfl, rfl⟩

theorem witness_Cmp32ComparesUnsigned :
    (Ready (xy 5 7) ∧ (xy 5 7).xl.toNat < (xy 5 7).yl.toNat) ∧ (Ready (xy 7 7) ∧ (xy 7 7).xl = (xy 7 7).yl) ∧
    (Ready (xy 8 7) ∧ ¬ (xy 8 7).xl.toNat ≤ (xy 8 7).yl.toNat) := by decide

theorem witness_Add32GivesSumAndCarry : Ready (xy 0xFFFFFFFF 1) := by decide

theorem witness_Sub32GivesDifferenceAndBorrow : Ready (xy 0xFFFFFFFF 1) := by decide

theorem witness_Neg32Negates : Ready (xy 0xFFFFFFFF 1) := by decide

theorem witness_Srl32ShiftsRight :
    (Ready (xy 9 32) ∧ 32 ≤ (xy 9 32).yl.toNat) ∧ (Ready (xy 9 31) ∧ ¬ 32 ≤ (xy 9 31).yl.toNat) := by decide

theorem witness_Sll32ShiftsLeft :
    (Ready (xy 9 32) ∧ 32 ≤ (xy 9 32).yl.toNat) ∧ (Ready (xy 9 31) ∧ ¬ 32 ≤ (xy 9 31).yl.toNat) := by decide

theorem witness_Srl64ShiftsRight :
    (Ready (xy 9 64) ∧ 64 ≤ (xy 9 64).yl.toNat) ∧ (Ready (xy 9 63) ∧ ¬ 64 ≤ (xy 9 63).yl.toNat) := by decide

theorem witness_Sll64ShiftsLeft :
    (Ready (xy 9 64) ∧ 64 ≤ (xy 9 64).yl.toNat) ∧ (Ready (xy 9 63) ∧ ¬ 64 ≤ (xy 9 63).yl.toNat) := by decide

theorem witness_Mul32GivesTheExactProduct : Ready (xy 0xFFFFFFFF 0xFFFFFFFF) := by decide

theorem witness_Bitlen32IsTheBitLength : Ready (xy 0xFFFFFFFF 0xFFFFFFFF) := by decide

theorem witness_Cmp64ComparesUnsigned : Ready (wide 1 0 0 0xFFFFFFFF) := by decide

theorem witness_Add64GivesSumAndCarry : Ready (wide 1 0 0 0xFFFFFFFF) := by decide

theorem witness_Sub64GivesDifferenceAndBorrow : Ready (wide 1 0 0 0xFFFFFFFF) := by decide

theorem witness_Neg64Negates : Ready (wide 1 0 0 0xFFFFFFFF) := by decide

theorem witness_Bitlen64IsTheBitLength : Ready (wide 1 0 0 0xFFFFFFFF) := by decide

theorem witness_Divrem32Divides :
    (Ready (xy 5 0) ∧ (xy 5 0).yl = 0) ∧ (Ready (xy 5 1) ∧ (xy 5 1).yl ≠ 0) := by decide

theorem witness_Divrem64Divides :
    (Ready (wide 5 5 0 0) ∧ value64 (wide 5 5 0 0).yh (wide 5 5 0 0).yl = 0) ∧
    (Ready (wide 5 5 0 1) ∧ value64 (wide 5 5 0 1).yh (wide 5 5 0 1).yl ≠ 0) := by decide

theorem witness_MulmodMultipliesModulo :
    (Ready (xym 3 4 0) ∧ (xym 3 4 0).m = 0) ∧ (Ready (xym 3 4 1) ∧ (xym 3 4 1).m ≠ 0) := by decide

theorem witness_ExpmodRaisesModulo :
    (Ready (xym 2 0 0) ∧ (xym 2 0 0).m = 0) ∧ (Ready (xym 2 0 1) ∧ (xym 2 0 1).m ≠ 0 ∧ (xym 2 0 1).yl = 0) ∧
    (Ready (xym 2 1 1) ∧ (xym 2 1 1).m ≠ 0 ∧ (xym 2 1 1).yl ≠ 0) := by decide

theorem witness_InvmodGivesTheInverseOrReportsNone :
    (Ready (xym 1 0 2) ∧ 2 ≤ (xym 1 0 2).m.toNat ∧ Nat.gcd (xym 1 0 2).xl.toNat (xym 1 0 2).m.toNat = 1) ∧
    (Ready (xym 3 0 7) ∧ 2 ≤ (xym 3 0 7).m.toNat ∧ Nat.gcd (xym 3 0 7).xl.toNat (xym 3 0 7).m.toNat = 1) ∧
    (Ready (xym 3 0 1) ∧ (xym 3 0 1).m.toNat ≤ 1) ∧
    (Ready (xym 0 0 2) ∧ Nat.gcd (xym 0 0 2).xl.toNat (xym 0 0 2).m.toNat ≠ 1) := by decide

theorem witness_InvalidParameterHasExactlyTheListedCauses :
    (Ready (xy 5 0) ∧ (∃ t, exec .divrem32 (xy 5 0) = .next t ∧ t.err = 1) ∧ BadOperands .divrem32 (xy 5 0)) ∧
    (Ready (xy 5 2) ∧ (∃ t, exec .mrround (xy 5 2) = .next t ∧ t.err = 0) ∧ ¬ BadOperands .mrround (xy 5 2)) :=
  ⟨⟨by decide, exists_next (by decide +kernel), rfl⟩,
    ⟨by decide, exists_next (by decide +kernel), by unfold BadOperands; decide⟩⟩

theorem witness_Rand32ComposesThreeWords : Ready init := ready_init

theorem witness_RandbitsTakesTheLowBits :
    (Ready (xy 32 0) ∧ (xy 32 0).xl.toNat ≤ 32) ∧ (Ready (xy 33 0) ∧ ¬ (xy 33 0).xl.toNat ≤ 32) := by decide

theorem witness_RandrangeTakesTheFirstValueInRange :
    (let s := stream 0 3 (xy 5 0)
     Ready s ∧ s.xl ≠ 0 ∧ 0 < 100 ∧ 0 ≤ s.pace ∧ (∀ j < 0, s.xl.toNat ≤ attempt s s.xl.toNat j) ∧
      attempt s s.xl.toNat 0 < s.xl.toNat) ∧
    (let s := { xy 5 0 with rngIn := List.replicate 297 0x3FFFFFFF ++ [0, 0, 0] }
     Ready s ∧ s.xl ≠ 0 ∧ 99 < 100 ∧ 99 ≤ s.pace ∧ (∀ j < 99, s.xl.toNat ≤ attempt s s.xl.toNat j) ∧
      attempt s s.xl.toNat 99 < s.xl.toNat) := by decide +kernel

theorem witness_RandrangeFails :
    (Ready (xy 0 0) ∧ (xy 0 0).xl = 0) ∧
    (let s := stream 0x3FFFFFFF 300 (xy 5 0)
     Ready s ∧ s.xl ≠ 0 ∧ 99 ≤ s.pace ∧ ∀ j < 100, s.xl.toNat ≤ attempt s s.xl.toNat j) := by decide +kernel

theorem witness_IsprimeSettlesByTrialDivision :
    (let s := xy 1 0
     ReadyTables s ∧ s.checks ≠ 0 ∧ 64 ≤ s.pace ∧ s.xl.toNat ≤ 1) ∧
    (let s := xy 311 0
     ReadyTables s ∧ s.checks ≠ 0 ∧ 64 ≤ s.pace ∧ ∃ p ∈ tablePrimes, p ∣ s.xl.toNat) := by
  refine ⟨by decide, by decide, by decide, by decide, 311, by decide, by decide⟩

/-! Strong probable primes, from the one decomposition `w - 1 = 2^a * m` with `m` odd. -/

/-- The decomposition decides the test, since it is unique. -/
theorem strong_iff {w b a m : Nat} (h : w - 1 = 2 ^ a * m) (hm : m % 2 = 1) :
    StrongProbablePrime w b ↔ (b ^ m % w = 1 ∨ ∃ t < a, b ^ (2 ^ t * m) % w = w - 1) := by
  refine ⟨?_, fun hp => ⟨a, m, h, hm, hp⟩⟩
  rintro ⟨a', m', h', hm', hp⟩
  have low : ∀ {x y u v : Nat}, x < y → v % 2 = 1 → 2 ^ x * v ≠ 2 ^ y * u := by
    intro x y u v hxy hv e
    obtain ⟨d, rfl⟩ := Nat.exists_eq_add_of_lt hxy
    rw [show x + d + 1 = x + (d + 1) from rfl, Nat.pow_add, Nat.mul_assoc] at e
    have := Nat.eq_of_mul_eq_mul_left (Nat.two_pow_pos x) e
    rw [Nat.pow_succ, Nat.mul_right_comm, Nat.mul_comm] at this
    omega
  obtain rfl : a' = a := by
    rcases Nat.lt_trichotomy a' a with hlt | heq | hgt
    · exact absurd (h'.symm.trans h) (low hlt hm')
    · exact heq
    · exact absurd (h.symm.trans h') (low hgt hm)
  obtain rfl : m' = m := Nat.eq_of_mul_eq_mul_left (Nat.two_pow_pos a') (h'.symm.trans h)
  exact hp

theorem strong_313 : StrongProbablePrime 313 2 :=
  (strong_iff (a := 3) (m := 39) (by decide +kernel) (by decide)).mpr (by decide +kernel)

theorem strong_769 : StrongProbablePrime 769 2 :=
  (strong_iff (a := 8) (m := 3) (by decide +kernel) (by decide)).mpr (by decide +kernel)

theorem strong_839 : StrongProbablePrime 839 2 :=
  (strong_iff (a := 1) (m := 419) (by decide +kernel) (by decide)).mpr (by decide +kernel)

theorem strong_419 : StrongProbablePrime 419 2 :=
  (strong_iff (a := 1) (m := 209) (by decide +kernel) (by decide)).mpr (by decide +kernel)

theorem strong_98317 : StrongProbablePrime 98317 2 :=
  (strong_iff (a := 2) (m := 24579) (by decide +kernel) (by decide)).mpr (by decide +kernel)

/-- `99221 = 313 * 317`, no factor in the table. -/
theorem not_strong_99221 : ¬ StrongProbablePrime 99221 2 := fun h => absurd
  ((strong_iff (a := 2) (m := 24805) (by decide +kernel) (by decide)).mp h) (by decide +kernel)

/-- `1194649 = 1093^2` passes to base 2 and fails to base 3. -/
theorem strong_1194649 : StrongProbablePrime 1194649 2 ∧ ¬ StrongProbablePrime 1194649 3 :=
  ⟨(strong_iff (a := 3) (m := 149331) (by decide +kernel) (by decide)).mpr (by decide +kernel), fun h => absurd
    ((strong_iff (a := 3) (m := 149331) (by decide +kernel) (by decide)).mp h) (by decide +kernel)⟩

/-- One round on `w`, whose first base drawn is `b` and passes. -/
theorem round_passed {s : State} {w j b : Nat} (ha : attempt s (w - 3) j + 2 = b) (hw : b < w - 1)
    (h : StrongProbablePrime w b) : RoundsPassed s w 1 j (j + 1) :=
  ⟨0, ⟨by decide, by simp, by show attempt s (w - 3) j < w - 3; omega⟩,
    by show StrongProbablePrime w (attempt s (w - 3) j + 2); rwa [ha], rfl⟩

/-- The round after `r` passed ones fails at its first base `b`. -/
theorem round_fails {s : State} {w j j1 r b : Nat} (hr : r < s.checks.toNat) (hp : RoundsPassed s w r j j1)
    (ha : attempt s (w - 3) j1 + 2 = b) (hw : b < w - 1) (h : ¬ StrongProbablePrime w b) :
    RoundFails s w j (j1 + 1) :=
  ⟨r, hr, j1, 0, hp, ⟨by decide, by simp, by show attempt s (w - 3) j1 < w - 3; omega⟩,
    by show ¬ StrongProbablePrime w (attempt s (w - 3) j1 + 2); rwa [ha], rfl⟩

/-- All rounds pass; a round fails, the first or a later one; a draw exhausts. -/
theorem witness_IsprimeGivesTheOutcomeOfItsRounds :
    (let s := stream 0 3 (xy 313 0)
     ReadyTables s ∧ s.checks ≠ 0 ∧ 1 < s.xl.toNat ∧ (∀ p ∈ tablePrimes, ¬ p ∣ s.xl.toNat) ∧
      66 + 32 * s.checks.toNat + 1 ≤ s.pace ∧ RoundsPassed s s.xl.toNat s.checks.toNat 0 1) ∧
    (let s := stream 0 3 (xy 99221 0)
     ReadyTables s ∧ s.checks ≠ 0 ∧ 1 < s.xl.toNat ∧ (∀ p ∈ tablePrimes, ¬ p ∣ s.xl.toNat) ∧
      66 + 32 * s.checks.toNat + 1 ≤ s.pace ∧ RoundFails s s.xl.toNat 0 1) ∧
    (let s := { xy 1194649 0 with checks := 2, rngIn := [0, 0, 0, 0, 0, 0x00100000] }
     ReadyTables s ∧ s.checks ≠ 0 ∧ 1 < s.xl.toNat ∧ (∀ p ∈ tablePrimes, ¬ p ∣ s.xl.toNat) ∧
      66 + 32 * s.checks.toNat + 2 ≤ s.pace ∧ RoundFails s s.xl.toNat 0 2) ∧
    (let s := stream 0x3FFFFFFF 300 (xy 313 0)
     ReadyTables s ∧ s.checks ≠ 0 ∧ 1 < s.xl.toNat ∧ (∀ p ∈ tablePrimes, ¬ p ∣ s.xl.toNat) ∧
      66 + 32 * s.checks.toNat + 100 ≤ s.pace ∧ DrawExhausts s s.xl.toNat 0 100) :=
  ⟨⟨by decide, by decide, by decide, by decide, by decide,
      round_passed (b := 2) (by decide +kernel) (by decide) strong_313⟩,
    ⟨by decide, by decide, by decide, by decide +kernel, by decide,
      round_fails (j1 := 0) (r := 0) (b := 2) (by decide) rfl (by decide +kernel) (by decide) not_strong_99221⟩,
    ⟨by decide, by decide, by decide, by decide +kernel, by decide,
      round_fails (j1 := 1) (r := 1) (b := 3) (by decide)
        (round_passed (b := 2) (by decide +kernel) (by decide) strong_1194649.1) (by decide +kernel) (by decide)
        strong_1194649.2⟩,
    ⟨by decide, by decide, by decide, by decide, by decide, 0, by decide, 0, rfl, by decide +kernel, rfl⟩⟩

theorem witness_IsprimeAlwaysEnds :
    ReadyTables (xy 313 0) ∧ (xy 313 0).checks ≠ 0 ∧ 65 + 133 * (xy 313 0).checks.toNat ≤ (xy 313 0).pace := by decide

/-- ISPRIME running on `x`, at its first state, on the stream `Z`. -/
def testing (x : Word32) : State :=
  { stream 0 3 (xy x 0) with
    cmd := 0x41, busy := true, done := false, seq := .ipPre, running := some .isprime,
    mr := ⟨x, 0, 0, 0, 0, 0⟩ }

theorem inv_testing (x : Word32) : Inv (testing x) where
  spLength := by simp [testing, stream, xy, init, smallPrimes]
  pow2Length := by simp [testing, stream, xy, init, powersOfTwo]
  modsLength := by simp [testing, stream, xy, init, State.reset]
  spContent := fun _ => rfl
  pow2Content := fun _ => rfl
  errCode := by simp [testing, stream, xy, init, State.reset]
  idle := fun h => by cases h
  busy := fun _ => ⟨rfl, ⟨rfl, rfl⟩, by show some Instr.isprime = decode 0x41#32; decide, trivial, rfl, rfl⟩

theorem witness_IsprimeNeverCallsAPrimeComposite :
    (let s := stream 0 3 (xy 313 0)
     Nat.Prime s.xl.toNat ∧ ReadyTables s ∧ ∃ t, exec .isprime s = .next t ∧ t.busy = false ∧ t.err = 0) ∧
    (let s := testing 313
     Nat.Prime s.xl.toNat ∧ Inv s ∧ s.busy = true ∧ s.running = some .isprime ∧ NoReset s ∧
      ∃ t, step s = .next t ∧ t.busy = false ∧ t.err = 0) :=
  ⟨⟨by show Nat.Prime 313; norm_num, by decide, exists_next (by decide +kernel)⟩,
    ⟨by show Nat.Prime 313; norm_num, inv_testing 313, rfl, rfl, by decide, exists_next (by decide +kernel)⟩⟩

theorem witness_IsprimeIsExactBelow97344 :
    (let s := xy 97343 0
     s.xl.toNat < 97344 ∧ ReadyTables s ∧ ∃ t, exec .isprime s = .next t ∧ t.busy = false ∧ t.err = 0) ∧
    (let s := testing 97343
     s.xl.toNat < 97344 ∧ Inv s ∧ s.busy = true ∧ s.running = some .isprime ∧ NoReset s ∧
      ∃ t, step s = .next t ∧ t.busy = false ∧ t.err = 0) :=
  ⟨⟨by decide, by decide, exists_next (by decide +kernel)⟩,
    ⟨by decide, inv_testing 97343, rfl, rfl, by decide, exists_next (by decide +kernel)⟩⟩

theorem witness_MrroundMakesOneWitnessTest :
    (let s := xy 5 3
     Ready s ∧ s.xl.toNat % 2 = 1 ∧ 5 ≤ s.xl.toNat ∧ 2 ≤ s.yl.toNat ∧ s.yl.toNat ≤ s.xl.toNat - 2) ∧
    (Ready (xy 6 2) ∧ (xy 6 2).xl.toNat % 2 = 0) ∧ (Ready (xy 3 2) ∧ (xy 3 2).xl.toNat < 5) ∧
    (Ready (xy 5 1) ∧ (xy 5 1).yl.toNat < 2) ∧ (Ready (xy 5 4) ∧ (xy 5 4).xl.toNat - 2 < (xy 5 4).yl.toNat) := by decide

/-- From the first draw, without and with bumps. -/
theorem witness_ProbprimeReturnsTheFirstClearValue :
    (let s := stream 0 3 (xy 10 0)
     ReadyTables s ∧ BitsOk s.xl.toNat false ∧ SearchFinds s false false 0 0 0 769 ∧ 68 * (0 + 1) + 66 * 0 ≤ s.pace) ∧
    (let s := stream 0 3 (xy 10 0)
     ReadyTables s ∧ BitsOk s.xl.toNat true ∧ SearchFinds s true false 0 0 17 839 ∧
      68 * (0 + 1) + 66 * 17 ≤ s.pace) := by
  refine ⟨⟨by decide, by decide, ?_, by decide⟩, ⟨by decide, by decide, ?_, by decide⟩⟩ <;>
    (unfold SearchFinds; decide +kernel)

/-- The draw 1023 is abandoned: its first clear value 1031 has 11 bits, or MAXDELTA is passed before it. -/
theorem witness_ProbprimeReturnsTheFirstClearValue_redraw :
    (let s := { xy 10 0 with rngIn := List.replicate 3 0x3FFFFFFF ++ [0, 0, 0] }
     ReadyTables s ∧ BitsOk s.xl.toNat false ∧ SearchFinds s false false 1 0 4 769 ∧
      68 * (1 + 1) + 66 * 4 ≤ s.pace) ∧
    (let s := { xy 10 0 with
       rngIn := List.replicate 3 0x3FFFFFFF ++ [0, 0, 0], params := { Config.Params.default with maxDelta := 7 } }
     ReadyTables s ∧ BitsOk s.xl.toNat false ∧ SearchFinds s false false 1 0 3 769 ∧
      68 * (1 + 1) + 66 * 3 ≤ s.pace) := by
  refine ⟨⟨by decide, by decide, ⟨4, 0, rfl, by decide +kernel, ?_⟩, by decide⟩,
    ⟨by decide, by decide, ⟨3, 0, rfl, by decide +kernel, ?_⟩, by decide⟩⟩ <;>
    (unfold SearchFinds; decide +kernel)

theorem witness_ProbprimedhReturnsTheFirstClearValue :
    let s := stream 0 3 { xy 10 0 with add := 24, rem := 23 }
    ReadyTables s ∧ BitsOk s.xl.toNat true ∧ s.add ≠ 0 ∧ SearchFinds s true true 0 0 2 839 ∧
      68 * (0 + 1) + 66 * 2 ≤ s.pace :=
  ⟨by decide, by decide, by decide, by unfold SearchFinds; decide +kernel, by decide⟩

/-- The first candidate passes: without a class, and in a class in safe mode. -/
theorem witness_GenprimeReturnsAVerifiedCandidate :
    (let s := stream 0 6 (xy 10 0)
     ReadyTables s ∧ BitsOk s.xl.toNat false ∧ s.checks ≠ 0 ∧ s.params.selfExempt = false ∧
      CandidatesFail s false (s.add != 0) 0 0 0 0 ∧ SearchFinds s false (s.add != 0) 0 0 0 769 ∧
      0 + 68 * (0 + 1) + 66 * 0 + (0 + 1) * (136 + 64 * s.checks.toNat) + 2 ≤ s.pace ∧
      CandidatePasses s false 769 (0 + 0 + 1) 2) ∧
    (let s := stream 0 9 { xy 10 0 with add := 24, rem := 23 }
     ReadyTables s ∧ BitsOk s.xl.toNat true ∧ s.checks ≠ 0 ∧ s.params.selfExempt = false ∧
      CandidatesFail s true (s.add != 0) 0 0 0 0 ∧ SearchFinds s true (s.add != 0) 0 0 2 839 ∧
      0 + 68 * (0 + 1) + 66 * 2 + (0 + 1) * (136 + 64 * s.checks.toNat) + 3 ≤ s.pace ∧
      CandidatePasses s true 839 (0 + 0 + 1) 3) :=
  ⟨⟨by decide, by decide, by decide, by decide, ⟨rfl, rfl⟩, by unfold SearchFinds; decide +kernel, by decide,
      2, round_passed (b := 2) (by decide +kernel) (by decide) strong_769, rfl⟩,
    ⟨by decide, by decide, by decide, by decide, ⟨rfl, rfl⟩, by unfold SearchFinds; decide +kernel, by decide,
      2, round_passed (b := 2) (by decide +kernel) (by decide) strong_839,
      round_passed (b := 2) (by decide +kernel) (by decide) strong_419⟩⟩

/-- The first candidate, `99221 = 313 * 317`, is refused, and the second passes. -/
theorem witness_GenprimeReturnsAVerifiedCandidate_refused :
    let s := { xy 17 0 with rngIn := [0, 0x03000000, 0x39500000, 0, 0, 0, 0, 0, 0, 0, 0, 0] }
    ReadyTables s ∧ BitsOk s.xl.toNat false ∧ s.checks ≠ 0 ∧ s.params.selfExempt = false ∧
      CandidatesFail s false (s.add != 0) 1 0 2 68 ∧ SearchFinds s false (s.add != 0) 0 2 6 98317 ∧
      68 + 68 * (0 + 1) + 66 * 6 + (1 + 1) * (136 + 64 * s.checks.toNat) + 4 ≤ s.pace ∧
      CandidatePasses s false 98317 (2 + 0 + 1) 4 :=
  ⟨by decide, by decide, by decide, by decide,
    ⟨0, 0, 99221, 2, 0, rfl, by unfold SearchFinds; decide +kernel,
      .inl (round_fails (j1 := 1) (r := 0) (b := 2) (by decide) rfl (by decide +kernel) (by decide) not_strong_99221),
      rfl, rfl⟩,
    by unfold SearchFinds; decide +kernel, by decide,
    4, round_passed (b := 2) (by decide +kernel) (by decide) strong_98317, rfl⟩

/-- The first candidate's verification is inconclusive. -/
theorem witness_GenprimeReturnsAVerifiedCandidate_inconclusive :
    let s := { xy 10 0 with rngIn := [0, 0, 0] ++ List.replicate 300 0x3FFFFFFF }
    ReadyTables s ∧ BitsOk s.xl.toNat false ∧ s.checks ≠ 0 ∧ s.params.selfExempt = false ∧
      CandidatesFail s false (s.add != 0) 0 0 0 0 ∧ SearchFinds s false (s.add != 0) 0 0 0 769 ∧
      0 + 68 * (0 + 1) + 66 * 0 + (0 + 1) * (136 + 64 * s.checks.toNat) + 101 ≤ s.pace ∧
      CandidateInconclusive s false 769 (0 + 0 + 1) 101 :=
  ⟨by decide, by decide, by decide, by decide, ⟨rfl, rfl⟩, by unfold SearchFinds; decide +kernel, by decide,
    .inl ⟨0, by decide, 1, rfl, by decide +kernel, rfl⟩⟩

theorem witness_BadRequestsAreRefused :
    (Ready (xy 1 0) ∧ ¬ BitsOk (xy 1 0).xl.toNat false) ∧ (Ready (xy 32 0) ∧ ¬ BitsOk (xy 32 0).xl.toNat false) ∧
    (Ready (xy 5 0) ∧ ¬ BitsOk (xy 5 0).xl.toNat true) ∧ (Ready (xy 16 0) ∧ (xy 16 0).add = 0) ∧
    (Ready { xy 16 0 with checks := 0 } ∧ ({ xy 16 0 with checks := 0 } : State).checks = 0) := by decide

theorem isSearch_probprime : IsSearch (.probprime false) := ⟨false, .inl rfl⟩

theorem witness_SearchResultsAreClean :
    (IsSearch (.probprime false) ∧ final.params.selfExempt = false ∧ Inv final ∧ final.busy = true ∧
      final.running = some (.probprime false) ∧ NoReset final ∧
      ∃ t, step final = .next t ∧ t.busy = false ∧ t.err = 0) ∧
    (let s := { xy 10 0 with rngIn := [0, 0, 0], pace := 4096 }
     IsSearch (.probprime false) ∧ s.params.selfExempt = false ∧ Inv s ∧ s.busy = false ∧
      ∃ t, exec (.probprime false) { s with cmd := encode (.probprime false) } = .next t ∧
        t.busy = false ∧ t.err = 0) :=
  ⟨⟨isSearch_probprime, rfl, inv_final, rfl, rfl, by decide, exists_next (by decide +kernel)⟩,
    ⟨isSearch_probprime, rfl, inv_idle 10 0 _ _, rfl, exists_next (by decide +kernel)⟩⟩

theorem witness_SmallRequestsNeverEnd :
    (IsSearch (.probprime false) ∧ p7.params.selfExempt = false ∧ Inv p7 ∧ RequestOk (.probprime false) p7 ∧
      p7.xl.toNat ≤ 8 ∧ p7.busy = true ∧ p7.running = some (.probprime false) ∧ NoReset p7 ∧
      ∃ t, step p7 = .next t ∧ t.busy = true) ∧
    (let s := { xy 8 0 with rngIn := [0, 0, 0], pace := 9 }
     s.params.selfExempt = false ∧ Inv s ∧ RequestOk (.probprime false) s ∧ s.xl.toNat ≤ 8 ∧ s.busy = false ∧ Ready s ∧
      ∃ t, exec (.probprime false) { s with cmd := encode (.probprime false) } = .next t ∧ t.busy = true) :=
  ⟨⟨isSearch_probprime, rfl, inv_p7, request_probprime (by decide), by decide, rfl, rfl, by decide,
      exists_next (by decide +kernel)⟩,
    ⟨rfl, inv_idle 8 0 _ _, request_probprime (by decide), by decide, rfl, ready_init, exists_next (by decide +kernel)⟩⟩

theorem witness_CommandsBeforeSetupAreRefused :
    (¬ IsExempt .add32 ∧ ¬ Ready { init with ipt := false }) ∧ (¬ IsExempt .add32 ∧ ¬ Ready { init with isp := false }) ∧
    IsExempt .seedrng := by decide

theorem witness_OperandsAndTablesAreKept :
    (∃ t, exec .initpt init = .next t ∧ t.ipt = true) ∧ (∃ t, exec .initsp init = .next t ∧ t.isp = true) ∧
    (∃ t, engineTurn final = .next t ∧ t.busy = false) :=
  ⟨exists_next (by decide), exists_next (by decide), exists_next (by decide +kernel)⟩

theorem witness_ErrorsAreThoseOfTheCommand :
    (∃ t, exec .invmod (xym 2 0 4) = .next t ∧ t.busy = false ∧ t.err = 3) ∧
    (Inv final ∧ final.busy = true ∧ final.running = some (.probprime false) ∧
      ∃ t, engineTurn final = .next t ∧ t.busy = false) :=
  ⟨exists_next (by decide +kernel), inv_final, rfl, rfl, exists_next (by decide +kernel)⟩

theorem witness_CarryComesFromAddAndSubtractOnly :
    (∃ t, exec .sub32 (xy 0 1) = .next t ∧ t.busy = false ∧ t.carry = true) ∧
    (final.busy = true ∧ ∃ t, engineTurn final = .next t ∧ t.busy = false) :=
  ⟨exists_next (by decide), rfl, exists_next (by decide +kernel)⟩

theorem witness_RandomWordsComeByThrees :
    (¬ Draws .add32 ∧ .add32 ≠ Instr.seedrng ∧ ∃ t, exec .add32 (xy 1 2) = .next t ∧ t.rngCalls = 0) ∧
    (∃ t, exec .rand32 (stream 0 4 init) = .next t ∧ t.rngCalls = 3) ∧
    (∃ t, engineTurn p7 = .next t ∧ t.rngCalls = 3) ∧
    (Inv p7 ∧ p7.busy = true ∧ p7.running = some (.probprime false)) := by
  refine ⟨⟨?_, by decide, exists_next (by decide)⟩, exists_next (by decide), exists_next (by decide +kernel),
    inv_p7, rfl, rfl⟩
  rintro (e | e | e | e | ⟨_, e | e | e⟩) <;> cases e

theorem witness_WorkingStateCarriesNothing :
    xy 1 2 ≠ { xy 1 2 with pl := 9, err := 3, delta := 5, mods := [] } ∧
    carried (xy 1 2) = carried { xy 1 2 with pl := 9, err := 3, delta := 5, mods := [] } ∧
    ∃ t, exec .add32 (xy 1 2) = .next t ∧ t.busy = false :=
  ⟨by decide, rfl, exists_next (by decide)⟩

theorem witness_WritesWhileBusyAreIgnored :
    p7.busy = true ∧ ∃ t, step { p7 with hostQueue := .write 12 0 :: [] } = .next t ∧ t.busy = true :=
  ⟨rfl, exists_next (by decide +kernel)⟩

theorem witness_ReadsWhileBusy :
    p7.busy = true ∧ (7 : RegIndex).toNat < 8 ∧ (12 : RegIndex).toNat = 12 ∧ (13 : RegIndex).toNat = 13 ∧
    14 ≤ (14 : RegIndex).toNat := by decide

theorem witness_ReadsWhileIdle : init.busy = false ∧ init.hostQueue = [] := by decide

theorem witness_WritesWhileIdle :
    init.busy = false ∧ (8 ≤ (8 : RegIndex).toNat ∧ (8 : RegIndex).toNat ≠ 12) ∧
    (8 ≤ (15 : RegIndex).toNat ∧ (15 : RegIndex).toNat ≠ 12) := by decide

theorem witness_EveryStepKeepsTheInvariant : Inv p7 ∧ ∃ t, step p7 = .next t ∧ t.busy = true :=
  ⟨inv_p7, exists_next (by decide +kernel)⟩

theorem witness_NoStepStopsTheMachine : Inv p7 ∧ Inv init := ⟨inv_p7, inv_init⟩

end Sys2Proof.Tests
end

/-! What one transition, one turn of the engine and one command leave unchanged, whatever the state is: the registers,
tables and port fields that no transition writes, and the flags at a command's end. -/

namespace Sys2Proof.Proofs

open Sys2Proof.Machine Sys2Proof.Safety Sys2Proof.Laws

/-! ### Predicates on outcomes -/

/-- `P` holds of the next state, when there is one. -/
def Always (P : State → Prop) (o : Out) : Prop := ∀ t, o = .next t → P t

@[simp] theorem always_next {P : State → Prop} {t : State} : Always P (.next t) ↔ P t := by simp [Always]

@[simp] theorem always_fault {P : State → Prop} {r : Fault} : Always P (.fault r) ↔ True := by simp [Always]

theorem always_divide {P : State → Prop} {s : State} {a b : Word64} {k : DivWork → State → Out}
    (h : ∀ d, Always P (k d { s with div := d })) : Always P (s.divide a b k) := fun t ht => by
  obtain ⟨hb, hk⟩ := divide_next ht
  exact h _ t hk

theorem always_inSearch {P : State → Prop} {s : State} {body : Bool → Out} (h : ∀ safe, Always P (body safe)) :
    Always P (s.inSearch body) := fun t ht => by
  obtain ⟨safe, _, hb⟩ := inSearch_next ht
  exact h safe t hb

theorem always_runSeq {P : State → Prop} (hP : ∀ s, P s → s.busy = true → Always P (seqStep s)) {s : State} (hs : P s)
    (n : Nat) : Always P (runSeq n s) := fun _ ht =>
  runSeq_keeps (fun s t h hb hst => hP s h hb t hst) hs ht

/-! ### What no transition writes -/

/-- A state without what a transition may write (10 R23, R28, R35, R36, R37): what is left, no transition writes. -/
def fixed (s : State) : State :=
  { carried s with
    seq := .idle, busy := false, done := false, running := none, verify := .none, rngIn := [], rngCalls := 0 }

/-- What can be read off a view of the state is equal in two states of which the views are equal. -/
theorem eq_of_view {α : Type} {view : State → State} {s t : State} (h : view t = view s) (f : State → α)
    (hf : ∀ u, f (view u) = f u := by intro; rfl) : f t = f s := by rw [← hf t, h, hf]

/-- Of what the statements name, a transition leaves all these as they were. -/
theorem kept_of_fixed {s t : State} (h : fixed t = fixed s) :
    hostRegs t = hostRegs s ∧ t.isp = s.isp ∧ t.sp = s.sp ∧ t.ipt = s.ipt ∧ t.pow2 = s.pow2 ∧
    t.hostQueue = s.hostQueue ∧ t.hostOut = s.hostOut ∧ t.params = s.params :=
  ⟨eq_of_view h hostRegs, eq_of_view h State.isp, eq_of_view h State.sp, eq_of_view h State.ipt,
    eq_of_view h State.pow2, eq_of_view h State.hostQueue, eq_of_view h State.hostOut, eq_of_view h State.params⟩

/-- No command runs, and ERR is a code that the block writes (10 R23, R30, 60 R270, R278). -/
def Stopped (t : State) : Prop :=
  t.busy = false ∧ t.seq = .idle ∧ t.running = none ∧ t.err.toNat < 8 ∧ t.err ≠ 4

theorem stopped_finish (u : State) (ph pl qh ql : Word32) (c : Bool) : Stopped (u.finish ph pl qh ql c) :=
  ⟨rfl, rfl, rfl, by simp, by simp⟩

theorem stopped_raise (u : State) {e : ErrKind} (he : e ≠ .degenerateSharedSecret) : Stopped (u.raise e) := by
  refine ⟨rfl, rfl, rfl, ?_⟩
  rw [raise_err]
  cases e with
  | degenerateSharedSecret => exact absurd rfl he
  | invalidParameter | samplingExhausted | noInverseExists | primalityInconclusive | illegalCommand
  | notInitialised => decide

/-- What transitions of a running command can lead to from `s`: the command still runs, or it has ended with C = 0. -/
def Turn (s t : State) : Prop := fixed t = fixed s ∧ (t.busy = true ∨ Stopped t ∧ t.carry = false)

theorem turn_busy {s u : State} (h : fixed u = fixed s) (hb : u.busy = true) : Turn s u := ⟨h, .inl hb⟩

theorem turn_finish32 {s u : State} (h : fixed u = fixed s) (pl : Word32) : Turn s (u.finish32 pl) :=
  ⟨h, .inr ⟨stopped_finish u 0 pl 0 0 false, rfl⟩⟩

theorem turn_raise {s u : State} (h : fixed u = fixed s) {e : ErrKind} (he : e ≠ .degenerateSharedSecret) :
    Turn s (u.raise e) := ⟨h, .inr ⟨stopped_raise u he, rfl⟩⟩

theorem fixed_randBits (s : State) (n : Nat) : fixed (s.randBits n).2 = fixed s := by
  rw [randBits_state]
  rfl

theorem busy_randBits (s : State) (n : Nat) : (s.randBits n).2.busy = s.busy := by
  rw [randBits_state]
  rfl

/-! ### The transitions -/

theorem verdict_turn {s u : State} {prime : Bool} (h : fixed u = fixed s) (hb : u.busy = true) :
    Always (Turn s) (u.verdict prime) := by
  intro t ht
  rcases verdict_next ht with ⟨_, rfl⟩ | ⟨_, _, ⟨_, _, _, rfl⟩ | ⟨_, _, _, rfl⟩ | ⟨_, _, rfl⟩ | ⟨_, _, rfl⟩⟩
  · exact turn_finish32 h _
  · exact turn_busy h hb
  · exact turn_finish32 h _
  · exact turn_finish32 h _
  · exact turn_busy h hb

theorem roundPassed_turn {s u : State} {j : Nat} (h : fixed u = fixed s) (hb : u.busy = true) :
    Always (Turn s) (u.roundPassed j) := by
  intro t ht
  rcases roundPassed_next ht with ⟨_, rfl⟩ | ⟨_, hv⟩
  · exact turn_busy h hb
  · exact verdict_turn h hb t hv

theorem beginDraw_turn {s u : State} {range : Word32} (h : fixed u = fixed s) (hb : u.busy = true) :
    Turn s (u.beginDraw range) := by
  rcases beginDraw_cases u range with ⟨_, e⟩ | ⟨_, e⟩ <;> rw [e]
  · exact turn_raise h (by decide)
  · exact turn_busy h hb

theorem drawAccepted_turn {s u : State} {v : Word32} (h : fixed u = fixed s) (hb : u.busy = true) :
    Always (Turn s) (u.drawAccepted v) := by
  intro t ht
  rcases drawAccepted_next ht with ⟨_, rfl⟩ | ⟨_, rfl⟩
  · exact turn_finish32 h _
  · exact turn_busy h hb

theorem drawExhausted_turn {s u : State} (h : fixed u = fixed s) : Always (Turn s) u.drawExhausted := by
  intro t ht
  rcases drawExhausted_next ht with ⟨_, rfl⟩ | ⟨_, rfl⟩
  · exact turn_raise h (by decide)
  · exact turn_raise h (by decide)

section
variable {s : State} (hb : s.busy = true)
include hb

theorem stepRrTry_turn (k : Nat) : Always (Turn s) (stepRrTry k s) := by
  have hf := fixed_randBits s s.draw.width
  have hb' := (busy_randBits s s.draw.width).trans hb
  simp only [stepRrTry]
  split_ifs
  · exact drawAccepted_turn hf hb'
  · exact always_next.mpr (turn_busy hf hb')
  · exact drawExhausted_turn hf

theorem stepIpPre_turn : Always (Turn s) (stepIpPre s) := by
  unfold stepIpPre
  split_ifs
  · exact always_next.mpr (turn_raise rfl (by decide))
  · exact verdict_turn rfl hb
  · exact verdict_turn rfl hb
  · exact verdict_turn rfl hb
  · exact always_next.mpr (turn_busy rfl hb)

theorem stepIpTrial_turn (i : Nat) : Always (Turn s) (stepIpTrial i s) := by
  refine always_divide fun d => ?_
  dsimp only
  split_ifs
  · exact verdict_turn rfl hb
  · exact always_next.mpr (turn_busy rfl hb)
  · exact always_next.mpr (turn_busy rfl hb)

theorem stepIpPower_turn (j : Nat) : Always (Turn s) (stepIpPower j s) := by
  simp only [stepIpPower]
  split_ifs
  · exact always_fault.mpr trivial
  · exact roundPassed_turn rfl hb
  · exact always_next.mpr (turn_busy rfl hb)
  · exact verdict_turn rfl hb

theorem stepIpSquare_turn (j k : Nat) : Always (Turn s) (stepIpSquare j k s) := by
  simp only [stepIpSquare]
  split_ifs
  · exact always_fault.mpr trivial
  · exact roundPassed_turn rfl hb
  · exact verdict_turn rfl hb
  · exact always_next.mpr (turn_busy rfl hb)
  · exact verdict_turn rfl hb

theorem stepPgCheck_turn : Always (Turn s) (stepPgCheck s) := by
  refine always_inSearch fun safe => ?_
  split
  · exact always_next.mpr (turn_raise rfl (by decide))
  · split
    · split_ifs
      · exact always_next.mpr (turn_raise rfl (by decide))
      · exact always_next.mpr (turn_busy rfl hb)
    · split_ifs
      · exact always_next.mpr (turn_raise rfl (by decide))
      · exact always_next.mpr (turn_busy rfl hb)
    · exact always_next.mpr (turn_busy rfl hb)

theorem stepPgAgain_turn : Always (Turn s) (stepPgAgain s) := by
  have hf := fixed_randBits s s.bits
  have hb' := (busy_randBits s s.bits).trans hb
  refine always_inSearch fun safe => ?_
  dsimp only
  split_ifs
  · exact always_divide fun d => always_next.mpr (turn_busy hf hb')
  · exact always_next.mpr (turn_busy hf hb')

theorem stepPgResidue_turn : Always (Turn s) (stepPgResidue s) := by
  refine always_inSearch fun safe => ?_
  split
  · exact always_fault.mpr trivial
  · exact always_next.mpr (turn_busy rfl hb)

theorem stepPgSieve_turn (i : Nat) : Always (Turn s) (stepPgSieve i s) := by
  refine always_inSearch fun safe => always_divide fun d => ?_
  dsimp only
  split_ifs
  · exact always_next.mpr (turn_busy rfl hb)
  · exact always_next.mpr (turn_busy rfl hb)
  · exact always_next.mpr (turn_busy rfl hb)

theorem stepPgBump_turn : Always (Turn s) (stepPgBump s) := by
  refine always_inSearch fun safe => ?_
  split_ifs
  · exact always_next.mpr (turn_busy rfl hb)
  · exact always_next.mpr (turn_busy rfl hb)

theorem stepPgFinal_turn : Always (Turn s) (stepPgFinal s) := by
  refine always_inSearch fun safe => ?_
  dsimp only
  split_ifs
  · exact always_next.mpr (turn_busy rfl hb)
  · split
    · exact always_next.mpr (turn_busy rfl hb)
    · exact always_next.mpr (turn_finish32 rfl _)

omit hb in
/-- The search's transitions that only move on. -/
theorem inSearch_goTo_turn {u : State} (h : fixed u = fixed s) (hu : u.busy = true) :
    Always (Turn s) (s.inSearch fun _ => .next u) :=
  always_inSearch fun _ => always_next.mpr (turn_busy h hu)

/-- One transition of a running command writes no register, table or flag of the setup; at a command's end C = 0. -/
theorem seqStep_turn : Always (Turn s) (seqStep s) := by
  unfold seqStep
  cases s.seq with
  | idle => exact always_next.mpr (turn_busy rfl hb)
  | exec => exact always_fault.mpr trivial
  | rrTry k => exact stepRrTry_turn hb k
  | ipPre => exact stepIpPre_turn hb
  | ipTrial i => exact stepIpTrial_turn hb i
  | ipFactor => exact always_next.mpr (turn_busy rfl hb)
  | ipRound j drawn =>
    cases drawn with
    | false => exact always_next.mpr (beginDraw_turn rfl hb)
    | true => exact stepIpPower_turn hb j
  | ipSquare j k => exact stepIpSquare_turn hb j k
  | pgCheck => exact stepPgCheck_turn hb
  | pgAgain => exact stepPgAgain_turn hb
  | pgResidue => exact stepPgResidue_turn hb
  | pgLoop => exact inSearch_goTo_turn rfl hb
  | pgSieve i => exact stepPgSieve_turn hb i
  | pgBump => exact stepPgBump_turn hb
  | pgFinal => exact stepPgFinal_turn hb
  | gpCall => exact inSearch_goTo_turn rfl hb
  | gpVerifyP => exact inSearch_goTo_turn rfl hb
  | gpVerifyQ => exact inSearch_goTo_turn rfl hb

end

/-! ### The engine's turn -/

theorem engineTurn_turn {s u : State} (h : Turn s u) : Always (Turn s) (engineTurn u) :=
  always_runSeq (fun v hv hb t ht => by
    obtain ⟨hf, hend⟩ := seqStep_turn hb t ht
    exact ⟨hf.trans hv.1, hend⟩) h _

theorem engineTurn_idle {s : State} (h : s.busy = false) : engineTurn s = .next s := runSeq_idle h _

theorem engineTurn_fixed {s t : State} (h : engineTurn s = .next t) : fixed t = fixed s := by
  cases hb : s.busy with
  | false =>
    rw [engineTurn_idle hb] at h
    cases h
    rfl
  | true => exact (engineTurn_turn (turn_busy rfl hb) t h).1

/-! ### The kinds of commands -/

/-- The commands that run through the sequencer's named states (10 R30). -/
abbrev IsLoop (i : Instr) : Prop := i = .randrange ∨ i = .isprime ∨ IsSearch i

/-- A command that ends in its one transition and hands nothing to the setup or to the seed port. -/
abbrev IsOnce (i : Instr) : Prop := ¬ IsLoop i ∧ i ≠ .initsp ∧ i ≠ .initpt ∧ i ≠ .seedrng

/-- The case split of the proofs about every command: three commands that have an equation each, the commands with
named states, and the others. -/
theorem instr_kinds {motive : Instr → Prop} (initsp : motive .initsp) (initpt : motive .initpt)
    (seedrng : motive .seedrng) (loop : ∀ i, IsLoop i → motive i) (once : ∀ i, IsOnce i → motive i) (i : Instr) :
    motive i := by
  by_cases hi : IsLoop i
  · exact loop i hi
  by_cases hsp : i = .initsp
  · exact hsp ▸ initsp
  by_cases hpt : i = .initpt
  · exact hpt ▸ initpt
  by_cases hseed : i = .seedrng
  · exact hseed ▸ seedrng
  exact once i ⟨hi, hsp, hpt, hseed⟩

/-- SEEDRNG changes the port's seeds and the outcome, and nothing else (43 R161). -/
theorem exec_seedrng (s : State) : exec .seedrng s = .next (ended (s.rngSeed s.xl) 0 0 0 0 false) := rfl

/-- INITSP fills its table, whatever it held (46 R232). -/
theorem exec_initsp (s : State) :
    exec .initsp s = .next { ended s 0 0 0 0 false with sp := smallPrimes, isp := true } := rfl

/-- INITPT fills its table, whatever it held (46 R233). -/
theorem exec_initpt (s : State) :
    exec .initpt s = .next { ended s 0 0 0 0 false with pow2 := powersOfTwo, ipt := true } := rfl

/-! ### The commands of one transition -/

/-- The commands whose end may leave C = 1 (10 R31). -/
abbrev SetsCarry (i : Instr) : Prop := i = .add32 ∨ i = .sub32 ∨ i = .add64 ∨ i = .sub64

/-- A state without what a command of one transition may write. -/
def steady (s : State) : State := { fixed s with mods := s.mods, delta := s.delta, cand := s.cand, draw := s.draw }

theorem fixed_of_steady {s t : State} (h : steady t = steady s) : fixed t = fixed s := eq_of_view h fixed

/-- What a command `i` of one transition leads to from `s`: its end, with C = 0 unless it is an add or a subtract. -/
def Once (i : Instr) (s t : State) : Prop :=
  steady t = steady s ∧ Stopped t ∧ (t.carry = true → SetsCarry i)

theorem once_finish {i : Instr} {s u : State} {ph pl qh ql : Word32} (h : steady u = steady s) :
    Once i s (u.finish ph pl qh ql false) := ⟨h, stopped_finish u ph pl qh ql false, by simp⟩

theorem once_finish_carry {i : Instr} {s u : State} {ph pl qh ql : Word32} {c : Bool} (h : steady u = steady s)
    (hi : SetsCarry i) : Once i s (u.finish ph pl qh ql c) := ⟨h, stopped_finish u ph pl qh ql c, fun _ => hi⟩

theorem once_raise {i : Instr} {s u : State} {e : ErrKind} (h : steady u = steady s)
    (he : e ≠ .degenerateSharedSecret) : Once i s (u.raise e) := ⟨h, stopped_raise u he, by simp⟩

theorem steady_randBits (s : State) (n : Nat) : steady (s.randBits n).2 = steady s := by
  rw [randBits_state]
  rfl

theorem steady_randWord (s : State) : steady s.randWord.2 = steady s := by
  rw [(randWord_spec s).2]
  rfl

/-- A gated command is refused, or does what its body does. -/
theorem always_command {P : State → Prop} {s : State} {i : Instr} {body : State → Out}
    (hrefused : P ((s.start i).raise .notInitialised)) (h : Always P (body (s.start i))) :
    Always P (s.command i body) := by
  rcases command_cases s i body with ⟨_, e⟩ | ⟨_, e⟩ <;> rw [e]
  · exact h
  · exact always_next.mpr hrefused

theorem command_once {s : State} {i : Instr} {body : State → Out} (h : Always (Once i s) (body (s.start i))) :
    Always (Once i s) (s.command i body) :=
  always_command (once_raise rfl (by decide)) h

/-- The common end of a gated command of one transition: its body is one end without error and C = 0. -/
theorem command_finish_once {s : State} {i : Instr} {body : State → Out} {ph pl qh ql : Word32}
    (h : body (s.start i) = .next ((s.start i).finish ph pl qh ql false)) : Always (Once i s) (s.command i body) :=
  command_once (by rw [h]; exact always_next.mpr (once_finish rfl))

/-- Likewise for an add or subtract, whose end may leave C = 1. -/
theorem command_carry_once {s : State} {i : Instr} {body : State → Out} {ph pl qh ql : Word32} {c : Bool}
    (h : body (s.start i) = .next ((s.start i).finish ph pl qh ql c)) (hi : SetsCarry i) :
    Always (Once i s) (s.command i body) :=
  command_once (by rw [h]; exact always_next.mpr (once_finish_carry rfl hi))

/-- The commands that refuse a zero divisor and otherwise end with what the divider gives. -/
theorem command_divide_once {s : State} {i : Instr} {c : State → Prop} [∀ u, Decidable (c u)] {a b : State → Word64}
    {ph pl qh ql : DivWork → Word32} :
    Always (Once i s) (s.command i fun u => if c u then .next (u.raise .invalidParameter)
      else u.divide (a u) (b u) fun d v => .next (v.finish (ph d) (pl d) (qh d) (ql d) false)) := by
  refine command_once ?_
  split_ifs
  · exact always_next.mpr (once_raise rfl (by decide))
  · exact always_divide fun d => always_next.mpr (once_finish rfl)

theorem execExpmod_once (s : State) : Always (Once .expmod s) (execExpmod s) := by
  refine command_once ?_
  split_ifs
  · exact always_next.mpr (once_raise rfl (by decide))
  · exact always_next.mpr (once_finish rfl)

theorem execInvmod_once (s : State) : Always (Once .invmod s) (execInvmod s) := by
  refine command_once ?_
  dsimp only
  split_ifs
  · exact always_next.mpr (once_raise rfl (by decide))
  · split
    · exact always_next.mpr (once_finish rfl)
    · exact always_next.mpr (once_raise rfl (by decide))

theorem execRandbits_once (s : State) : Always (Once .randbits s) (execRandbits s) := by
  refine command_once ?_
  dsimp only
  split_ifs
  · exact always_next.mpr (once_raise rfl (by decide))
  · exact always_next.mpr (once_finish (steady_randBits (s.start .randbits) _))

theorem execMrround_once (s : State) : Always (Once .mrround s) (execMrround s) := by
  refine command_once ?_
  dsimp only
  split_ifs
  · exact always_next.mpr (once_raise rfl (by decide))
  · exact always_next.mpr (once_raise rfl (by decide))
  · exact always_fault.mpr trivial
  · exact always_next.mpr (once_finish rfl)
  · exact always_next.mpr (once_finish rfl)

/-- A command of one transition ends in it, and hands nothing to the setup, the seed port or the candidate state. -/
theorem exec_once (s : State) {i : Instr} (hi : IsOnce i) : Always (Once i s) (exec i s) := by
  obtain ⟨hloop, hsp, hpt, hseed⟩ := hi
  cases i with
  | nop => exact always_next.mpr (once_finish (u := s.start .nop) rfl)
  | cmp32 => unfold exec execCmp32; exact command_finish_once rfl
  | add32 => unfold exec execAdd32; exact command_carry_once rfl (.inl rfl)
  | sub32 => unfold exec execSub32; exact command_carry_once rfl (.inr (.inl rfl))
  | neg32 => unfold exec execNeg32; exact command_finish_once rfl
  | srl32 => unfold exec execSrl32; exact command_finish_once rfl
  | sll32 => unfold exec execSll32; exact command_finish_once rfl
  | mul32 => unfold exec execMul32; exact command_finish_once rfl
  | bitlen32 => unfold exec execBitlen32; exact command_finish_once rfl
  | divrem32 => unfold exec execDivrem32; exact command_divide_once
  | cmp64 => unfold exec execCmp64; exact command_finish_once rfl
  | add64 => unfold exec execAdd64; exact command_carry_once rfl (.inr (.inr (.inl rfl)))
  | sub64 => unfold exec execSub64; exact command_carry_once rfl (.inr (.inr (.inr rfl)))
  | neg64 => unfold exec execNeg64; exact command_finish_once rfl
  | srl64 => unfold exec execSrl64; exact command_finish_once rfl
  | sll64 => unfold exec execSll64; exact command_finish_once rfl
  | bitlen64 => unfold exec execBitlen64; exact command_finish_once rfl
  | divrem64 => unfold exec execDivrem64; exact command_divide_once
  | mulmod => unfold exec execMulmod; exact command_divide_once
  | expmod => exact execExpmod_once s
  | invmod => exact execInvmod_once s
  | seedrng => exact absurd rfl hseed
  | rand32 =>
    unfold exec execRand32
    exact command_once (always_next.mpr (once_finish (steady_randWord (s.start .rand32))))
  | randbits => exact execRandbits_once s
  | randrange => simp at hloop
  | isprime => simp at hloop
  | mrround => exact execMrround_once s
  | probprime safe => simp at hloop
  | probprimedh safe => simp at hloop
  | genprime safe => simp at hloop
  | initsp => exact absurd rfl hsp
  | initpt => exact absurd rfl hpt

/-! ### The commands with named states -/

/-- The state from which the engine takes a loop command's first turn (43 R165, 44 R176, 45 R213). -/
def loopEntry (i : Instr) (s : State) : State :=
  match i with
  | .randrange => (s.start i).beginDraw s.xl
  | .isprime => { s.start i with mr := { s.mr with w := s.xl }, seq := .ipPre }
  | _ => { s.start i with seq := .pgCheck }

/-- All that a loop command's first step can do: it is refused before setup, or the engine takes its turn. -/
theorem exec_loop (s : State) {i : Instr} (hi : IsLoop i) :
    (¬ Ready s ∧ exec i s = .next (failed s 7)) ∨ (Ready s ∧ exec i s = engineTurn (loopEntry i s)) := by
  have key : ∃ body, exec i s = s.command i body ∧ body (s.start i) = engineTurn (loopEntry i s) := by
    rcases hi with rfl | rfl | ⟨safe, rfl | rfl | rfl⟩
    · exact ⟨fun u => engineTurn (u.beginDraw u.opA), rfl, rfl⟩
    · exact ⟨fun u => engineTurn { u with mr := { u.mr with w := u.opA }, seq := .ipPre }, rfl, rfl⟩
    · exact ⟨fun u => engineTurn { u with seq := .pgCheck }, rfl, rfl⟩
    · exact ⟨fun u => engineTurn { u with seq := .pgCheck }, rfl, rfl⟩
    · exact ⟨fun u => engineTurn { u with seq := .pgCheck }, rfl, rfl⟩
  obtain ⟨body, he, hb⟩ := key
  rw [he, ← hb]
  exact (command_cases s i body).symm

theorem loopEntry_turn (s : State) {i : Instr} (hi : IsLoop i) : Turn s (loopEntry i s) := by
  rcases hi with rfl | rfl | ⟨safe, rfl | rfl | rfl⟩
  · exact beginDraw_turn rfl rfl
  · exact turn_busy rfl rfl
  · exact turn_busy rfl rfl
  · exact turn_busy rfl rfl
  · exact turn_busy rfl rfl

theorem exec_loop_turn (s : State) {i : Instr} (hi : IsLoop i) : Always (Turn s) (exec i s) := by
  rcases exec_loop s hi with ⟨_, e⟩ | ⟨_, e⟩ <;> rw [e]
  · exact always_next.mpr (turn_raise (u := s) (e := .notInitialised) rfl (by decide))
  · exact engineTurn_turn (loopEntry_turn s hi)

/-! ### The obligations -/

/-- Settles O4: in an idle block the host's CMD write is `acceptCommand`, which decodes. -/
theorem stepRunsTheDecodedCommand : Obligations.StepRunsTheDecodedCommand := by
  intro s w i rest hidle hq hdec
  simp [step, hq, hostTurn, hostWrite, acceptCommand, hidle, hdec]

/-- The frame of O48, from what a command of any kind but the three with an equation leaves unchanged. -/
theorem frame_of_fixed {s t : State} (i : Instr) (h : fixed t = fixed s) :
    hostRegs t = hostRegs s ∧
    (i ≠ .initsp → t.isp = s.isp ∧ t.sp = s.sp) ∧ (i ≠ .initpt → t.ipt = s.ipt ∧ t.pow2 = s.pow2) ∧
    t.hostQueue = s.hostQueue ∧ t.hostOut = s.hostOut ∧ t.params = s.params := by
  obtain ⟨hregs, hisp, htab, hipt, hpow, hhost⟩ := kept_of_fixed h
  exact ⟨hregs, fun _ => ⟨hisp, htab⟩, fun _ => ⟨hipt, hpow⟩, hhost⟩

/-- Settles O48: the two table commands and SEEDRNG by their equations, every other command and every later turn by what
a transition does not write. -/
theorem operandsAndTablesAreKept : Obligations.OperandsAndTablesAreKept := by
  refine ⟨fun s t i h => ?_, fun s t h => kept_of_fixed (engineTurn_fixed h)⟩
  cases i using instr_kinds with
  | initsp =>
    cases (exec_initsp s).symm.trans h
    exact ⟨rfl, fun hne => absurd rfl hne, fun _ => ⟨rfl, rfl⟩, rfl, rfl, rfl⟩
  | initpt =>
    cases (exec_initpt s).symm.trans h
    exact ⟨rfl, fun _ => ⟨rfl, rfl⟩, fun hne => absurd rfl hne, rfl, rfl, rfl⟩
  | seedrng =>
    cases (exec_seedrng s).symm.trans h
    exact ⟨rfl, fun _ => ⟨rfl, rfl⟩, fun _ => ⟨rfl, rfl⟩, rfl, rfl, rfl⟩
  | loop i hi => exact frame_of_fixed i (exec_loop_turn s hi t h).1
  | once i hi => exact frame_of_fixed i (fixed_of_steady (exec_once s hi t h).1)

theorem carry_of_turn {s t : State} (h : Turn s t) (hidle : t.busy = false) : t.carry = false := by
  rcases h.2 with hb | ⟨_, hc⟩
  · simp [hidle] at hb
  · exact hc

/-- Settles O50: every command but the adds and subtracts, and every later turn, ends with C = 0. -/
theorem carryComesFromAddAndSubtractOnly : Obligations.CarryComesFromAddAndSubtractOnly := by
  refine ⟨fun s t i h hidle hcarry => ?_, fun s t hb h => carry_of_turn (engineTurn_turn (turn_busy rfl hb) t h)⟩
  cases i using instr_kinds with
  | initsp =>
    cases (exec_initsp s).symm.trans h
    cases hcarry
  | initpt =>
    cases (exec_initpt s).symm.trans h
    cases hcarry
  | seedrng =>
    cases (exec_seedrng s).symm.trans h
    cases hcarry
  | loop i hi => simp [carry_of_turn (exec_loop_turn s hi t h) hidle] at hcarry
  | once i hi =>
    obtain ⟨_, _, hsets⟩ := exec_once s hi t h
    exact hsets hcarry

end Sys2Proof.Proofs

/-! What the search computes, as numbers: the table's entries, the preconditions on the bit length, the draw and its
move to a class, the residues under the offset, the sieve's test. -/

namespace Sys2Proof.Proofs

open Sys2Proof.Machine Sys2Proof.Safety Sys2Proof.Laws

/-! ### The table of small primes -/

/-- The `i`-th prime of the table. -/
def tablePrime (i : Nat) : Nat := tablePrimes.getD i 0

theorem smallPrimes_toNat (i : Nat) : (smallPrimes.getD i 0).toNat = tablePrime i := by
  simp only [tablePrime, tablePrimes, List.getD_eq_getElem?_getD, List.getElem?_map]
  cases smallPrimes[i]? <;> rfl

theorem tablePrimes_length : tablePrimes.length = 64 := rfl

theorem mem_tablePrimes {p : Nat} : p ∈ tablePrimes ↔ ∃ i < 64, tablePrime i = p := by
  constructor
  · intro h
    obtain ⟨i, hi, rfl⟩ := List.getElem_of_mem h
    exact ⟨i, hi, List.getD_eq_getElem _ _ hi⟩
  · rintro ⟨i, hi, rfl⟩
    rw [tablePrime, List.getD_eq_getElem _ _ (by rwa [tablePrimes_length])]
    exact List.getElem_mem _

theorem tablePrime_zero : tablePrime 0 = 2 := rfl

/-- All entries but the first are odd, and above 2. -/
theorem tablePrime_odd {i : Nat} (h0 : i ≠ 0) (hi : i < 64) : tablePrime i % 2 = 1 ∧ 3 ≤ tablePrime i := by
  have all : tablePrimes.tail.all (fun p => p % 2 == 1 && 3 ≤ p) = true := by decide
  obtain ⟨j, rfl⟩ := Nat.exists_eq_succ_of_ne_zero h0
  have hj : j < tablePrimes.tail.length := by
    rw [List.length_tail, tablePrimes_length]
    omega
  have : tablePrime (j + 1) = tablePrimes.tail[j] := by
    rw [tablePrime, List.getD_eq_getElem _ _ (by rw [tablePrimes_length]; exact hi), List.getElem_tail]
  rw [this]
  simpa using List.all_eq_true.mp all _ (List.getElem_mem hj)

theorem tablePrime_pos {i : Nat} (hi : i < 64) : 0 < tablePrime i := by
  by_cases h0 : i = 0
  · simp [h0, tablePrime_zero]
  · have := tablePrime_odd h0 hi
    omega

/-- "No prime of the table below index 64" is "no prime of the table". -/
theorem forall_tablePrimes {P : Nat → Prop} : (∀ p ∈ tablePrimes, P p) ↔ ∀ i < 64, P (tablePrime i) := by
  constructor
  · exact fun h i hi => h _ (mem_tablePrimes.mpr ⟨i, hi, rfl⟩)
  · intro h p hp
    obtain ⟨i, hi, rfl⟩ := mem_tablePrimes.mp hp
    exact h i hi

/-- A statement about the entries below `n + 1` is one about those below `n`, and the `n`-th. -/
theorem forall_lt_succ_of {P : Nat → Prop} {n : Nat} (h : ∀ j < n, P j) (hn : P n) : ∀ j < n + 1, P j := fun j hj => by
  rcases Nat.lt_succ_iff_lt_or_eq.mp hj with hlt | rfl
  · exact h j hlt
  · exact hn

theorem zextSmall_prime_toNat {s : State} (hsp : s.sp = smallPrimes) (i : Nat) :
    (zextSmall (s.prime i)).toNat = tablePrime i := by
  rw [zextSmall_toNat, State.prime, hsp, smallPrimes_toNat]

theorem ne_zero_of_toNat_pos {n : Nat} {v : BitVec n} (h : 0 < v.toNat) : v ≠ 0#n := fun e => by simp [e] at h

/-- The divider is never driven with a table entry of 0 (log 11). -/
theorem zextSmall_prime_ne_zero {s : State} (hsp : s.sp = smallPrimes) {i : Nat} (hi : i < 64) :
    zextSmall (s.prime i) ≠ 0#64 :=
  ne_zero_of_toNat_pos (by rw [zextSmall_prime_toNat hsp]; exact tablePrime_pos hi)

/-! ### The request -/

theorem badBits_iff (bits : Nat) (safe : Bool) : badBits bits safe = true ↔ ¬ BitsOk bits safe := by
  have split : badBits bits safe = true ↔ bits < 2 ∨ 31 < bits ∨ safe = true ∧ bits < 6 := by
    simp only [badBits, Bool.or_eq_true, Bool.and_eq_true, decide_eq_true_eq, or_assoc]
    exact Iff.rfl
  rw [split, BitsOk]
  cases safe <;>
    simp only [Bool.false_eq_true, false_and, true_and, false_imp_iff, true_imp_iff, or_false, and_true] <;> omega

theorem inSearch_of_running {s : State} {i : Instr} (hi : IsSearch i) (hr : s.running = some i) (body : Bool → Out) :
    s.inSearch body = body (safeFlag i) := by
  obtain ⟨safe, rfl | rfl | rfl⟩ := hi <;> simp only [State.inSearch, hr, safeFlag]

theorem constrained_iff {s : State} {i : Instr} (hi : IsSearch i) (hr : s.running = some i) :
    s.constrained = true ↔ inClass i s.add := by
  obtain ⟨safe, rfl | rfl | rfl⟩ := hi <;> simp [State.constrained, hr, inClass]

/-! ### The draw -/

theorem remainder_toNat (a b : Word64) (h : b ≠ 0#64) : (divRem64 a b h).r.toNat = a.toNat % b.toNat :=
  (divRem64_spec a b h).2.1


theorem shiftOne_toNat {n : Nat} (h : n < 64) : (1#64 <<< n).toNat = 2 ^ n := by
  rw [BitVec.toNat_shiftLeft, Nat.shiftLeft_eq]
  simpa using Nat.mod_eq_of_lt (Nat.pow_lt_pow_right (a := 2) (by decide) h)

/-- The forced bits (45 R204). -/
theorem forceBits_toNat {bits : Nat} (h : bits ≤ 31) (safe : Bool) (v : Word32) :
    (forceBits bits safe v).toNat = forced bits safe v.toNat := by
  unfold forceBits forced
  cases safe
  · simp [shiftOne_toNat (show bits - 1 < 64 by omega), shiftOne_toNat (show bits - 2 < 64 by omega)]
  · simp [shiftOne_toNat (show bits - 1 < 64 by omega), shiftOne_toNat (show bits - 2 < 64 by omega), Nat.lor_comm]

theorem forced_lt {bits v : Nat} (h : bits ≤ 31) (hv : v < 2 ^ 32) (safe : Bool) : forced bits safe v < 2 ^ 32 := by
  have hp1 : 2 ^ (bits - 1) < 2 ^ 32 := Nat.pow_lt_pow_right (by decide) (by omega)
  have hp2 : 2 ^ (bits - 2) < 2 ^ 32 := Nat.pow_lt_pow_right (by decide) (by omega)
  have hs : (if safe then 2 else 0) < 2 ^ 32 := by split <;> decide
  exact Nat.or_lt_two_pow hs (Nat.or_lt_two_pow (Nat.or_lt_two_pow (Nat.or_lt_two_pow hv hp1) hp2) (by decide))

/-- Bit 0 is forced. -/
theorem forced_odd (bits : Nat) (safe : Bool) (v : Nat) : forced bits safe v % 2 = 1 := by
  unfold forced
  generalize v ||| 2 ^ (bits - 1) ||| 2 ^ (bits - 2) = x
  have e := Nat.or_mod_two_pow (a := if safe then 2 else 0) (b := x ||| 1) (n := 1)
  have e' := Nat.or_mod_two_pow (a := x) (b := 1) (n := 1)
  simp only [Nat.pow_one] at e e'
  rw [e, e']
  rcases Nat.mod_two_eq_zero_or_one x with hx | hx <;> cases safe <;> simp [hx]

/-- In safe mode bit 1 is forced too. -/
theorem forced_safe (bits v : Nat) : forced bits true v % 4 = 3 := by
  unfold forced
  generalize v ||| 2 ^ (bits - 1) ||| 2 ^ (bits - 2) = x
  have e := Nat.or_mod_two_pow (a := 2) (b := x ||| 1) (n := 2)
  have e' := Nat.or_mod_two_pow (a := x) (b := 1) (n := 2)
  norm_num at e e'
  rw [if_pos rfl, e, e']
  have hx : x % 4 < 4 := Nat.mod_lt _ (by decide)
  interval_cases x % 4 <;> rfl

/-- The move to the class (45 R205) is exact: the remainder by `a` becomes that of `r`. -/
theorem moved_toNat {c d r a : Word64} (hc : c.toNat < 2 ^ 32) (hd : d.toNat = c.toNat % a.toNat)
    (hr : r.toNat < 2 ^ 32) : (c - d + r).toNat = c.toNat - c.toNat % a.toNat + r.toNat := by
  have hle : d.toNat ≤ c.toNat := hd ▸ Nat.mod_le _ _
  rw [BitVec.toNat_add, BitVec.toNat_sub_of_le (BitVec.le_def.mpr hle), hd]
  exact Nat.mod_eq_of_lt (by omega)

theorem moved_mod (c r a : Nat) : (c - c % a + r) % a = r % a := by
  have hdvd : a ∣ c - c % a := Nat.dvd_sub_mod c
  obtain ⟨q, hq⟩ := hdvd
  rw [hq, Nat.mul_add_mod]

/-! ### The sieve -/

theorem residues_table (c : Word64) :
    ∃ ms, residues c smallPrimes = some ms ∧ ms.length = 64 ∧
      ms.map BitVec.toNat = tablePrimes.map (c.toNat % ·) := by
  have hne : smallPrimes.all (· != 0#9) = true := by decide
  obtain ⟨ms, hms, hmap⟩ := residues_spec c smallPrimes fun p hp => by simpa using List.all_eq_true.mp hne p hp
  refine ⟨ms, hms, ?_, ?_⟩
  · rw [← List.length_map (f := BitVec.toNat), hmap, List.length_map]
    rfl
  · rw [hmap, tablePrimes, List.map_map]
    rfl

theorem getD_mods {ms : List SmallWord} {c n : Nat} (hn : n < 64)
    (h : ms.map BitVec.toNat = tablePrimes.map (c % ·)) : (ms.getD n 0).toNat = c % tablePrime n := by
  have hl : n < tablePrimes.length := by rwa [tablePrimes_length]
  have hget := congrArg (·[n]?) h
  simp only [List.getElem?_map, List.getElem?_eq_getElem hl, Option.map_some, Option.map_eq_some_iff] at hget
  obtain ⟨m, hm, hmn⟩ := hget
  rw [List.getD_eq_getElem?_getD, hm, tablePrime, List.getD_eq_getElem _ _ hl]
  exact hmn

/-- The residue of `c + delta` from that of `c` (45 R208). -/
theorem sieve_residue {m : SmallWord} {delta : Word32} {p : Word64} (hp : p ≠ 0#64) {c : Nat}
    (hm : m.toNat = c % p.toNat) :
    (divRem64 (zextSmall m + zext64 delta) p hp).r.toNat = (c + delta.toNat) % p.toNat := by
  have hml := m.isLt
  have hdl := delta.isLt
  have hsum : (zextSmall m + zext64 delta).toNat = m.toNat + delta.toNat := by
    rw [BitVec.toNat_add, zextSmall_toNat, zext64_toNat]
    exact Nat.mod_eq_of_lt (by omega)
  rw [remainder_toNat, hsum, hm, Nat.mod_add_mod]

theorem sieved_toNat {s : State} (h : s.cand.toNat < 2 ^ 34) : s.sieved.toNat = s.cand.toNat + s.delta.toNat := by
  have hd := s.delta.isLt
  rw [State.sieved, BitVec.toNat_add, zext64_toNat]
  exact Nat.mod_eq_of_lt (by omega)

theorem mod_eq_one_iff_dvd_half {V P : Nat} (hP : P % 2 = 1) (hP3 : 3 ≤ P) (hV : V % 2 = 1) :
    V % P = 1 ↔ P ∣ (V - 1) / 2 := by
  have hhalf : V - 1 = 2 * ((V - 1) / 2) := by omega
  have hcop : Nat.Coprime P 2 := Nat.coprime_two_right.mpr (Nat.odd_iff.mpr hP)
  constructor
  · intro h
    have hd : P ∣ V - 1 := ⟨V / P, by have := Nat.div_add_mod V P; omega⟩
    rw [hhalf] at hd
    exact hcop.dvd_of_dvd_mul_left hd
  · rintro ⟨q, hq⟩
    have : V = P * (2 * q) + 1 := by rw [Nat.mul_left_comm, ← hq]; omega
    rw [this, Nat.mul_add_mod, Nat.mod_eq_of_lt (by omega)]

/-- `(v - 1)/2` on the datapath, for odd `v`. -/
theorem half_toNat {v : Word64} (h : 1 ≤ v.toNat) : ((v - 1) >>> 1).toNat = (v.toNat - 1) / 2 := by
  rw [BitVec.toNat_ushiftRight, BitVec.toNat_sub_of_le (BitVec.le_def.mpr (by simpa using h)),
    Nat.shiftRight_eq_div_pow]
  rfl

/-- The safe mode's test on the residue is the one on `(v - 1)/2` (45 R207, R208): for the entry 2 by bits 1 and 0 of
`v`; for an odd entry because the entry 2 has cleared `v` before. -/
theorem safe_test_iff {exempt : Bool} {i : Nat} (hi : i < 64) {t v : Word64} (ht : t.toNat = v.toNat % tablePrime i)
    (h2 : i ≠ 0 → ¬ Hits exempt true 2 v.toNat) :
    (if i = 0 then v.extractLsb' 0 2 == 1#2 else t == 1) = true ↔
      v.toNat % 2 = 1 ∧ tablePrime i ∣ (v.toNat - 1) / 2 := by
  by_cases h0 : i = 0
  · subst h0
    have hbits : v.extractLsb' 0 2 = 1#2 ↔ v.toNat % 4 = 1 := by
      rw [← BitVec.toNat_inj]
      simp
    rw [if_pos rfl, beq_iff_eq, hbits, tablePrime_zero]
    omega
  · obtain ⟨hodd, h3⟩ := tablePrime_odd h0 hi
    have htest : t = 1 ↔ v.toNat % tablePrime i = 1 := by
      rw [← ht, ← BitVec.toNat_inj]
      rfl
    rw [if_neg h0, beq_iff_eq, htest]
    rcases Nat.mod_two_eq_zero_or_one v.toNat with heven | hv
    · have hv2 : v.toNat = 2 := by
        by_contra hne
        exact h2 h0 (.inl ⟨Nat.dvd_of_mod_eq_zero heven, fun h => hne h.2⟩)
      rw [hv2, Nat.mod_eq_of_lt (by omega)]
      simp
    · simp only [hv, true_and]
      exact mod_eq_one_iff_dvd_half hodd h3 hv

/-- The sieve's test on the residue is the rule's (45 R207). -/
theorem sieveHits_iff {exempt safe : Bool} {i : Nat} (hi : i < 64) {p t v : Word64} (hp : p.toNat = tablePrime i)
    (ht : t.toNat = v.toNat % p.toNat) (h2 : i ≠ 0 → ¬ Hits exempt safe 2 v.toNat) :
    sieveHits exempt safe i p t v = true ↔ Hits exempt safe (tablePrime i) v.toNat := by
  have hzero : t = 0 ↔ tablePrime i ∣ v.toNat := by
    rw [← hp, Nat.dvd_iff_mod_eq_zero, ← ht, ← BitVec.toNat_inj]
    rfl
  have hself : v = p ↔ v.toNat = tablePrime i := by rw [← BitVec.toNat_inj, hp]
  have hhalf : v.toNat % 2 = 1 → ((v - 1) >>> 1 = p ↔ (v.toNat - 1) / 2 = tablePrime i) := fun hv => by
    rw [← BitVec.toNat_inj, hp, half_toNat (by omega)]
  rw [hp] at ht
  unfold sieveHits Hits
  cases safe with
  | false => simp only [Bool.false_and, Bool.or_false, Bool.and_eq_true, beq_iff_eq, Bool.not_eq_true', hzero, hself,
      Bool.and_eq_false_imp, beq_eq_false_iff_ne, ne_eq, not_and, Bool.false_eq_true, false_and, or_false]
  | true =>
    have htest := safe_test_iff hi ht h2
    simp only [Bool.or_eq_true, Bool.and_eq_true, Bool.not_eq_true', htest, beq_iff_eq, hzero, Bool.true_and, true_and,
      Bool.and_eq_false_imp, beq_eq_false_iff_ne, ne_eq, hself, not_and, and_assoc]
    refine or_congr Iff.rfl (and_congr_right fun hv => and_congr_right fun _ => ?_)
    rw [hhalf hv]

/-- The step of the bump as a number (45 R209). -/
theorem bumpStep_toNat {s : State} {i : Instr} (hi : IsSearch i) (hr : s.running = some i) :
    (inClass i s.add ∧ (s.bumpStep (safeFlag i)).toNat = s.add.toNat) ∨
    (¬ inClass i s.add ∧ (s.bumpStep (safeFlag i)).toNat = if safeFlag i then 4 else 2) := by
  unfold State.bumpStep
  by_cases hc : s.constrained = true
  · exact .inl ⟨(constrained_iff hi hr).mp hc, by rw [if_pos hc]⟩
  · refine .inr ⟨fun h => hc ((constrained_iff hi hr).mpr h), ?_⟩
    rw [if_neg hc]
    cases safeFlag i <;> rfl

/-- A bump keeps what the draw and the move guarantee (45 R209). -/
theorem candidateOk_bump {s : State} {i : Instr} (hi : IsSearch i) (hr : s.running = some i) {v : Nat}
    (h : CandidateOk i s v) : CandidateOk i s (v + (s.bumpStep (safeFlag i)).toNat) := by
  obtain ⟨hclass, hfree⟩ := h
  rcases bumpStep_toNat hi hr with ⟨hc, e⟩ | ⟨hc, e⟩ <;> rw [e]
  · exact ⟨fun _ => by rw [Nat.add_mod_right, hclass hc], fun hn => absurd hc hn⟩
  · refine ⟨fun hin => absurd hin hc, fun _ => ?_⟩
    obtain ⟨hodd, hsafe⟩ := hfree hc
    cases hs : safeFlag i with
    | false => exact ⟨by simp; omega, by simp⟩
    | true =>
      have := hsafe hs
      exact ⟨by simp; omega, fun _ => by simp; omega⟩

end Sys2Proof.Proofs

/-! Every transition of a running command keeps the invariant, and so does every step. First the tester's transitions
and those of the search, each with all that it can lead to; then the running commands; then the host's actions. -/

namespace Sys2Proof.Proofs

open Sys2Proof.Machine Sys2Proof.Safety Sys2Proof.Laws

/-- There is a next state, and `P` holds of it. -/
def Goes (P : State → Prop) (o : Out) : Prop := ∃ t, o = .next t ∧ P t

theorem goes_next {P : State → Prop} {t : State} (h : P t) : Goes P (.next t) := ⟨t, rfl, h⟩

theorem Goes.always {P : State → Prop} {o : Out} (h : Goes P o) : Always P o := fun t ht => by
  obtain ⟨u, hu, hP⟩ := h
  cases hu.symm.trans ht
  exact hP

/-! ### The draw of a range -/

theorem toNat_sub_one {w : Word32} (h : w ≠ 0#32) : (w - 1#32).toNat = w.toNat - 1 :=
  BitVec.toNat_sub_of_le (BitVec.le_def.mpr (toNat_pos h))

theorem toNat_sub_three {w : Word32} (h : 3 < w.toNat) : (w - 3).toNat = w.toNat - 3 :=
  BitVec.toNat_sub_of_le (BitVec.le_def.mpr h.le)

/-- All that RR_TRY(k) can do: accept a value below the range, try again, or give up (43 R166). -/
theorem stepRrTry_cases (k : Nat) (s : State) :
    (∃ v < s.draw.range, stepRrTry k s = (afterCalls s 3).drawAccepted v) ∨
    (k < 100 ∧ stepRrTry k s = .next { afterCalls s 3 with seq := .rrTry (k + 1) }) ∨
    stepRrTry k s = (afterCalls s 3).drawExhausted := by
  simp only [stepRrTry, randBits_state, Config.rangeAttempts]
  split_ifs with hv hk
  · exact .inl ⟨_, hv, rfl⟩
  · exact .inr (.inl ⟨hk, rfl⟩)
  · exact .inr (.inr rfl)

/-- A draw that begins is under way (43 R165). -/
theorem drawOk_begin (s : State) {range : Word32} (h : range ≠ 0) :
    DrawOk { s with draw := ⟨range, bitLen (range - 1)⟩, seq := .rrTry 1 } range 1 := by
  exact ⟨by decide, by decide, h, rfl, by rw [bitLen_eq_size, ← toNat_sub_one h]; rfl⟩

/-! ### The primality tester -/

/-- A state without what the tester's transitions may write; the number under test stays. -/
def offTester (s : State) : State :=
  { s with
    seq := .idle, draw := ⟨0, 0⟩, div := ⟨0, 0, 0, 0⟩, exp := ⟨0, 0, 0⟩, mr := ⟨s.mr.w, 0, 0, 0, 0, 0⟩,
    rngIn := [], rngCalls := 0 }

/-- What a transition of the tester can lead to from `s`: it goes on in its states, gives a verdict, or raises. -/
def TesterNext (s : State) (o : Out) : Prop :=
  ∃ u, offTester u = offTester s ∧
    ((o = .next u ∧ TesterOk u) ∨ (∃ prime, o = u.verdict prime) ∨
      ∃ e, e ≠ .degenerateSharedSecret ∧ o = .next (u.raise e))

theorem testerNext_goesOn {s u : State} (h : offTester u = offTester s) (hu : TesterOk u) : TesterNext s (.next u) :=
  ⟨u, h, .inl ⟨rfl, hu⟩⟩

theorem testerNext_verdict {s u : State} {prime : Bool} (h : offTester u = offTester s) :
    TesterNext s (u.verdict prime) := ⟨u, h, .inr (.inl ⟨prime, rfl⟩)⟩

theorem testerNext_raise {s u : State} {e : ErrKind} (h : offTester u = offTester s)
    (he : e ≠ .degenerateSharedSecret) : TesterNext s (.next (u.raise e)) := ⟨u, h, .inr (.inr ⟨e, he, rfl⟩)⟩

theorem stepIpPre_next (s : State) : TesterNext s (stepIpPre s) := by
  unfold stepIpPre
  split_ifs with hchecks hsmall heven hthree
  · exact testerNext_raise rfl (by decide)
  · exact testerNext_verdict rfl
  · exact testerNext_verdict rfl
  · exact testerNext_verdict rfl
  · have hodd : s.mr.w.toNat % 2 = 1 := (getLsbD_zero_iff _).mp (by simpa using heven)
    have h1 : ¬ s.mr.w.toNat ≤ 1 := hsmall
    have h3 : s.mr.w.toNat ≠ 3 := fun e => hthree (BitVec.eq_of_toNat_eq e)
    have hw : 3 < s.mr.w.toNat := by omega
    exact testerNext_goesOn rfl ⟨by decide, hodd, hw, hchecks, fun j hj => absurd hj (Nat.not_lt_zero j)⟩

theorem stepIpTrial_next {s : State} {i : Nat} (hsp : s.sp = smallPrimes) (hs : s.seq = .ipTrial i) (h : TesterOk s) :
    TesterNext s (stepIpTrial i s) := by
  simp only [TesterOk, hs] at h
  obtain ⟨hi, hodd, h3, hchecks, hnone⟩ := h
  have hp := zextSmall_prime_ne_zero hsp hi
  rw [stepIpTrial, divide_of_ne hp]
  split_ifs with hr hlast
  · exact testerNext_verdict rfl
  all_goals
    have hndvd : ¬ tablePrime i ∣ s.mr.w.toNat := fun hd => hr (BitVec.eq_of_toNat_eq (by
      rw [remainder_toNat, zext64_toNat, zextSmall_prime_toNat hsp, Nat.mod_eq_zero_of_dvd hd]
      rfl))
    have hnone' := forall_lt_succ_of hnone hndvd
  · exact testerNext_goesOn rfl ⟨by omega, hodd, h3, hchecks, hnone'⟩
  · have hi' : i + 1 = 64 := by omega
    rw [hi'] at hnone'
    exact testerNext_goesOn rfl ⟨hodd, h3, hchecks, forall_tablePrimes.mpr hnone'⟩

theorem stepIpFactor_next {s : State} (h : Entered s) : TesterNext s (stepIpFactor s) := by
  obtain ⟨_, h3, hchecks, _⟩ := id h
  obtain ⟨hfac, hm⟩ := factorTwos_spec s.mr.w (by omega)
  exact testerNext_goesOn rfl ⟨h, hfac, hm, le_refl 1, toNat_pos hchecks⟩

/-- In the rounds the number under test is above 3, so a base can be drawn and the exponentiator has its modulus. -/
theorem above_three_of_factored {s : State} {j : Nat} (h : Factored s j) : 3 < s.mr.w.toNat := by
  obtain ⟨⟨_, h3, _, _⟩, _⟩ := h
  exact h3

theorem stepIpDraw_next {s : State} {j : Nat} (h : Factored s j) : TesterNext s (stepIpDraw j s) := by
  have h3 := above_three_of_factored h
  have hne : s.mr.w - 3 ≠ 0 := ne_zero_of_toNat_pos (by rw [toNat_sub_three h3]; omega)
  rw [stepIpDraw, State.beginDraw, if_neg hne]
  exact testerNext_goesOn rfl ⟨h, drawOk_begin { s with mr := { s.mr with round := j } } hne⟩

/-- The commands in which the tester runs (44 R186, 45 R218). -/
def Tests (s : State) : Prop := s.running = some .isprime ∨ ∃ safe, s.running = some (.genprime safe)

/-- An accepted attempt gives the round's base, in `[2, w - 2]` (44 R181). -/
theorem stepIpTry_next {s : State} {k : Nat} (hrun : Tests s) (hs : s.seq = .rrTry k) (h : TesterOk s) :
    TesterNext s (stepRrTry k s) := by
  simp only [TesterOk, hs] at h
  obtain ⟨hfac, hk1, hk, hne, hrange, hwidth⟩ := h
  have h3 := above_three_of_factored hfac
  have accepted (v : Word32) : (afterCalls s 3).drawAccepted v = .next
      { afterCalls s 3 with mr := { s.mr with b := v + 2 }, seq := .ipRound s.mr.round true } := by
    rcases hrun with hr | ⟨safe, hr⟩ <;> simp [State.drawAccepted, hr]
  have exhausted : (afterCalls s 3).drawExhausted = .next ((afterCalls s 3).raise .primalityInconclusive) := by
    rcases hrun with hr | ⟨safe, hr⟩ <;> simp [State.drawExhausted, hr]
  rcases stepRrTry_cases k s with ⟨v, hv, e⟩ | ⟨hlt, e⟩ | e <;> rw [e]
  · rw [hrange, BitVec.lt_def, toNat_sub_three h3] at hv
    have hw := s.mr.w.isLt
    have hb : (v + 2).toNat = v.toNat + 2 := by
      rw [BitVec.toNat_add]
      exact Nat.mod_eq_of_lt (by simp; omega)
    rw [accepted]
    refine testerNext_goesOn rfl ⟨hfac, ?_⟩
    show 2 ≤ (v + 2).toNat ∧ (v + 2).toNat ≤ s.mr.w.toNat - 2
    omega
  · exact testerNext_goesOn rfl ⟨hfac, by omega, by omega, hne, hrange, hwidth⟩
  · rw [exhausted]
    exact testerNext_raise rfl (by decide)

/-- A passed round goes on with the next, or with the verdict (44 R180). -/
theorem roundPassed_testerNext {s u : State} {j : Nat} (h : offTester u = offTester s) (hu : Factored u j) :
    TesterNext s (u.roundPassed j) := by
  unfold State.roundPassed
  split_ifs with hj
  · obtain ⟨hent, hfac, hm, _, _⟩ := hu
    exact testerNext_goesOn h ⟨hent, hfac, hm, by omega, hj⟩
  · exact testerNext_verdict h

theorem toNat_ne_one {z : Word32} (h : z ≠ 1#32) : z.toNat ≠ 1 := fun e => h (BitVec.eq_of_toNat_eq e)

theorem toNat_ne_sub_one {w z : Word32} (hw : w ≠ 0#32) (h : z ≠ w - 1#32) : z.toNat ≠ w.toNat - 1 := fun e =>
  h (BitVec.eq_of_toNat_eq (e.trans (toNat_sub_one hw).symm))

theorem stepIpPower_next {s : State} {j : Nat} (h : Factored s j) (hb : BaseOk s) : TesterNext s (stepIpPower j s) := by
  have h3 := above_three_of_factored h
  obtain ⟨_, _, hm, _, _⟩ := id h
  have hw : s.mr.w ≠ 0#32 := ne_zero_of_toNat_pos (by omega)
  have hz : (loLimb (expRun s.mr.b s.mr.m s.mr.w hw).acc).toNat = s.mr.b.toNat ^ s.mr.m.toNat % s.mr.w.toNat := by
    have hpow := expMod_toNat s.mr.b s.mr.m s.mr.w hw
    rwa [if_neg (by omega)] at hpow
  simp only [stepIpPower, dif_neg hw]
  generalize expRun s.mr.b s.mr.m s.mr.w hw = t at *
  split_ifs with hpass ha
  · exact roundPassed_testerNext rfl h
  · obtain ⟨hone, hminus⟩ := not_or.mp hpass
    have hne1 := toNat_ne_one hone
    have hnem := toNat_ne_sub_one hw hminus
    refine testerNext_goesOn rfl ⟨h, hb, le_refl 1, ha, by simpa using hz, by rwa [← hz], fun i hi => ?_⟩
    obtain rfl : i = 0 := by omega
    simpa [← hz] using hnem
  · exact testerNext_verdict rfl

/-- The running value's square is the next power (44 R182). -/
theorem squared_power {b m w z t : Nat} (ht : 1 ≤ t) (hz : z = b ^ (2 ^ (t - 1) * m) % w) :
    z * z % w = b ^ (2 ^ t * m) % w := by
  obtain ⟨k, rfl⟩ := Nat.exists_eq_add_of_le' ht
  rw [Nat.add_sub_cancel] at hz
  rw [hz, ← Nat.mul_mod, ← Nat.pow_add, Nat.pow_succ]
  ring_nf

theorem stepIpSquare_next {s : State} {j t : Nat} (hs : s.seq = .ipSquare j t) (h : TesterOk s) :
    TesterNext s (stepIpSquare j t s) := by
  simp only [TesterOk, hs] at h
  obtain ⟨hfac, hb, ht, hta, hz, hone, hnone⟩ := h
  have h3 := above_three_of_factored hfac
  have hw : s.mr.w ≠ 0#32 := ne_zero_of_toNat_pos (by omega)
  have hsq := (mulMod_toNat s.mr.z s.mr.z s.mr.w hw).trans (squared_power ht hz)
  simp only [stepIpSquare, dif_neg hw]
  generalize mulMod s.mr.z s.mr.z s.mr.w hw = z at *
  split_ifs with hminus hz1 hlast
  · exact roundPassed_testerNext rfl hfac
  · exact testerNext_verdict rfl
  · have hnone' := forall_lt_succ_of hnone (hsq ▸ toNat_ne_sub_one hw hminus)
    have hta' : t + 1 < s.mr.a := by omega
    exact testerNext_goesOn rfl ⟨hfac, hb, by omega, hta', hsq, hone, hnone'⟩
  · exact testerNext_verdict rfl

/-- A transition in the tester's states. -/
theorem seqStep_tester {s : State} (hsp : s.sp = smallPrimes) (hrun : Tests s) (h : TesterOk s) :
    TesterNext s (seqStep s) := by
  have hok := h
  unfold TesterOk at hok
  unfold seqStep
  split at hok
  next hs => simp only [hs]; exact stepIpPre_next s
  next hs => simp only [hs]; exact stepIpTrial_next hsp hs h
  next hs => simp only [hs]; exact stepIpFactor_next hok
  next hs => simp only [hs]; exact stepIpDraw_next hok
  next hs => simp only [hs]; exact stepIpTry_next hrun hs h
  next hs => simp only [hs]; exact stepIpPower_next hok.1 hok.2
  next hs => simp only [hs]; exact stepIpSquare_next hs h
  next => exact hok.elim

/-! ### The candidate search -/

/-- A state without what the search's transitions may write. -/
def offSearch (s : State) : State :=
  { s with
    seq := .idle, cand := 0, mods := [], delta := 0, div := ⟨0, 0, 0, 0⟩, rngIn := [], rngCalls := 0 }

/-- Where GENPRIME leaves the search: to its outer loop, or with a final candidate (45 R215, R218). -/
def SearchLeft (i : Instr) (u : State) : Prop :=
  (∃ safe, i = .genprime safe) ∧ RequestOk i u ∧ (u.seq = .gpCall ∨ u.seq = .gpVerifyP ∧ FinalOk i u)

/-- What a transition of the search under the command `i` can lead to from `s`: it goes on, GENPRIME leaves the search,
or the command ends. -/
def SearchNext (i : Instr) (s : State) (o : Out) : Prop :=
  ∃ u, offSearch u = offSearch s ∧ u.mods.length = 64 ∧
    ((o = .next u ∧ (SearchOk i u ∨ SearchLeft i u)) ∨ (∃ pl, o = .next (u.finish32 pl)) ∨
      ∃ e, e ≠ .degenerateSharedSecret ∧ o = .next (u.raise e))

section
variable {i : Instr} {s u : State}

theorem searchNext_goesOn (h : offSearch u = offSearch s) (hl : u.mods.length = 64) (hu : SearchOk i u) :
    SearchNext i s (.next u) := ⟨u, h, hl, .inl ⟨rfl, .inl hu⟩⟩

theorem searchNext_left (h : offSearch u = offSearch s) (hl : u.mods.length = 64) (hu : SearchLeft i u) :
    SearchNext i s (.next u) := ⟨u, h, hl, .inl ⟨rfl, .inr hu⟩⟩

theorem searchNext_finish {pl : Word32} (h : offSearch u = offSearch s) (hl : u.mods.length = 64) :
    SearchNext i s (.next (u.finish32 pl)) := ⟨u, h, hl, .inr (.inl ⟨pl, rfl⟩)⟩

theorem searchNext_raise {e : ErrKind} (h : offSearch u = offSearch s) (hl : u.mods.length = 64)
    (he : e ≠ .degenerateSharedSecret) : SearchNext i s (.next (u.raise e)) := ⟨u, h, hl, .inr (.inr ⟨e, he, rfl⟩)⟩

end

section
variable {i : Instr} {s : State} (hi : IsSearch i) (hr : s.running = some i) (hl : s.mods.length = 64)
include hi hr hl

theorem stepPgCheck_next : SearchNext i s (stepPgCheck s) := by
  rw [stepPgCheck, inSearch_of_running hi hr]
  by_cases hbad : badBits s.bits (safeFlag i) = true
  · rw [if_pos hbad]
    exact searchNext_raise rfl hl (by decide)
  have hbits : BitsOk s.xl.toNat (safeFlag i) := not_not.mp fun h => hbad ((badBits_iff _ _).mpr h)
  rw [if_neg hbad]
  obtain ⟨safe, rfl | rfl | rfl⟩ := hi <;> simp only [hr]
  · exact searchNext_goesOn (by simp [offSearch, hr]) hl ⟨hbits, by simp, by simp⟩
  · split_ifs with hadd
    · exact searchNext_raise rfl hl (by decide)
    · exact searchNext_goesOn (by simp [offSearch, hr]) hl ⟨hbits, fun _ => hadd, by simp⟩
  · split_ifs with hchecks
    · exact searchNext_raise rfl hl (by decide)
    · exact searchNext_left (by simp [offSearch, hr]) hl
        ⟨⟨safe, rfl⟩, ⟨hbits, by simp, fun _ => hchecks⟩, .inl rfl⟩

/-- The draw of 45 R204 has what its forced bits guarantee; in a class the move of 45 R205 gives the residue. -/
theorem stepPgAgain_next (h : RequestOk i s) : SearchNext i s (stepPgAgain s) := by
  obtain ⟨⟨_, hbits, _⟩, hadd, _⟩ := id h
  rw [stepPgAgain, inSearch_of_running hi hr]
  dsimp only
  rw [randBits_state]
  generalize (s.randBits s.bits).1 = v
  have hv : (forceBits s.bits (safeFlag i) v).toNat = forced s.xl.toNat (safeFlag i) v.toNat :=
    forceBits_toNat hbits _ _
  have hlt : (forceBits s.bits (safeFlag i) v).toNat < 2 ^ 32 := hv ▸ forced_lt hbits v.isLt _
  generalize forceBits s.bits (safeFlag i) v = c at *
  split_ifs with hc
  · have hin := (constrained_iff hi hr).mp hc
    have ha : s.add ≠ 0 := by
      rcases hin with hdh | ⟨_, hne⟩
      · exact hadd hdh
      · exact hne
    have hrem := s.rem.isLt
    rw [divide_of_ne (zext64_ne_zero ha)]
    have hmove := moved_toNat (a := zext64 s.add) (r := zext64 s.rem) hlt (remainder_toNat c _ (zext64_ne_zero ha))
      (by rw [zext64_toNat]; exact hrem)
    simp only [zext64_toNat] at hmove
    have hbound := hmove.trans_lt (show _ < 2 ^ 34 by omega)
    have hclass := (congrArg (· % s.add.toNat) hmove).trans (moved_mod _ _ _)
    exact searchNext_goesOn rfl hl ⟨h, hbound, fun _ => hclass, fun hn => absurd hin hn⟩
  · have hfree : ¬ inClass i s.add := fun hin => hc ((constrained_iff hi hr).mpr hin)
    have hlow : c.toNat % 2 = 1 ∧ (safeFlag i = true → c.toNat % 4 = 3) := by
      rw [hv]
      exact ⟨forced_odd _ _ _, fun hsafe => by rw [hsafe, forced_safe]⟩
    exact searchNext_goesOn rfl hl ⟨h, hlt.trans (by decide), fun hin => absurd hin hfree, fun _ => hlow⟩

omit hl in
theorem stepPgResidue_next (hsp : s.sp = smallPrimes) (h : RequestOk i s) (hc : s.cand.toNat < 2 ^ 34)
    (hok : CandidateOk i s s.cand.toNat) : SearchNext i s (stepPgResidue s) := by
  obtain ⟨ms, hms, hlen, hmap⟩ := residues_table s.cand
  rw [← hsp] at hms
  rw [stepPgResidue, inSearch_of_running hi hr, hms]
  exact searchNext_goesOn rfl hlen ⟨h, hc, Nat.zero_le _, hok, hmap⟩

theorem stepPgLoop_next (h : RequestOk i s) (hsieve : SieveOk i s) : SearchNext i s (stepPgLoop s) := by
  rw [stepPgLoop, inSearch_of_running hi hr]
  exact searchNext_goesOn rfl hl ⟨h, hsieve, by decide, fun j hj => absurd hj (Nat.not_lt_zero j)⟩

theorem stepPgSieve_next (hsp : s.sp = smallPrimes) {n : Nat} (h : RequestOk i s) (hsieve : SieveOk i s) (hn : n < 64)
    (hnone : ∀ j < n, ¬ Hits s.params.selfExempt (safeFlag i) (tablePrime j) (s.cand.toNat + s.delta.toNat)) :
    SearchNext i s (stepPgSieve n s) := by
  obtain ⟨hc, hd, hok, hmap⟩ := id hsieve
  have hp := zextSmall_prime_ne_zero hsp hn
  have hprime := zextSmall_prime_toNat hsp n
  have hv := sieved_toNat hc
  have hres := sieve_residue (delta := s.delta) hp (by rw [hprime]; exact getD_mods hn hmap)
  rw [← hv] at hres
  have htest := sieveHits_iff (exempt := s.params.selfExempt) (safe := safeFlag i) hn hprime hres
    fun h0 => by rw [hv]; exact hnone 0 (Nat.pos_of_ne_zero h0)
  rw [hv] at htest
  rw [stepPgSieve, inSearch_of_running hi hr, divide_of_ne hp]
  split_ifs with hhit hlast
  · exact searchNext_goesOn rfl hl ⟨h, hsieve, fun hclear => forall_tablePrimes.mp hclear n hn (htest.mp hhit)⟩
  all_goals have hnone' := forall_lt_succ_of hnone fun hh => hhit (htest.mpr hh)
  · exact searchNext_goesOn rfl hl ⟨h, hsieve, by omega, hnone'⟩
  · obtain rfl : n = 63 := by omega
    exact searchNext_goesOn rfl hl ⟨h, hsieve, forall_tablePrimes.mpr hnone'⟩

theorem stepPgBump_next (h : RequestOk i s) (hsieve : SieveOk i s) : SearchNext i s (stepPgBump s) := by
  obtain ⟨hc, hd, hok, hmap⟩ := hsieve
  rw [stepPgBump, inSearch_of_running hi hr]
  split_ifs with hpast
  · exact searchNext_goesOn rfl hl h
  · have hmax := s.params.maxDelta.isLt
    have hsum : (s.delta + s.bumpStep (safeFlag i)).toNat = s.delta.toNat + (s.bumpStep (safeFlag i)).toNat := by
      rw [BitVec.toNat_add]
      exact Nat.mod_eq_of_lt (by omega)
    have hok' := candidateOk_bump hi hr hok
    rw [Nat.add_assoc, ← hsum] at hok'
    exact searchNext_goesOn rfl hl ⟨h, hc, by rw [hsum]; exact Nat.le_of_not_lt hpast, hok', hmap⟩

theorem stepPgFinal_next (h : RequestOk i s) (hsieve : SieveOk i s)
    (hclear : Clear s.params.selfExempt (safeFlag i) (s.cand.toNat + s.delta.toNat)) :
    SearchNext i s (stepPgFinal s) := by
  obtain ⟨hc, _, hok, _⟩ := hsieve
  have hv := sieved_toNat hc
  rw [← hv] at hclear hok
  rw [stepPgFinal, inSearch_of_running hi hr]
  dsimp only
  by_cases hsize : bitLen s.sieved = s.bits
  · rw [if_neg (not_not.mpr hsize)]
    rw [bitLen_eq_size] at hsize
    obtain ⟨safe, rfl | rfl | rfl⟩ := hi <;> simp only [hr]
    · exact searchNext_finish (by simp [offSearch, hr]) hl
    · exact searchNext_finish (by simp [offSearch, hr]) hl
    · exact searchNext_left (by simp [offSearch, hr]) hl ⟨⟨safe, rfl⟩, h, .inr ⟨rfl, hsize, hclear, hok⟩⟩
  · rw [if_pos hsize]
    exact searchNext_goesOn rfl hl h

/-- A transition in the search's states. -/
theorem seqStep_search (hsp : s.sp = smallPrimes) (h : SearchOk i s) : SearchNext i s (seqStep s) := by
  unfold SearchOk at h
  unfold seqStep
  split at h
  next hs =>
    simp only [hs]
    exact stepPgCheck_next hi hr hl
  next hs =>
    simp only [hs]
    exact stepPgAgain_next hi hr hl h
  next hs =>
    obtain ⟨hreq, hc, hok⟩ := h
    simp only [hs]
    exact stepPgResidue_next hi hr hsp hreq hc hok
  next hs =>
    obtain ⟨hreq, hsieve⟩ := h
    simp only [hs]
    exact stepPgLoop_next hi hr hl hreq hsieve
  next n hs =>
    obtain ⟨hreq, hsieve, hn, hnone⟩ := h
    simp only [hs]
    exact stepPgSieve_next hi hr hl hsp hreq hsieve hn hnone
  next hs =>
    obtain ⟨hreq, hsieve, _⟩ := h
    simp only [hs]
    exact stepPgBump_next hi hr hl hreq hsieve
  next hs =>
    obtain ⟨hreq, hsieve, hclear⟩ := h
    simp only [hs]
    exact stepPgFinal_next hi hr hl hreq hsieve hclear
  next => exact h.elim

end

/-! ### The running commands -/

/-- A state without what a transition may write that does not end the command. -/
def ongoing (s : State) : State :=
  { fixed s with busy := s.busy, done := s.done, err := s.err, running := s.running }

/-- What keeps the invariant of a running command, from `s` to `t`: the command has ended, or it still runs, in one of
its states. -/
def Held (s t : State) : Prop :=
  t.mods.length = 64 ∧ ((fixed t = fixed s ∧ Stopped t) ∨ (ongoing t = ongoing s ∧ RunningOk t))

theorem held_stopped {s u : State} (hf : fixed u = fixed s) (hl : u.mods.length = 64) (h : Stopped u) : Held s u :=
  ⟨hl, .inl ⟨hf, h⟩⟩

theorem held_running {s u : State} (ho : ongoing u = ongoing s) (hl : u.mods.length = 64) (h : RunningOk u) :
    Held s u := ⟨hl, .inr ⟨ho, h⟩⟩

theorem runningOk_isprime {s : State} (hr : s.running = some .isprime) :
    RunningOk s ↔ TesterOk s ∧ s.verify = .none ∧ s.mr.w = s.xl := by
  simp only [RunningOk, hr]

theorem runningOk_genprime {s : State} {safe : Bool} (hr : s.running = some (.genprime safe)) :
    RunningOk s ↔ OuterOk safe s := by
  simp only [RunningOk, hr]

/-- In a search the sequencer is in the search's states; in GENPRIME it may also be in those of the outer loop. -/
theorem runningOk_of_search {s : State} {i : Instr} (hi : IsSearch i) (hr : s.running = some i) (h : SearchOk i s) :
    RunningOk s := by
  obtain ⟨safe, rfl | rfl | rfl⟩ := hi <;> simp only [RunningOk, hr]
  · exact h
  · exact h
  · exact .inl h

theorem runningOk_of_searchLeft {s : State} {i : Instr} (hr : s.running = some i) (h : SearchLeft i s) :
    RunningOk s := by
  obtain ⟨⟨safe, rfl⟩, hreq, hseq⟩ := h
  refine (runningOk_genprime hr).mpr (.inr ?_)
  rcases hseq with hcall | ⟨hverify, hfinal⟩
  · exact .inl ⟨hcall, hreq⟩
  · exact .inr ⟨hreq, hfinal, .inl hverify⟩

/-- A transition of the search holds the invariant. -/
theorem held_of_search {s : State} {i : Instr} {o : Out} (hi : IsSearch i) (hr : s.running = some i)
    (h : SearchNext i s o) : Goes (Held s) o := by
  obtain ⟨u, hu, hlu, ⟨rfl, hgo⟩ | ⟨pl, rfl⟩ | ⟨e, he, rfl⟩⟩ := h
  · have hru := (eq_of_view hu State.running).trans hr
    refine goes_next (held_running (eq_of_view hu ongoing) hlu ?_)
    rcases hgo with hok | hleft
    · exact runningOk_of_search hi hru hok
    · exact runningOk_of_searchLeft hru hleft
  · exact goes_next (held_stopped (eq_of_view hu fixed) hlu (stopped_finish u 0 pl 0 0 false))
  · exact goes_next (held_stopped (eq_of_view hu fixed) hlu (stopped_raise u he))

section
variable {s : State} (hl : s.mods.length = 64)
include hl

/-- A transition of the tester holds the invariant, when its command's states and verdicts do. -/
theorem held_of_tester {o : Out} (h : TesterNext s o)
    (hgo : ∀ u, offTester u = offTester s → TesterOk u → RunningOk u)
    (hverdict : ∀ u prime, offTester u = offTester s → Goes (Held s) (u.verdict prime)) : Goes (Held s) o := by
  obtain ⟨u, hu, ⟨rfl, hok⟩ | ⟨prime, rfl⟩ | ⟨e, he, rfl⟩⟩ := h
  · exact goes_next (held_running (eq_of_view hu ongoing) ((eq_of_view hu (·.mods.length)).trans hl) (hgo u hu hok))
  · exact hverdict u prime hu
  · exact goes_next (held_stopped (eq_of_view hu fixed) ((eq_of_view hu (·.mods.length)).trans hl)
      (stopped_raise u he))

/-- RANDRANGE (43 R166). -/
theorem seqStep_randrange (hr : s.running = some .randrange) (h : RunningOk s) : Goes (Held s) (seqStep s) := by
  simp only [RunningOk, hr] at h
  obtain ⟨k, hs, hk1, _, hdraw⟩ := h
  simp only [seqStep, hs]
  rcases stepRrTry_cases k s with ⟨v, _, e⟩ | ⟨hlt, e⟩ | e <;> rw [e]
  · simp only [State.drawAccepted, afterCalls_running, hr]
    exact goes_next (held_stopped rfl hl (stopped_finish _ 0 v 0 0 false))
  · have hok : RunningOk { afterCalls s 3 with seq := .rrTry (k + 1) } := by
      simp only [RunningOk, afterCalls_running, hr]
      exact ⟨k + 1, rfl, by omega, by omega, hdraw⟩
    exact goes_next (held_running rfl hl hok)
  · simp only [State.drawExhausted, afterCalls_running, hr]
    exact goes_next (held_stopped rfl hl (stopped_raise _ (by decide)))

/-- ISPRIME (44 R186): a verdict ends it. -/
theorem seqStep_isprime (hsp : s.sp = smallPrimes) (hr : s.running = some .isprime) (h : RunningOk s) :
    Goes (Held s) (seqStep s) := by
  obtain ⟨hok, hv, hw⟩ := (runningOk_isprime hr).mp h
  refine held_of_tester hl (seqStep_tester hsp (.inl hr) hok) (fun u hu hok' => ?_) fun u prime hu => ?_
  all_goals have hru := (eq_of_view hu State.running).trans hr
  · exact (runningOk_isprime hru).mpr ⟨hok', (eq_of_view hu State.verify).trans hv,
      (eq_of_view hu (·.mr.w)).trans (hw.trans (eq_of_view hu State.xl).symm)⟩
  · simp only [State.verdict, hru]
    exact goes_next (held_stopped (eq_of_view hu fixed) ((eq_of_view hu (·.mods.length)).trans hl)
      (stopped_finish u _ _ _ _ _))

/-- The verification under which GENPRIME runs the tester, with the number under test (45 R218). -/
def Verifies (safe : Bool) (s : State) : Prop :=
  (s.verify = .p ∧ s.mr.w.toNat = s.cand.toNat) ∨
  (s.verify = .q ∧ safe = true ∧ s.mr.w.toNat = (s.cand.toNat - 1) / 2)

omit hl in
theorem outerOk_of_tester {safe : Bool} (hreq : RequestOk (.genprime safe) s) (hfinal : FinalOk (.genprime safe) s)
    (hv : Verifies safe s) (h : TesterOk s) : OuterOk safe s := by
  refine .inr (.inr ⟨hreq, hfinal, .inr (.inr ?_)⟩)
  rcases hv with hp | hq
  · exact .inl ⟨h, hp⟩
  · exact .inr ⟨h, hq⟩

omit hl in
/-- All that a verdict of a verification can lead to (45 R218). -/
theorem verdict_genprime {safe : Bool} (hr : s.running = some (.genprime safe)) (hv : Verifies safe s) (prime : Bool) :
    s.verdict prime = .next { s with seq := .gpCall } ∨
    (safe = true ∧ s.verdict prime = .next { s with seq := .gpVerifyQ }) ∨
    ∃ pl, s.verdict prime = .next (s.finish32 pl) := by
  unfold State.verdict
  rcases hv with ⟨hp, _⟩ | ⟨hq, _, _⟩
  · simp only [hr, hp]
    split_ifs with hprime hsafe
    · exact .inr (.inl ⟨hsafe, rfl⟩)
    · exact .inr (.inr ⟨_, rfl⟩)
    · exact .inl rfl
  · simp only [hr, hq]
    split_ifs
    · exact .inr (.inr ⟨_, rfl⟩)
    · exact .inl rfl

/-- A transition of the tester in GENPRIME (45 R218). -/
theorem seqStep_verifying {safe : Bool} (hsp : s.sp = smallPrimes) (hr : s.running = some (.genprime safe))
    (hreq : RequestOk (.genprime safe) s) (hfinal : FinalOk (.genprime safe) s) (hv : Verifies safe s)
    (h : TesterOk s) : Goes (Held s) (seqStep s) := by
  refine held_of_tester hl (seqStep_tester hsp (.inr ⟨safe, hr⟩) h) (fun u hu hok => ?_) fun u prime hu => ?_
  all_goals
    have hru := (eq_of_view hu State.running).trans hr
    have hreq' := (eq_of_view hu (RequestOk (.genprime safe))).mpr hreq
    have hfinal' := (eq_of_view hu (FinalOk (.genprime safe))).mpr hfinal
    have hv' := (eq_of_view hu (Verifies safe)).mpr hv
  · exact (runningOk_genprime hru).mpr (outerOk_of_tester hreq' hfinal' hv' hok)
  · have hf := eq_of_view hu fixed
    have hlu := (eq_of_view hu (·.mods.length)).trans hl
    have held (q : Seq) (hok : OuterOk safe { u with seq := q }) : Held s { u with seq := q } :=
      held_running (eq_of_view hu ongoing) hlu ((runningOk_genprime (s := { u with seq := q }) hru).mpr hok)
    rcases verdict_genprime hru hv' prime with e | ⟨hsafe, e⟩ | ⟨pl, e⟩ <;> rw [e]
    · exact goes_next (held .gpCall (.inr (.inl ⟨rfl, hreq'⟩)))
    · exact goes_next (held .gpVerifyQ (.inr (.inr ⟨hreq', hfinal', .inr (.inl ⟨rfl, hsafe⟩)⟩)))
    · exact goes_next (held_stopped hf hlu (stopped_finish u 0 pl 0 0 false))

omit hl in
/-- A final candidate has the length asked for, so it fits one limb and is above 1 (45 R212). -/
theorem finalOk_bounds {i : Instr} (hreq : RequestOk i s) (hfinal : FinalOk i s) :
    2 ≤ s.cand.toNat ∧ s.cand.toNat < 2 ^ 32 := by
  obtain ⟨⟨hlow, hhigh, _⟩, _, _⟩ := hreq
  have hsize := hfinal.1
  constructor
  · by_contra hlt
    have := Nat.size_le_size (Nat.le_of_lt_succ (Nat.lt_of_not_le hlt))
    rw [hsize, Nat.size_one] at this
    omega
  · exact Nat.size_le.mp (by omega)

/-- GENPRIME (45 R218). -/
theorem seqStep_genprime {safe : Bool} (hsp : s.sp = smallPrimes) (hr : s.running = some (.genprime safe))
    (h : RunningOk s) : Goes (Held s) (seqStep s) := by
  have hi : IsSearch (.genprime safe) := ⟨safe, .inr (.inr rfl)⟩
  have held (u : State) (ho : ongoing u = ongoing s) (hlu : u.mods.length = 64) (hok : OuterOk safe u) :
      Goes (Held s) (.next u) :=
    goes_next (held_running ho hlu ((runningOk_genprime ((eq_of_view ho State.running).trans hr)).mpr hok))
  rcases (runningOk_genprime hr).mp h with hsearch | ⟨hs, hreq⟩ | ⟨hreq, hfinal, hstate⟩
  · exact held_of_search hi hr (seqStep_search hi hr hl hsp hsearch)
  · simp only [seqStep, hs]
    rw [stepGpCall, inSearch_of_running hi hr]
    exact held _ rfl hl (.inl hreq)
  obtain ⟨hlow, hhigh⟩ := finalOk_bounds hreq hfinal
  rcases hstate with hs | ⟨hs, hsafe⟩ | ⟨htest, hv⟩ | ⟨htest, hv⟩
  · simp only [seqStep, hs]
    rw [stepGpVerifyP, inSearch_of_running hi hr]
    have hw : (loLimb s.cand).toNat = s.cand.toNat := by rw [loLimb_toNat, Nat.mod_eq_of_lt hhigh]
    exact held _ rfl hl (outerOk_of_tester hreq hfinal (.inl ⟨rfl, hw⟩) trivial)
  · simp only [seqStep, hs]
    rw [stepGpVerifyQ, inSearch_of_running hi hr]
    have hw : (loLimb ((s.cand - 1) >>> 1)).toNat = (s.cand.toNat - 1) / 2 := by
      rw [loLimb_toNat, half_toNat (by omega), Nat.mod_eq_of_lt (by omega)]
    exact held _ rfl hl (outerOk_of_tester hreq hfinal (.inr ⟨rfl, hsafe, hw⟩) trivial)
  · exact seqStep_verifying hl hsp hr hreq hfinal (.inl hv) htest
  · exact seqStep_verifying hl hsp hr hreq hfinal (.inr hv) htest

end

/-! ### The invariant -/

/-- A transition of a running command. -/
theorem seqStep_held {s : State} (h : Inv s) (hb : s.busy = true) : Goes (Held s) (seqStep s) := by
  obtain ⟨_, ⟨hisp, _⟩, _, hrun⟩ := h.busy hb
  have hsp := h.spContent hisp
  have hl := h.modsLength
  have search (i : Instr) (hi : IsSearch i) (hr : s.running = some i) (hok : SearchOk i s) :
      Goes (Held s) (seqStep s) :=
    held_of_search hi hr (seqStep_search hi hr hl hsp hok)
  have hcases := hrun
  unfold RunningOk at hcases
  split at hcases
  next hr => exact seqStep_randrange hl hr hrun
  next hr => exact seqStep_isprime hl hsp hr hrun
  next safe hr => exact search _ ⟨safe, .inl rfl⟩ hr hcases
  next safe hr => exact search _ ⟨safe, .inr (.inl rfl)⟩ hr hcases
  next safe hr => exact seqStep_genprime hl hsp hr hrun
  next => exact hcases.elim

/-- The setup's flags and tables alone (10 R32 to R34). -/
def setup (s : State) : State := { State.reset with isp := s.isp, ipt := s.ipt, sp := s.sp, pow2 := s.pow2 }

/-- The invariant of a block in which no command runs is that of its tables. -/
theorem inv_of_tables {t : State} (ht : Stopped t) (hsp : t.sp.length = 64) (hpow : t.pow2.length = 32)
    (hl : t.mods.length = 64) (hisp : t.isp = true → t.sp = smallPrimes) (hipt : t.ipt = true → t.pow2 = powersOfTwo) :
    Inv t := by
  obtain ⟨hidle, hseq, hrun, herr⟩ := ht
  exact ⟨hsp, hpow, hl, hisp, hipt, herr, fun _ => ⟨hseq, hrun⟩, fun hb => by simp [hidle] at hb⟩

/-- A block in which no command runs has the invariant, when its tables are those of a state that has it. -/
theorem inv_of_stopped {s t : State} (hs : Inv s) (hsetup : setup t = setup s) (hl : t.mods.length = 64)
    (ht : Stopped t) : Inv t := by
  have hisp := eq_of_view hsetup State.isp
  have hipt := eq_of_view hsetup State.ipt
  have hsp := eq_of_view hsetup State.sp
  have hpow := eq_of_view hsetup State.pow2
  exact inv_of_tables ht (hsp ▸ hs.spLength) (hpow ▸ hs.pow2Length) hl (fun h => hsp ▸ hs.spContent (hisp ▸ h))
    fun h => hpow ▸ hs.pow2Content (hipt ▸ h)

/-- A block in which the command in CMD runs, in one of its states, has the invariant, when the tables are those of one
that has it. -/
theorem inv_of_running {s t : State} (hs : Inv s) (hf : fixed t = fixed s) (hl : t.mods.length = 64)
    (herr : t.err = s.err) (hready : Ready s) (hb : t.busy = true) (hd : t.done = false)
    (hr : t.running = decode s.cmd) (ht : RunningOk t) : Inv t := by
  obtain ⟨_, hisp, hsp, hipt, hpow, _⟩ := kept_of_fixed hf
  exact
    { spLength := hsp ▸ hs.spLength
      pow2Length := hpow ▸ hs.pow2Length
      modsLength := hl
      spContent := fun h => hsp ▸ hs.spContent (hisp ▸ h)
      pow2Content := fun h => hpow ▸ hs.pow2Content (hipt ▸ h)
      errCode := herr ▸ hs.errCode
      idle := fun h => by simp [hb] at h
      busy := fun _ =>
        ⟨hd, ⟨hisp ▸ hready.1, hipt ▸ hready.2⟩, hr.trans (congrArg decode (eq_of_view hf State.cmd)).symm, ht⟩ }

theorem inv_of_held {s t : State} (hs : Inv s) (hb : s.busy = true) (h : Held s t) : Inv t := by
  obtain ⟨hd, hready, hr, _⟩ := hs.busy hb
  obtain ⟨hl, ⟨hf, hstop⟩ | ⟨ho, hrun⟩⟩ := h
  · exact inv_of_stopped hs (eq_of_view hf setup) hl hstop
  · exact inv_of_running hs (eq_of_view ho fixed) hl (eq_of_view ho State.err) hready
      ((eq_of_view ho State.busy).trans hb) ((eq_of_view ho State.done).trans hd)
      ((eq_of_view ho State.running).trans hr) hrun

/-- The engine's turn does not stop the machine, and keeps the invariant. -/
theorem engineTurn_inv {s : State} (h : Inv s) : Goes Inv (engineTurn s) :=
  runSeq_total (fun u hu hb => by
    obtain ⟨t, ht, hheld⟩ := seqStep_held hu hb
    exact ⟨t, ht, inv_of_held hu hb hheld⟩) h

/-! ### The commands -/

/-- A loop command's entry holds the invariant: it is in the command's first state, or refuses an empty range. -/
theorem loopEntry_inv {s : State} {i : Instr} (h : Inv s) (hi : IsLoop i) (hready : Ready s)
    (hcmd : decode s.cmd = some i) : Inv (loopEntry i s) := by
  have entry (u : State) (ho : ongoing u = ongoing (s.start i)) (hl : u.mods.length = 64) (hok : RunningOk u) : Inv u :=
    inv_of_running h (eq_of_view ho fixed) hl (eq_of_view ho State.err) hready (eq_of_view ho State.busy)
      (eq_of_view ho State.done) ((eq_of_view ho State.running).trans hcmd.symm) hok
  have hl := h.modsLength
  rcases hi with rfl | rfl | hsearch
  · rcases beginDraw_cases (s.start .randrange) s.xl with ⟨_, e⟩ | ⟨hne, e⟩
    · exact inv_of_stopped h (by rw [loopEntry, e]; rfl) (by rw [loopEntry, e]; exact hl)
        (by rw [loopEntry, e]; exact stopped_raise _ (by decide))
    · rw [loopEntry, e]
      exact entry _ rfl hl ⟨1, rfl, drawOk_begin (s.start .randrange) hne⟩
  · exact entry _ rfl hl ⟨trivial, rfl, rfl⟩
  · have hcheck : loopEntry i s = { s.start i with seq := .pgCheck } := by
      obtain ⟨safe, rfl | rfl | rfl⟩ := hsearch <;> rfl
    rw [hcheck]
    exact entry _ rfl hl (runningOk_of_search hsearch rfl trivial)

/-- A command that the host starts keeps the invariant. -/
theorem exec_inv {s : State} {i : Instr} (h : Inv s) (hcmd : decode s.cmd = some i) : Always Inv (exec i s) := by
  cases i using instr_kinds with
  | initsp =>
    exact always_next.mpr (inv_of_tables (stopped_finish _ 0 0 0 0 false) rfl h.pow2Length h.modsLength (fun _ => rfl)
      h.pow2Content)
  | initpt =>
    exact always_next.mpr (inv_of_tables (stopped_finish _ 0 0 0 0 false) h.spLength rfl h.modsLength h.spContent
      fun _ => rfl)
  | seedrng => exact always_next.mpr (inv_of_stopped h rfl h.modsLength (stopped_finish _ 0 0 0 0 false))
  | loop i hi =>
    rcases exec_loop s hi with ⟨_, e⟩ | ⟨hready, e⟩ <;> rw [e]
    · exact always_next.mpr (inv_of_stopped h rfl h.modsLength (stopped_raise s (e := .notInitialised) (by decide)))
    · exact (engineTurn_inv (loopEntry_inv h hi hready hcmd)).always
  | once i hi =>
    intro t ht
    obtain ⟨hsteady, hstop, _⟩ := exec_once s hi t ht
    exact inv_of_stopped h (eq_of_view hsteady setup) ((eq_of_view hsteady (·.mods.length)).trans h.modsLength) hstop

/-! ### The host's actions -/

theorem stopped_of_idle {s : State} (h : Inv s) (hidle : s.busy = false) : Stopped s :=
  ⟨hidle, (h.idle hidle).1, (h.idle hidle).2, h.errCode⟩

/-- The invariant does not rest on the host's queue and records. -/
theorem inv_host {s : State} (h : Inv s) (queue : List HostAction) (out : List Word32) (n : Nat) :
    Inv { s with hostQueue := queue, hostOut := out, freeReads := n } :=
  { spLength := h.spLength, pow2Length := h.pow2Length, modsLength := h.modsLength, spContent := h.spContent,
    pow2Content := h.pow2Content, errCode := h.errCode, idle := h.idle, busy := h.busy }

/-- A CMD write stores its word; the invariant of an idle block does not rest on it. -/
theorem inv_cmd {s : State} (h : Inv s) (hidle : s.busy = false) (w : Word32) : Inv { s with cmd := w } :=
  inv_of_stopped h rfl h.modsLength (stopped_of_idle (s := s) h hidle)

/-- A register write leaves alone everything but the operand registers and CHECKS (20 R56). -/
theorem memWrite_keeps {α : Type} (s : State) (idx : RegIndex) (v : Word32) (f : State → α)
    (hf : ∀ u xh xl yh yl m add rem checks, f { u with
      xh := xh, xl := xl, yh := yh, yl := yl, m := m, add := add, rem := rem, checks := checks } = f u) :
    f (s.memWrite idx v) = f s := by
  unfold State.memWrite
  split
  · rfl
  · split
    · exact hf s v s.xl s.yh s.yl s.m s.add s.rem s.checks
    · exact hf s s.xh v s.yh s.yl s.m s.add s.rem s.checks
    · exact hf s s.xh s.xl v s.yl s.m s.add s.rem s.checks
    · exact hf s s.xh s.xl s.yh v s.m s.add s.rem s.checks
    · exact hf s s.xh s.xl s.yh s.yl v s.add s.rem s.checks
    · exact hf s s.xh s.xl s.yh s.yl s.m v s.rem s.checks
    · exact hf s s.xh s.xl s.yh s.yl s.m s.add v s.checks
    · exact hf s s.xh s.xl s.yh s.yl s.m s.add s.rem v
    · rfl

theorem inv_memWrite {s : State} (h : Inv s) (hidle : s.busy = false) (idx : RegIndex) (v : Word32) :
    Inv (s.memWrite idx v) := by
  have keeps {α : Type} := memWrite_keeps (α := α) s idx v
  have hstop : Stopped (s.memWrite idx v) :=
    (keeps Stopped fun _ _ _ _ _ _ _ _ _ => rfl).mpr (stopped_of_idle h hidle)
  exact inv_of_stopped h (keeps setup fun _ _ _ _ _ _ _ _ _ => rfl)
    ((keeps (·.mods.length) fun _ _ _ _ _ _ _ _ _ => rfl).trans h.modsLength) hstop

theorem acceptCommand_inv {s : State} (h : Inv s) (hidle : s.busy = false) (w : Word32) :
    Always Inv (acceptCommand w s) := by
  have hcmd := inv_cmd h hidle w
  unfold acceptCommand
  split
  next i hdec => exact exec_inv hcmd hdec
  next => exact always_next.mpr (inv_of_stopped hcmd rfl h.modsLength (stopped_raise _ (by decide)))

theorem hostWrite_inv {s : State} (h : Inv s) (idx : RegIndex) (v : Word32) : Always Inv (hostWrite idx v s) := by
  unfold hostWrite
  split_ifs with hbusy
  · exact (engineTurn_inv h).always
  · exact acceptCommand_inv h (by simpa using hbusy) v
  · exact always_next.mpr (inv_memWrite h (by simpa using hbusy) idx v)

/-- A read moves at most the model's counter of free reads (20 R56). -/
theorem memRead_state (s : State) (idx : RegIndex) : ∃ n, (s.memRead idx).2 = { s with freeReads := n } := by
  unfold State.memRead
  split_ifs
  · exact ⟨_, rfl⟩
  · exact ⟨s.freeReads, rfl⟩
  · exact ⟨s.freeReads, rfl⟩

theorem hostRead_inv {s : State} (h : Inv s) (idx : RegIndex) : Always Inv (hostRead idx s) := by
  obtain ⟨n, hn⟩ := memRead_state s idx
  simp only [hostRead, hn]
  exact (engineTurn_inv (inv_host h s.hostQueue _ n)).always

theorem hostWait_inv {s : State} (h : Inv s) : Always Inv (hostWait s) := by
  unfold hostWait
  split_ifs
  · exact always_next.mpr h
  · exact (engineTurn_inv (inv_host h _ s.hostOut s.freeReads)).always

/-- The reset state's tables have their size, and no content is claimed of them (10 R39). -/
theorem resetBlock_inv (s : State) : Inv s.resetBlock :=
  inv_of_tables ⟨rfl, rfl, rfl, (by decide : (0 : BitVec 4).toNat < 8), (by decide : (0 : BitVec 4) ≠ 4)⟩ rfl rfl rfl
    (fun h => nomatch h) fun h => nomatch h

theorem hostTurn_inv {s : State} (h : Inv s) (a : HostAction) : Always Inv (hostTurn a s) := by
  cases a with
  | write idx v => exact hostWrite_inv h idx v
  | read idx => exact hostRead_inv h idx
  | wait => exact hostWait_inv h
  | pass => exact (engineTurn_inv h).always
  | reset => exact always_next.mpr (resetBlock_inv s)

/-- Settles O59: the engine's turn keeps the invariant transition by transition, and every host action keeps it. -/
theorem everyStepKeepsTheInvariant : Obligations.EveryStepKeepsTheInvariant := by
  intro s t h
  unfold step
  cases hq : s.hostQueue with
  | nil => exact (engineTurn_inv h).always t
  | cons a rest => exact hostTurn_inv (inv_host h rest s.hostOut s.freeReads) a t

end Sys2Proof.Proofs

/-! The candidate state, the working registers and the outcome of the command before carry nothing into a command. For a
command of one transition, its outcome is computed from the rest of the state. For a command with named states, two runs
from states that differ in these alone stay alike: they agree in what the coming transitions read. -/

namespace Sys2Proof.Proofs

open Sys2Proof.Machine Sys2Proof.Safety Sys2Proof.Laws

/-- A state without the outcome of the last command, the candidate state, the working registers and the sequencer's
state. -/
def quiet (s : State) : State := { carried s with seq := .idle }

theorem quiet_start {s s' : State} (h : carried s = carried s') (i : Instr) :
    quiet (s.start i) = quiet (s'.start i) := eq_of_view h fun u => quiet (u.start i)

theorem ready_congr {s s' : State} (h : carried s = carried s') : Ready s ↔ Ready s' :=
  Iff.of_eq (eq_of_view h Ready)

/-- The composed word rests on the random-source port and the parameters alone (43 R162). -/
theorem randWord_congr {s s' : State} (h : quiet s = quiet s') : s.randWord.1 = s'.randWord.1 := by
  apply BitVec.eq_of_toNat_eq
  rw [(randWord_spec s).1, (randWord_spec s').1]
  exact eq_of_view h fun u => composed u 0

theorem randBits_congr {s s' : State} (h : quiet s = quiet s') (n : Nat) : (s.randBits n).1 = (s'.randBits n).1 :=
  congrArg (lowBits · n) (randWord_congr h)

/-! ### Commands of one transition -/

/-- An outcome without what the host cannot read of its next state. -/
def endView : Out → Out
  | .next t => .next (outside t)
  | .fault r => .fault r
  | .refused r => .refused r

/-- A gated command's outcome rests on the rest of the state, when its body's does. -/
theorem command_endView {i : Instr} {body : State → Out} {s s' : State} (h : carried s = carried s')
    (hbody : ∀ u u', quiet u = quiet u' → endView (body u) = endView (body u')) :
    endView (s.command i body) = endView (s'.command i body) := by
  by_cases hr : Ready s
  · rw [command_ready hr, command_ready ((ready_congr h).mp hr)]
    exact hbody _ _ (quiet_start h i)
  · rw [command_not_ready hr, command_not_ready (mt (ready_congr h).mpr hr)]
    exact congrArg Host.Outcome.next (eq_of_view h fun u => outside (failed u 7))

/-- Likewise, when the body is one end whose values are computed from the rest of the state. -/
theorem command_end_endView {i : Instr} {f : State → State} {s s' : State} (h : carried s = carried s')
    (hf : ∀ u, outside (f (quiet u)) = outside (f u) := by intro; rfl) :
    endView (s.command i fun u => .next (f u)) = endView (s'.command i fun u => .next (f u)) :=
  command_endView h fun _ _ hq => congrArg Host.Outcome.next (eq_of_view hq (fun u => outside (f u)) hf)

theorem endView_raise {u u' : State} (h : quiet u = quiet u') (e : ErrKind) :
    endView (.next (u.raise e)) = endView (.next (u'.raise e)) :=
  congrArg Host.Outcome.next (eq_of_view h fun v => outside (v.raise e))

theorem endView_finish {u u' : State} (h : quiet u = quiet u') (ph pl qh ql : Word32) (c : Bool) :
    endView (.next (u.finish ph pl qh ql c)) = endView (.next (u'.finish ph pl qh ql c)) :=
  congrArg Host.Outcome.next (eq_of_view h fun v => outside (v.finish ph pl qh ql c))

theorem endView_divide {u u' : State} {a b : Word64} {k : DivWork → State → Out}
    (h : ∀ d, endView (k d { u with div := d }) = endView (k d { u' with div := d })) :
    endView (u.divide a b k) = endView (u'.divide a b k) := by
  by_cases hb : b = 0#64
  · simp [State.divide, hb]
  · rw [divide_of_ne hb, divide_of_ne hb]
    exact h _

/-- Likewise for the commands that refuse a zero divisor and otherwise end with what the divider gives. -/
theorem command_divide_endView {i : Instr} {c : State → Prop} [∀ u, Decidable (c u)] {a b : State → Word64}
    {ph pl qh ql : DivWork → Word32} {s s' : State} (h : carried s = carried s')
    (hc : ∀ u, c (quiet u) = c u := by intro; rfl) (ha : ∀ u, a (quiet u) = a u := by intro; rfl)
    (hb : ∀ u, b (quiet u) = b u := by intro; rfl) :
    let body u := if c u then .next (u.raise .invalidParameter)
      else u.divide (a u) (b u) fun d v => .next (v.finish (ph d) (pl d) (qh d) (ql d) false)
    endView (s.command i body) = endView (s'.command i body) := by
  refine command_endView h fun u u' hq => ?_
  have hcu : c u = c u' := eq_of_view hq c hc
  rw [eq_of_view hq a ha, eq_of_view hq b hb]
  by_cases hzero : c u
  · rw [if_pos hzero, if_pos (hcu ▸ hzero)]
    exact endView_raise hq _
  · rw [if_neg hzero, if_neg (hcu ▸ hzero)]
    exact endView_divide fun d => endView_finish hq _ _ _ _ _

section
variable {s s' : State} (h : carried s = carried s')
include h

theorem execExpmod_endView : endView (execExpmod s) = endView (execExpmod s') := by
  refine command_endView h fun u u' hq => ?_
  have ha : u.opA = u'.opA := eq_of_view hq State.opA
  have hb : u.opB = u'.opB := eq_of_view hq State.opB
  have hm : u.modulus = u'.modulus := eq_of_view hq State.modulus
  simp only [← ha, ← hb, ← hm]
  split_ifs
  · exact endView_raise hq _
  · exact endView_finish hq _ _ _ _ _

theorem execInvmod_endView : endView (execInvmod s) = endView (execInvmod s') := by
  refine command_endView h fun u u' hq => ?_
  have ha : u.opA = u'.opA := eq_of_view hq State.opA
  have hm : u.modulus = u'.modulus := eq_of_view hq State.modulus
  simp only [← ha, ← hm]
  split_ifs
  · exact endView_raise hq _
  · generalize invResult _ u.modulus _ = result
    cases result with
    | some v => exact endView_finish hq _ _ _ _ _
    | none => exact endView_raise hq _

theorem execRand32_endView : endView (execRand32 s) = endView (execRand32 s') := by
  refine command_endView h fun u u' hq => ?_
  simp only [← randWord_congr hq, (randWord_spec _).2]
  exact endView_finish (eq_of_view hq fun v => quiet (afterCalls v 3)) _ _ _ _ _

theorem execRandbits_endView : endView (execRandbits s) = endView (execRandbits s') := by
  refine command_endView h fun u u' hq => ?_
  have hbits : u.bits = u'.bits := eq_of_view hq State.bits
  simp only [← hbits, ← randBits_congr hq, randBits_state]
  split_ifs
  · exact endView_raise hq _
  · exact endView_finish (eq_of_view hq fun v => quiet (afterCalls v 3)) _ _ _ _ _

theorem execMrround_endView : endView (execMrround s) = endView (execMrround s') := by
  refine command_endView h fun u u' hq => ?_
  have ha : u.opA = u'.opA := eq_of_view hq State.opA
  have hb : u.opB = u'.opB := eq_of_view hq State.opB
  simp only [← ha, ← hb]
  split
  · exact endView_raise hq _
  split
  · exact endView_raise hq _
  split
  · rfl
  · exact endView_finish hq _ _ _ _ _

/-- A command that ends in its one transition has an outcome computed from the rest of the state. -/
theorem exec_endView {i : Instr} (hloop : ¬ IsLoop i) : endView (exec i s) = endView (exec i s') := by
  cases i with
  | nop => exact endView_finish (quiet_start h .nop) 0 0 0 0 false
  | cmp32 => unfold exec execCmp32; exact command_end_endView h
  | add32 => unfold exec execAdd32; exact command_end_endView h
  | sub32 => unfold exec execSub32; exact command_end_endView h
  | neg32 => unfold exec execNeg32; exact command_end_endView h
  | srl32 => unfold exec execSrl32; exact command_end_endView h
  | sll32 => unfold exec execSll32; exact command_end_endView h
  | mul32 => unfold exec execMul32; exact command_end_endView h
  | bitlen32 => unfold exec execBitlen32; exact command_end_endView h
  | divrem32 => unfold exec execDivrem32; exact command_divide_endView h
  | cmp64 => unfold exec execCmp64; exact command_end_endView h
  | add64 => unfold exec execAdd64; exact command_end_endView h
  | sub64 => unfold exec execSub64; exact command_end_endView h
  | neg64 => unfold exec execNeg64; exact command_end_endView h
  | srl64 => unfold exec execSrl64; exact command_end_endView h
  | sll64 => unfold exec execSll64; exact command_end_endView h
  | bitlen64 => unfold exec execBitlen64; exact command_end_endView h
  | divrem64 => unfold exec execDivrem64; exact command_divide_endView h
  | mulmod => unfold exec execMulmod; exact command_divide_endView h
  | expmod => exact execExpmod_endView h
  | invmod => exact execInvmod_endView h
  | seedrng => exact congrArg Host.Outcome.next (eq_of_view h fun u => outside (ended (u.rngSeed u.xl) 0 0 0 0 false))
  | rand32 => exact execRand32_endView h
  | randbits => exact execRandbits_endView h
  | randrange => simp at hloop
  | isprime => simp at hloop
  | mrround => exact execMrround_endView h
  | probprime safe => simp at hloop
  | probprimedh safe => simp at hloop
  | genprime safe => simp at hloop
  | initsp =>
    exact endView_finish (u := { s.start .initsp with sp := smallPrimes, isp := true })
      (u' := { s'.start .initsp with sp := smallPrimes, isp := true })
      (eq_of_view h fun u => quiet { u.start .initsp with sp := smallPrimes, isp := true }) 0 0 0 0 false
  | initpt =>
    exact endView_finish (u := { s.start .initpt with pow2 := powersOfTwo, ipt := true })
      (u' := { s'.start .initpt with pow2 := powersOfTwo, ipt := true })
      (eq_of_view h fun u => quiet { u.start .initpt with pow2 := powersOfTwo, ipt := true }) 0 0 0 0 false

end

/-! ### The equations of the verdict and of the draw's end -/

/-- The commands in which the tester runs, and the others. -/
theorem running_kinds (s : State) : s.running = some .isprime ∨ (∃ safe, s.running = some (.genprime safe)) ∨
    (s.running ≠ some .isprime ∧ ∀ safe, s.running ≠ some (.genprime safe)) := by
  by_cases h1 : s.running = some .isprime
  · exact .inl h1
  by_cases h2 : ∃ safe, s.running = some (.genprime safe)
  · exact .inr (.inl h2)
  · exact .inr (.inr ⟨h1, not_exists.mp h2⟩)

section
variable {s : State} {prime safe : Bool}

theorem verdict_isprime (hr : s.running = some .isprime) :
    s.verdict prime = .next (s.finish32 (if prime then 1 else 0)) := by
  simp only [State.verdict, hr]

theorem verdict_unverified (hr : s.running = some (.genprime safe)) (hv : s.verify = .none) :
    s.verdict prime = .fault .badSequencer := by
  simp only [State.verdict, hr, hv]

theorem verdict_p (hr : s.running = some (.genprime safe)) (hv : s.verify = .p) :
    s.verdict prime =
      if prime then if safe then .next { s with seq := .gpVerifyQ } else .next (s.finish32 (loLimb s.cand))
      else .next { s with seq := .gpCall } := by
  simp only [State.verdict, hr, hv]

theorem verdict_q (hr : s.running = some (.genprime safe)) (hv : s.verify = .q) :
    s.verdict prime = if prime then .next (s.finish32 (loLimb s.cand)) else .next { s with seq := .gpCall } := by
  simp only [State.verdict, hr, hv]

theorem verdict_foreign (h1 : s.running ≠ some .isprime) (h2 : ∀ safe, s.running ≠ some (.genprime safe)) :
    s.verdict prime = .fault .badSequencer := by
  unfold State.verdict
  split
  · exact absurd ‹_› h1
  · exact absurd ‹_› (h2 _)
  · rfl

theorem drawAccepted_randrange {v : Word32} (hr : s.running = some .randrange) :
    s.drawAccepted v = .next (s.finish32 v) := by
  simp only [State.drawAccepted, hr]

theorem drawAccepted_tests {v : Word32} (h : Tests s) : s.drawAccepted v =
    .next { s with mr := { s.mr with b := v + 2 }, seq := .ipRound s.mr.round true } := by
  rcases h with hr | ⟨safe, hr⟩ <;> simp only [State.drawAccepted, hr]

theorem drawAccepted_foreign {v : Word32} (h1 : s.running ≠ some .randrange) (h2 : ¬ Tests s) :
    s.drawAccepted v = .fault .badSequencer := by
  unfold State.drawAccepted
  split
  · exact absurd ‹_› h1
  · exact absurd (.inl ‹_›) h2
  · exact absurd (.inr ⟨_, ‹_›⟩) h2
  · rfl

theorem drawExhausted_randrange (hr : s.running = some .randrange) :
    s.drawExhausted = .next (s.raise .samplingExhausted) := by
  simp only [State.drawExhausted, hr]

theorem drawExhausted_tests (h : Tests s) : s.drawExhausted = .next (s.raise .primalityInconclusive) := by
  rcases h with hr | ⟨safe, hr⟩ <;> simp only [State.drawExhausted, hr]

theorem drawExhausted_foreign (h1 : s.running ≠ some .randrange) (h2 : ¬ Tests s) :
    s.drawExhausted = .fault .badSequencer := by
  unfold State.drawExhausted
  split
  · exact absurd ‹_› h1
  · exact absurd (.inl ‹_›) h2
  · exact absurd (.inr ⟨_, ‹_›⟩) h2
  · rfl

end

/-! ### Running commands -/

/-- The number under test, and in GENPRIME the candidate, which a verdict returns to. -/
abbrev NumberAlike (s s' : State) : Prop :=
  s.mr.w = s'.mr.w ∧ (s.running = some .isprime ∨ s.cand = s'.cand)

/-- Likewise with the factors of `w - 1`. -/
abbrev FactorsAlike (s s' : State) : Prop := NumberAlike s s' ∧ s.mr.a = s'.mr.a ∧ s.mr.m = s'.mr.m

/-- The registers of the sieve. -/
abbrev SieveAlike (s s' : State) : Prop := s.cand = s'.cand ∧ s.mods = s'.mods ∧ s.delta = s'.delta

/-- Two states agree in the working registers and the candidate state as far as the transitions from `s` on read them
before writing them; in IDLE they agree in the outcome. -/
def LiveAlike (s s' : State) : Prop :=
  match s.seq with
  | .idle => outside s = outside s'
  | .exec | .pgCheck | .pgAgain | .gpCall => True
  | .rrTry _ =>
    s.draw = s'.draw ∧ (s.running = some .randrange ∨ FactorsAlike s s' ∧ s.mr.round = s'.mr.round)
  | .ipPre | .ipTrial _ | .ipFactor => NumberAlike s s'
  | .ipRound _ false => FactorsAlike s s'
  | .ipRound _ true => FactorsAlike s s' ∧ s.mr.b = s'.mr.b
  | .ipSquare _ _ => FactorsAlike s s' ∧ s.mr.z = s'.mr.z
  | .pgResidue | .gpVerifyP | .gpVerifyQ => s.cand = s'.cand
  | .pgLoop | .pgSieve _ | .pgBump | .pgFinal => SieveAlike s s'

/-- Two states of which the host cannot tell the runs apart. -/
def Alike (s s' : State) : Prop := quiet s = quiet s' ∧ s.seq = s'.seq ∧ LiveAlike s s'

/-- Two outcomes of which the host cannot tell the runs apart. -/
inductive OutAlike : Out → Out → Prop
  | next {t t' : State} (h : Alike t t') : OutAlike (.next t) (.next t')
  | fault (r : Fault) : OutAlike (.fault r) (.fault r)
  | refused (r : Refusal) : OutAlike (.refused r) (.refused r)

theorem outAlike_goTo {s s' : State} (hq : quiet s = quiet s') (hs : s.seq = s'.seq) (hl : LiveAlike s s') :
    OutAlike (.next s) (.next s') := .next ⟨hq, hs, hl⟩

theorem outAlike_finish32 {s s' : State} {pl pl' : Word32} (hq : quiet s = quiet s') (hpl : pl = pl') :
    OutAlike (.next (s.finish32 pl)) (.next (s'.finish32 pl')) := by
  subst hpl
  exact outAlike_goTo (eq_of_view hq fun u => quiet (u.finish32 pl)) rfl
    (eq_of_view hq fun u => outside (u.finish32 pl))

theorem alike_raise {s s' : State} {e : ErrKind} (hq : quiet s = quiet s') : Alike (s.raise e) (s'.raise e) :=
  ⟨eq_of_view hq fun u => quiet (u.raise e), rfl, eq_of_view hq fun u => outside (u.raise e)⟩

theorem outAlike_raise {s s' : State} {e : ErrKind} (hq : quiet s = quiet s') :
    OutAlike (.next (s.raise e)) (.next (s'.raise e)) := .next (alike_raise hq)

theorem outAlike_ite {c c' : Prop} [Decidable c] [Decidable c'] {o₁ o₂ o₁' o₂' : Out} (hc : c = c')
    (h₁ : OutAlike o₁ o₁') (h₂ : OutAlike o₂ o₂') :
    OutAlike (if c then o₁ else o₂) (if c' then o₁' else o₂') := by
  subst hc
  by_cases h : c
  · rwa [if_pos h, if_pos h]
  · rwa [if_neg h, if_neg h]

theorem outAlike_divide {s s' : State} {a b a' b' : Word64} {k k' : DivWork → State → Out} (ha : a = a') (hb : b = b')
    (h : ∀ d, OutAlike (k d { s with div := d }) (k' d { s' with div := d })) :
    OutAlike (s.divide a b k) (s'.divide a' b' k') := by
  subst ha hb
  by_cases h0 : b = 0#64
  · simpa [State.divide, h0] using .fault _
  · rw [divide_of_ne h0, divide_of_ne h0]
    exact h _

theorem outAlike_inSearch {s s' : State} {body body' : Bool → Out} (hq : quiet s = quiet s')
    (h : ∀ safe, OutAlike (body safe) (body' safe)) : OutAlike (s.inSearch body) (s'.inSearch body') := by
  have hr : s.running = s'.running := eq_of_view hq State.running
  unfold State.inSearch
  rw [← hr]
  split
  · exact h _
  · exact h _
  · exact h _
  · exact .fault _

theorem afterCalls_quiet {s s' : State} (hq : quiet s = quiet s') (n : Nat) :
    quiet (afterCalls s n) = quiet (afterCalls s' n) := eq_of_view hq fun u => quiet (afterCalls u n)

/-! #### The tester -/

theorem verdict_alike {s s' : State} {prime prime' : Bool} (hq : quiet s = quiet s') (hn : NumberAlike s s')
    (hp : prime = prime') : OutAlike (s.verdict prime) (s'.verdict prime') := by
  subst hp
  have hrun : s.running = s'.running := eq_of_view hq State.running
  have hver : s.verify = s'.verify := eq_of_view hq State.verify
  rcases running_kinds s with hr | ⟨safe, hr⟩ | ⟨hne, hng⟩
  · rw [verdict_isprime hr, verdict_isprime (hrun ▸ hr)]
    exact outAlike_finish32 hq rfl
  · have hr' := hrun ▸ hr
    have hc : s.cand = s'.cand := hn.2.resolve_left (by simp [hr])
    cases hv : s.verify with
    | none =>
      rw [verdict_unverified hr hv, verdict_unverified hr' (hver ▸ hv)]
      exact .fault _
    | p =>
      rw [verdict_p hr hv, verdict_p hr' (hver ▸ hv)]
      refine outAlike_ite rfl (outAlike_ite rfl ?_ ?_) ?_
      · exact outAlike_goTo hq rfl hc
      · exact outAlike_finish32 hq (congrArg loLimb hc)
      · exact outAlike_goTo hq rfl trivial
    | q =>
      rw [verdict_q hr hv, verdict_q hr' (hver ▸ hv)]
      refine outAlike_ite rfl ?_ ?_
      · exact outAlike_finish32 hq (congrArg loLimb hc)
      · exact outAlike_goTo hq rfl trivial
  · rw [verdict_foreign hne hng, verdict_foreign (hrun ▸ hne) (hrun ▸ hng)]
    exact .fault _

theorem roundPassed_alike {s s' : State} {j : Nat} (hq : quiet s = quiet s') (hf : FactorsAlike s s') :
    OutAlike (s.roundPassed j) (s'.roundPassed j) := by
  have hc : s.checks = s'.checks := eq_of_view hq State.checks
  exact outAlike_ite (by rw [hc]) (outAlike_goTo hq rfl hf) (verdict_alike hq hf.1 rfl)

/-- The base of a round is drawn in the tester only; a draw's end elsewhere is RANDRANGE's or none (43 R166). -/
theorem drawAccepted_alike {s s' : State} {v : Word32} (hq : quiet s = quiet s')
    (hl : s.running = some .randrange ∨ FactorsAlike s s' ∧ s.mr.round = s'.mr.round) :
    OutAlike (s.drawAccepted v) (s'.drawAccepted v) := by
  have hrun : s.running = s'.running := eq_of_view hq State.running
  by_cases hr : s.running = some .randrange
  · rw [drawAccepted_randrange hr, drawAccepted_randrange (hrun ▸ hr)]
    exact outAlike_finish32 hq rfl
  by_cases ht : Tests s
  · obtain ⟨hf, hround⟩ := hl.resolve_left hr
    have ht' : Tests s' := by rwa [Tests, ← hrun]
    rw [drawAccepted_tests ht, drawAccepted_tests ht']
    exact outAlike_goTo hq (congrArg (Seq.ipRound · true) hround) ⟨hf, rfl⟩
  · have ht' : ¬ Tests s' := by rwa [Tests, ← hrun]
    rw [drawAccepted_foreign hr ht, drawAccepted_foreign (hrun ▸ hr) ht']
    exact .fault _

theorem drawExhausted_alike {s s' : State} (hq : quiet s = quiet s') :
    OutAlike s.drawExhausted s'.drawExhausted := by
  have hrun : s.running = s'.running := eq_of_view hq State.running
  by_cases hr : s.running = some .randrange
  · rw [drawExhausted_randrange hr, drawExhausted_randrange (hrun ▸ hr)]
    exact outAlike_raise hq
  by_cases ht : Tests s
  · have ht' : Tests s' := by rwa [Tests, ← hrun]
    rw [drawExhausted_tests ht, drawExhausted_tests ht']
    exact outAlike_raise hq
  · have ht' : ¬ Tests s' := by rwa [Tests, ← hrun]
    rw [drawExhausted_foreign hr ht, drawExhausted_foreign (hrun ▸ hr) ht']
    exact .fault _

theorem beginDraw_alike {s s' : State} {range range' : Word32} (hq : quiet s = quiet s') (hr : range = range')
    (hl : s.running = some .randrange ∨ FactorsAlike s s' ∧ s.mr.round = s'.mr.round) :
    Alike (s.beginDraw range) (s'.beginDraw range') := by
  subst hr
  by_cases h0 : range = 0
  · rw [State.beginDraw, if_pos h0, State.beginDraw, if_pos h0]
    exact alike_raise hq
  · rw [State.beginDraw, if_neg h0, State.beginDraw, if_neg h0]
    exact ⟨hq, rfl, rfl, hl⟩

section
variable {s s' : State} (hq : quiet s = quiet s')
include hq

/-- RR_TRY(k): the same word is drawn, and accepted or not alike (43 R166). -/
theorem stepRrTry_alike (hd : s.draw = s'.draw)
    (hl : s.running = some .randrange ∨ FactorsAlike s s' ∧ s.mr.round = s'.mr.round) (k : Nat) :
    OutAlike (stepRrTry k s) (stepRrTry k s') := by
  have hq3 := afterCalls_quiet hq 3
  simp only [stepRrTry, ← hd, ← randBits_congr hq, randBits_state]
  refine outAlike_ite rfl ?_ (outAlike_ite rfl (outAlike_goTo hq3 rfl ⟨hd, hl⟩) ?_)
  · exact drawAccepted_alike hq3 hl
  · exact drawExhausted_alike hq3

theorem stepIpPre_alike (hn : NumberAlike s s') : OutAlike (stepIpPre s) (stepIpPre s') := by
  have hc : s.checks = s'.checks := eq_of_view hq State.checks
  have hw := hn.1
  refine outAlike_ite (by rw [hc]) ?_ (outAlike_ite (by rw [hw]) ?_ (outAlike_ite (by rw [hw]) ?_
    (outAlike_ite (by rw [hw]) ?_ ?_)))
  · exact outAlike_raise hq
  · exact verdict_alike hq hn rfl
  · exact verdict_alike hq hn (by rw [hw])
  · exact verdict_alike hq hn rfl
  · exact outAlike_goTo hq rfl hn

theorem stepIpTrial_alike (hn : NumberAlike s s') (i : Nat) : OutAlike (stepIpTrial i s) (stepIpTrial i s') := by
  have hw : zext64 s.mr.w = zext64 s'.mr.w := congrArg zext64 hn.1
  have hp : zextSmall (s.prime i) = zextSmall (s'.prime i) := eq_of_view hq fun u => zextSmall (u.prime i)
  refine outAlike_divide hw hp fun d => outAlike_ite rfl ?_ (outAlike_ite rfl ?_ ?_)
  · exact verdict_alike hq hn (congrArg₂ (· == ·) hw hp)
  · exact outAlike_goTo hq rfl hn
  · exact outAlike_goTo hq rfl hn

theorem stepIpFactor_alike (hn : NumberAlike s s') : OutAlike (stepIpFactor s) (stepIpFactor s') :=
  outAlike_goTo hq rfl ⟨hn, congrArg (fun w => (factorTwos w).1) hn.1, congrArg (fun w => (factorTwos w).2) hn.1⟩

theorem stepIpDraw_alike (hf : FactorsAlike s s') (j : Nat) : OutAlike (stepIpDraw j s) (stepIpDraw j s') :=
  .next (beginDraw_alike hq (congrArg (· - 3) hf.1.1) (.inr ⟨hf, rfl⟩))

theorem stepIpPower_alike (hf : FactorsAlike s s') (hb : s.mr.b = s'.mr.b) (j : Nat) :
    OutAlike (stepIpPower j s) (stepIpPower j s') := by
  obtain ⟨⟨hw, hc⟩, ha, hm⟩ := hf
  simp only [stepIpPower, ← hw, ← ha, ← hm, ← hb]
  split
  · exact .fault _
  refine outAlike_ite rfl ?_ (outAlike_ite rfl ?_ ?_)
  · exact roundPassed_alike hq ⟨⟨rfl, hc⟩, rfl, rfl⟩
  · exact outAlike_goTo hq rfl ⟨⟨⟨rfl, hc⟩, rfl, rfl⟩, rfl⟩
  · exact verdict_alike hq ⟨rfl, hc⟩ rfl

theorem stepIpSquare_alike (hf : FactorsAlike s s') (hz : s.mr.z = s'.mr.z) (j t : Nat) :
    OutAlike (stepIpSquare j t s) (stepIpSquare j t s') := by
  obtain ⟨⟨hw, hc⟩, ha, hm⟩ := hf
  simp only [stepIpSquare, ← hw, ← ha, ← hm, ← hz]
  split
  · exact .fault _
  refine outAlike_ite rfl ?_ (outAlike_ite rfl ?_ (outAlike_ite rfl ?_ ?_))
  · exact roundPassed_alike hq ⟨⟨rfl, hc⟩, rfl, rfl⟩
  · exact verdict_alike hq ⟨rfl, hc⟩ rfl
  · exact outAlike_goTo hq rfl ⟨⟨⟨rfl, hc⟩, rfl, rfl⟩, rfl⟩
  · exact verdict_alike hq ⟨rfl, hc⟩ rfl

/-! #### The search -/

theorem stepPgCheck_alike : OutAlike (stepPgCheck s) (stepPgCheck s') := by
  have hbits : s.bits = s'.bits := eq_of_view hq State.bits
  have hadd : s.add = s'.add := eq_of_view hq State.add
  have hchecks : s.checks = s'.checks := eq_of_view hq State.checks
  have hrun : s.running = s'.running := eq_of_view hq State.running
  have hq' : quiet s = quiet { s' with running := s.running } :=
    eq_of_view hq fun u => quiet { u with running := s.running }
  refine outAlike_inSearch hq fun safe => outAlike_ite (by rw [hbits]) (outAlike_raise hq) ?_
  rw [← hrun]
  split
  · exact outAlike_ite (by rw [hadd]) (outAlike_raise hq) (outAlike_goTo hq' rfl trivial)
  · exact outAlike_ite (by rw [hchecks]) (outAlike_raise hq) (outAlike_goTo hq' rfl trivial)
  · exact outAlike_goTo hq' rfl trivial

/-- PG_AGAIN: the same word is drawn and moved to the same class (45 R204, R205). -/
theorem stepPgAgain_alike : OutAlike (stepPgAgain s) (stepPgAgain s') := by
  have hbits : s.bits = s'.bits := eq_of_view hq State.bits
  have hadd : zext64 s.add = zext64 s'.add := eq_of_view hq fun u => zext64 u.add
  have hrem : zext64 s.rem = zext64 s'.rem := eq_of_view hq fun u => zext64 u.rem
  have hcls : s.constrained = s'.constrained := eq_of_view hq State.constrained
  have hq3 := afterCalls_quiet hq 3
  refine outAlike_inSearch hq fun safe => ?_
  simp only [← hbits, ← randBits_congr hq, randBits_state]
  refine outAlike_ite (by rw [hcls]) (outAlike_divide rfl hadd fun d => ?_) ?_
  · exact outAlike_goTo hq3 rfl (congrArg (_ + ·) hrem)
  · exact outAlike_goTo hq3 rfl rfl

theorem stepPgResidue_alike (hc : s.cand = s'.cand) : OutAlike (stepPgResidue s) (stepPgResidue s') := by
  have hres : residues s.cand s.sp = residues s'.cand s'.sp := hc ▸ eq_of_view hq fun u => residues s.cand u.sp
  refine outAlike_inSearch hq fun safe => ?_
  rw [← hres]
  split
  · exact .fault _
  · exact outAlike_goTo hq rfl ⟨hc, rfl, rfl⟩

/-- The search's transitions that only move on. -/
theorem inSearch_goTo_alike {u u' : State} (h : Alike u u') :
    OutAlike (s.inSearch fun _ => .next u) (s'.inSearch fun _ => .next u') :=
  outAlike_inSearch hq fun _ => .next h

theorem stepPgSieve_alike (hs : SieveAlike s s') (i : Nat) : OutAlike (stepPgSieve i s) (stepPgSieve i s') := by
  obtain ⟨hc, hm, hd⟩ := id hs
  have hp : zextSmall (s.prime i) = zextSmall (s'.prime i) := eq_of_view hq fun u => zextSmall (u.prime i)
  have hex : s.params.selfExempt = s'.params.selfExempt := eq_of_view hq (·.params.selfExempt)
  have hv : s.sieved = s'.sieved := by rw [State.sieved, State.sieved, hc, hd]
  refine outAlike_inSearch hq fun safe => outAlike_divide (by rw [hm, hd]) hp fun d =>
    outAlike_ite ?_ ?_ (outAlike_ite rfl ?_ ?_)
  · show (sieveHits s.params.selfExempt safe i (zextSmall (s.prime i)) d.r s.sieved = true) = _
    rw [hex, hp, hv]
    rfl
  · exact outAlike_goTo hq rfl hs
  · exact outAlike_goTo hq rfl hs
  · exact outAlike_goTo hq rfl hs

theorem stepPgBump_alike (hs : SieveAlike s s') : OutAlike (stepPgBump s) (stepPgBump s') := by
  obtain ⟨hc, hm, hd⟩ := hs
  have hmax : s.params.maxDelta = s'.params.maxDelta := eq_of_view hq (·.params.maxDelta)
  have hstep (safe : Bool) : s.bumpStep safe = s'.bumpStep safe := eq_of_view hq (State.bumpStep safe)
  refine outAlike_inSearch hq fun safe => outAlike_ite (by rw [hmax, hd, hstep]) ?_ ?_
  · exact outAlike_goTo hq rfl trivial
  · exact outAlike_goTo hq rfl ⟨hc, hm, congrArg₂ (· + ·) hd (hstep safe)⟩

theorem stepPgFinal_alike (hs : SieveAlike s s') : OutAlike (stepPgFinal s) (stepPgFinal s') := by
  obtain ⟨hc, _, hd⟩ := hs
  have hbits : s.bits = s'.bits := eq_of_view hq State.bits
  have hrun : s.running = s'.running := eq_of_view hq State.running
  have hv : s.sieved = s'.sieved := by rw [State.sieved, State.sieved, hc, hd]
  have hq' : quiet s = quiet { s' with running := s.running } :=
    eq_of_view hq fun u => quiet { u with running := s.running }
  refine outAlike_inSearch hq fun safe => outAlike_ite ?_ ?_ ?_
  · show (bitLen s.sieved ≠ s.bits) = _
    rw [hv, hbits]
  · exact outAlike_goTo hq rfl trivial
  · dsimp only
    rw [← hrun]
    split
    · exact outAlike_goTo hq' rfl hv
    · exact outAlike_finish32 hq' (congrArg loLimb hv)

omit hq in
/-- A transition from states alike leads to outcomes alike. -/
theorem seqStep_alike (h : Alike s s') : OutAlike (seqStep s) (seqStep s') := by
  obtain ⟨hq, hs, hl⟩ := id h
  unfold seqStep
  unfold LiveAlike at hl
  rw [← hs]
  cases hseq : s.seq with
  | idle => exact .next h
  | exec => exact .fault _
  | rrTry k => simp only [hseq] at hl; exact stepRrTry_alike hq hl.1 hl.2 k
  | ipPre => simp only [hseq] at hl; exact stepIpPre_alike hq hl
  | ipTrial i => simp only [hseq] at hl; exact stepIpTrial_alike hq hl i
  | ipFactor => simp only [hseq] at hl; exact stepIpFactor_alike hq hl
  | ipRound j drawn =>
    simp only [hseq] at hl
    cases drawn with
    | false => exact stepIpDraw_alike hq hl j
    | true => exact stepIpPower_alike hq hl.1 hl.2 j
  | ipSquare j t => simp only [hseq] at hl; exact stepIpSquare_alike hq hl.1 hl.2 j t
  | pgCheck => exact stepPgCheck_alike hq
  | pgAgain => exact stepPgAgain_alike hq
  | pgResidue => simp only [hseq] at hl; exact stepPgResidue_alike hq hl
  | pgLoop => simp only [hseq] at hl; exact inSearch_goTo_alike hq ⟨hq, rfl, hl⟩
  | pgSieve i => simp only [hseq] at hl; exact stepPgSieve_alike hq hl i
  | pgBump => simp only [hseq] at hl; exact stepPgBump_alike hq hl
  | pgFinal => simp only [hseq] at hl; exact stepPgFinal_alike hq hl
  | gpCall => exact inSearch_goTo_alike hq ⟨eq_of_view hq fun u => quiet { u with verify := .none }, rfl, trivial⟩
  | gpVerifyP =>
    simp only [hseq] at hl
    exact inSearch_goTo_alike hq ⟨eq_of_view hq fun u => quiet { u with verify := .p }, rfl,
      congrArg loLimb hl, .inr hl⟩
  | gpVerifyQ =>
    simp only [hseq] at hl
    exact inSearch_goTo_alike hq ⟨eq_of_view hq fun u => quiet { u with verify := .q }, rfl,
      congrArg (fun c : Word64 => loLimb ((c - 1) >>> 1)) hl, .inr hl⟩

end

/-! ### The engine's turn and the obligation -/

/-- Runs from states alike lead to outcomes alike. -/
theorem runSeq_alike (n : Nat) {s s' : State} (h : Alike s s') : OutAlike (runSeq n s) (runSeq n s') := by
  induction n generalizing s s' with
  | zero => exact .next h
  | succ n ih =>
    have hb : s.busy = s'.busy := eq_of_view h.1 State.busy
    cases hbusy : s.busy with
    | false =>
      rw [runSeq_idle hbusy, runSeq_idle (hb ▸ hbusy)]
      exact .next h
    | true =>
      have hstep := seqStep_alike h
      simp only [runSeq, hbusy, ← hb, if_true]
      generalize seqStep s = o, seqStep s' = o' at hstep
      cases hstep with
      | next hu => exact ih hu
      | fault r => exact .fault r
      | refused r => exact .refused r

theorem engineTurn_alike {s s' : State} (h : Alike s s') : OutAlike (engineTurn s) (engineTurn s') := by
  have hpace : s.pace = s'.pace := eq_of_view h.1 State.pace
  unfold engineTurn
  rw [← hpace]
  exact runSeq_alike _ h

/-- The loop commands' entries are alike: what a command's first state reads, its start has written. -/
theorem loopEntry_alike {s s' : State} {i : Instr} (h : carried s = carried s') (hi : IsLoop i) :
    Alike (loopEntry i s) (loopEntry i s') := by
  have hq := quiet_start h i
  have hx : s.xl = s'.xl := eq_of_view h State.xl
  rcases hi with rfl | rfl | hsearch
  · exact beginDraw_alike hq hx (.inl rfl)
  · exact ⟨hq, rfl, hx, .inl rfl⟩
  · have entry (u : State) : loopEntry i u = { u.start i with seq := .pgCheck } := by
      obtain ⟨safe, rfl | rfl | rfl⟩ := hsearch <;> rfl
    rw [entry, entry]
    exact ⟨hq, rfl, trivial⟩

theorem exec_loop_alike {s s' : State} {i : Instr} (h : carried s = carried s') (hi : IsLoop i) :
    OutAlike (exec i s) (exec i s') := by
  rcases exec_loop s hi with ⟨hr, e⟩ | ⟨hr, e⟩ <;> rcases exec_loop s' hi with ⟨hr', e'⟩ | ⟨hr', e'⟩
  · rw [e, e']
    exact outAlike_raise (s := s.start i) (s' := s'.start i) (e := .notInitialised) (quiet_start h i)
  · exact absurd ((ready_congr h).mpr hr') hr
  · exact absurd ((ready_congr h).mp hr) hr'
  · rw [e, e']
    exact engineTurn_alike (loopEntry_alike h hi)

/-- Settles O52: a command of one transition by its outcome, a command with named states by the runs from states
alike, which agree in the outcome once they have ended. -/
theorem workingStateCarriesNothing : Obligations.WorkingStateCarriesNothing := by
  intro s s' t i h ht
  by_cases hi : IsLoop i
  · have halike := exec_loop_alike h hi
    have hturn := (exec_loop_turn s hi t ht).2
    rw [ht] at halike
    generalize exec i s' = o at halike
    cases halike with
    | next hu =>
      obtain ⟨hq, _, hl⟩ := hu
      refine ⟨_, rfl, (eq_of_view hq State.busy).symm, fun hidle => ?_⟩
      rcases hturn with hb | ⟨⟨_, hseq, _⟩, _⟩
      · simp [hidle] at hb
      · simp only [LiveAlike, hseq] at hl
        exact hl.symm
  · have hview := exec_endView h hi
    rw [ht] at hview
    generalize exec i s' = o at hview
    cases o with
    | next t' =>
      have hout : outside t = outside t' := by simpa [endView] using hview
      exact ⟨t', rfl, (eq_of_view hout State.busy).symm, fun _ => hout.symm⟩
    | fault r => simp [endView] at hview
    | refused r => simp [endView] at hview

end Sys2Proof.Proofs

/-! The host port in every state: what STATUS holds, what a read gives and what a write stores, while the block is idle
and while a command runs (20 R56, R57). -/

namespace Sys2Proof.Proofs

open Sys2Proof.Machine Sys2Proof.Safety Sys2Proof.Laws

/-! ### STATUS -/

theorem toNat_append_eq_add {m n : Nat} (x : BitVec m) (y : BitVec n) :
    (x ++ y).toNat = x.toNat * 2 ^ n + y.toNat := by
  rw [BitVec.toNat_append, ← Nat.shiftLeft_add_eq_or_of_lt y.isLt, Nat.shiftLeft_eq]

/-- The layout of STATUS (10 R28) as a sum: BUSY at bit 0, DONE, C, ISP, IPT at bits 1 to 4, ERR at bits 11:8. -/
theorem statusBits_toNat (err : BitVec 4) (ipt isp c done busy : Bool) :
    (statusBits err ipt isp c done busy).toNat =
      busy.toNat + 2 * done.toNat + 4 * c.toNat + 8 * isp.toNat + 16 * ipt.toNat + 256 * err.toNat := by
  simp only [statusBits, toNat_append_eq_add, BitVec.toNat_ofBool, BitVec.toNat_ofNat]
  omega

theorem statusBits_flags (err : BitVec 4) (ipt isp c done busy : Bool) :
    (statusBits err ipt isp c done busy).getLsbD 0 = busy ∧ (statusBits err ipt isp c done busy).getLsbD 1 = done ∧
    (statusBits err ipt isp c done busy).getLsbD 3 = isp ∧ (statusBits err ipt isp c done busy).getLsbD 4 = ipt := by
  simp only [statusBits, BitVec.getLsbD_append, BitVec.getLsbD_ofBool]
  simp

/-- The reserved bits 7:5 and 31:12 of STATUS read 0 (10 R28). -/
theorem statusBits_reserved (err : BitVec 4) (ipt isp c done busy : Bool) :
    (statusBits err ipt isp c done busy).toNat / 2 ^ 5 % 2 ^ 3 = 0 ∧
    (statusBits err ipt isp c done busy).toNat / 2 ^ 12 = 0 := by
  rw [statusBits_toNat]
  have herr := err.isLt
  have hbusy := busy.toNat_lt
  have hdone := done.toNat_lt
  have hc := c.toNat_lt
  have hisp := isp.toNat_lt
  have hipt := ipt.toNat_lt
  omega

theorem status_idle {s : State} (h : s.busy = false) :
    s.status = BitVec.ofNat 32
      (2 * s.done.toNat + 4 * s.carry.toNat + 8 * s.isp.toNat + 16 * s.ipt.toNat + 256 * s.err.toNat) := by
  have hnat : s.status.toNat =
      2 * s.done.toNat + 4 * s.carry.toNat + 8 * s.isp.toNat + 16 * s.ipt.toNat + 256 * s.err.toNat := by
    simp [State.status, statusBits_toNat, h]
  rw [← hnat, BitVec.ofNat_toNat, BitVec.setWidth_eq]

/-! ### Reads -/

/-- The register map (10 R20) as a list, in the order of the indices. -/
theorem readIdle_eq_getD (s : State) (idx : RegIndex) :
    s.readIdle idx = [s.xh, s.xl, s.yh, s.yl, s.m, s.add, s.rem, s.checks, s.ph, s.pl, s.qh, s.ql,
      s.cmd, s.status, 0, 0].getD idx.toNat 0 := by
  have hidx := idx.isLt
  unfold State.readIdle
  generalize idx.toNat = n at hidx
  interval_cases n <;> rfl

theorem readOpenWhileBusy_iff (idx : RegIndex) :
    readOpenWhileBusy idx = true ↔ (8 ≤ idx.toNat ∧ idx.toNat ≤ 11) ∨ idx.toNat = 13 := by
  revert idx
  decide

/-- Outside the results and STATUS a read gives the same whether a command runs or not (20 R57). -/
theorem readBusy_eq_readIdle (s : State) (f : Word32) {idx : RegIndex} (hresult : ¬ (8 ≤ idx.toNat ∧ idx.toNat ≤ 11))
    (hstatus : idx.toNat ≠ 13) : s.readBusy f idx = s.readIdle idx := by
  have hopen : ¬ readOpenWhileBusy idx = true := by
    rw [readOpenWhileBusy_iff]
    exact fun h => h.elim hresult hstatus
  have hne : idx ≠ 13 := fun e => hstatus (congrArg BitVec.toNat e)
  rw [State.readBusy, if_neg hne, if_neg hopen]

theorem readBusy_status (s : State) (f : Word32) {idx : RegIndex} (h : idx.toNat = 13) :
    s.readBusy f idx = s.statusBusy f := by
  have heq : idx = 13 := BitVec.eq_of_toNat_eq h
  rw [State.readBusy, if_pos heq]

/-- What 20 R57 says of a read while a command runs, index by index; `f` stands where it says nothing (log 5). -/
theorem readBusy_spec (s : State) (f : Word32) (idx : RegIndex) :
    let v := s.readBusy f idx
    (idx.toNat < 8 → v = [s.xh, s.xl, s.yh, s.yl, s.m, s.add, s.rem, s.checks].getD idx.toNat 0) ∧
    (idx.toNat = 12 → v = s.cmd) ∧
    (idx.toNat = 13 → v.getLsbD 0 = true ∧ v.getLsbD 1 = false ∧ v.getLsbD 3 = s.isp ∧ v.getLsbD 4 = s.ipt ∧
      v.toNat / 2 ^ 5 % 2 ^ 3 = 0 ∧ v.toNat / 2 ^ 12 = 0) ∧
    (14 ≤ idx.toNat → v = 0) := by
  have hidx := idx.isLt
  intro v
  have hmap (hresult : ¬ (8 ≤ idx.toNat ∧ idx.toNat ≤ 11)) (hne : idx.toNat ≠ 13) : v = _ :=
    (readBusy_eq_readIdle s f hresult hne).trans (readIdle_eq_getD s idx)
  refine ⟨fun hoperand => ?_, fun hcmd => ?_, fun hstatus => ?_, fun hreserved => ?_⟩
  · rw [hmap (by omega) (by omega)]
    generalize idx.toNat = n at hoperand
    interval_cases n <;> rfl
  · rw [hmap (by omega) (by omega), hcmd]
    rfl
  · have hv : v = s.statusBusy f := readBusy_status s f hstatus
    obtain ⟨hbit0, hbit1, hbit3, hbit4⟩ := statusBits_flags (f.extractLsb' 8 4) s.ipt s.isp (f.getLsbD 2) false true
    rw [hv]
    exact ⟨hbit0, hbit1, hbit3, hbit4, statusBits_reserved _ _ _ _ _ _⟩
  · rw [hmap (by omega) (by omega)]
    generalize idx.toNat = n at hreserved hidx
    interval_cases n <;> rfl

/-- The value read goes to the host's record, and the engine takes its turn. -/
theorem hostRead_busy {s : State} (h : s.busy = true) (idx : RegIndex) :
    ∃ f n, hostRead idx s = engineTurn { s with hostOut := s.hostOut ++ [s.readBusy f idx], freeReads := n } := by
  obtain ⟨n, hn⟩ := memRead_state s idx
  have hvalue : (s.memRead idx).1 = s.readBusy (Config.freeRead s.freeReads) idx := by simp [State.memRead, h]
  exact ⟨_, n, by rw [hostRead, hn, hvalue]⟩

theorem hostRead_idle {s : State} (h : s.busy = false) (idx : RegIndex) :
    hostRead idx s = .next { s with hostOut := s.hostOut ++ [s.readIdle idx] } := by
  rw [hostRead, memRead_idle h]
  exact engineTurn_idle h

/-- Settles O54: the value is that of `readBusy`, whatever the free value is. -/
theorem readsWhileBusy : Obligations.ReadsWhileBusy := by
  intro s idx rest hbusy
  obtain ⟨f, n, hread⟩ := hostRead_busy (s := { s with hostQueue := rest }) hbusy idx
  exact ⟨_, n, hread, readBusy_spec { s with hostQueue := rest } f idx⟩

/-- Settles O55: an idle block's read is the register map, and its turn of the engine does nothing. -/
theorem readsWhileIdle : Obligations.ReadsWhileIdle := by
  refine ⟨fun s idx rest hidle => ?_, fun s hidle hq => ?_⟩
  · have hread := hostRead_idle (s := { s with hostQueue := rest }) hidle idx
    rw [readIdle_eq_getD, status_idle (s := { s with hostQueue := rest }) hidle] at hread
    exact hread
  · rw [step, hq]
    exact engineTurn_idle hidle

/-! ### Writes -/

theorem hostWrite_busy {s : State} (h : s.busy = true) (idx : RegIndex) (v : Word32) :
    hostWrite idx v s = engineTurn s := if_pos h

/-- Away from CMD a write to an idle block is a register write. -/
theorem hostWrite_idle {s : State} (h : s.busy = false) {idx : RegIndex} (hne : idx.toNat ≠ 12) (v : Word32) :
    hostWrite idx v s = .next (s.memWrite idx v) := by
  have hcmd : idx ≠ 12 := fun e => hne (congrArg BitVec.toNat e)
  rw [hostWrite, if_neg (Bool.eq_false_iff.mp h), if_neg hcmd]

/-- The indices 0 to 7 store (20 R56). -/
theorem memWrite_operands {s : State} (h : s.busy = false) (v : Word32) :
    s.memWrite 0 v = { s with xh := v } ∧ s.memWrite 1 v = { s with xl := v } ∧
    s.memWrite 2 v = { s with yh := v } ∧ s.memWrite 3 v = { s with yl := v } ∧
    s.memWrite 4 v = { s with m := v } ∧ s.memWrite 5 v = { s with add := v } ∧
    s.memWrite 6 v = { s with rem := v } ∧ s.memWrite 7 v = { s with checks := v } := by
  simp [State.memWrite, h]

/-- The indices from 8 on store nothing (20 R56). -/
theorem memWrite_of_le (s : State) {idx : RegIndex} (h : 8 ≤ idx.toNat) (v : Word32) : s.memWrite idx v = s := by
  have hidx := idx.isLt
  unfold State.memWrite
  generalize idx.toNat = n at h hidx
  split
  · rfl
  · interval_cases n <;> rfl

/-- Settles O53: the write is the engine's turn alone, which writes no register of the host. -/
theorem writesWhileBusyAreIgnored : Obligations.WritesWhileBusyAreIgnored := by
  intro s idx v rest hbusy
  have hstep : step { s with hostQueue := .write idx v :: rest } = engineTurn { s with hostQueue := rest } :=
    hostWrite_busy (s := { s with hostQueue := rest }) hbusy idx v
  refine ⟨hstep, fun t ht => ?_⟩
  obtain ⟨hregs, _⟩ := kept_of_fixed (engineTurn_fixed (hstep.symm.trans ht))
  exact hregs

/-- Settles O56: away from CMD a write to an idle block is `memWrite`, which stores at the operand registers alone. -/
theorem writesWhileIdle : Obligations.WritesWhileIdle := by
  intro s v rest hidle after
  have stores {idx : RegIndex} {t : State} (hne : idx.toNat ≠ 12)
      (ht : { s with hostQueue := rest }.memWrite idx v = t) : after idx = .next t :=
    (hostWrite_idle (s := { s with hostQueue := rest }) hidle hne v).trans (congrArg _ ht)
  obtain ⟨h0, h1, h2, h3, h4, h5, h6, h7⟩ := memWrite_operands (s := { s with hostQueue := rest }) hidle v
  exact ⟨stores (by decide) h0, stores (by decide) h1, stores (by decide) h2, stores (by decide) h3,
    stores (by decide) h4, stores (by decide) h5, stores (by decide) h6, stores (by decide) h7,
    fun idx hlow hne => stores hne (memWrite_of_le _ hlow v)⟩

end Sys2Proof.Proofs

/-! The decoder and the encoder (30 R70 to R75), in the order of the definitions: the fields of a word as numbers, the
rows of the opcode map, the decoder's answer by the row it finds; then the round trip and the illegal words. -/

namespace Sys2Proof.Proofs

open Sys2Proof.Machine Sys2Proof.Safety Sys2Proof.Laws

/-! ### The fields of a command word -/

theorem opcodeField_toNat (w : Word32) : (opcodeField w).toNat = w.toNat % 256 := by
  simp [opcodeField, BitVec.extractLsb'_toNat]

theorem flagS_toNat (w : Word32) : (flagS w).toNat = w.toNat / 256 % 2 := by
  rw [flagS, BitVec.getLsbD, Nat.toNat_testBit]

theorem extractLsb'_to_top_eq_zero_iff {start len : Nat} (w : Word32) (h : start + len = 32) :
    w.extractLsb' start len = 0#len ↔ w.toNat / 2 ^ start = 0 := by
  have hlt : w.toNat / 2 ^ start < 2 ^ len :=
    Nat.div_lt_of_lt_mul (by rw [← pow_add, h]; exact w.isLt)
  rw [← BitVec.toNat_inj, BitVec.extractLsb'_toNat, Nat.shiftRight_eq_div_pow, Nat.mod_eq_of_lt hlt,
    BitVec.toNat_zero]

theorem encode_toNat (i : Instr) : (encode i).toNat = 256 * (safeFlag i).toNat + (opcode i).toNat := by
  simp only [encode, toNat_append_eq_add, BitVec.toNat_ofBool, BitVec.toNat_ofNat]
  omega

theorem opcodeField_encode (i : Instr) : opcodeField (encode i) = opcode i := by
  apply BitVec.eq_of_toNat_eq
  rw [opcodeField_toNat, encode_toNat]
  have := (opcode i).isLt
  omega

theorem flagS_encode (i : Instr) : flagS (encode i) = safeFlag i := by
  rw [Bool.eq_iff_iff, ← Bool.toNat_eq_one, ← Bool.toNat_eq_one (b := safeFlag i), flagS_toNat, encode_toNat]
  have := (opcode i).isLt
  have := (safeFlag i).toNat_lt
  omega

/-! ### The rows of the opcode map -/

/-- The row that the decoder finds for an opcode (30 R73). -/
def rowOf (op : BitVec 8) : Option OpRow := opcodeMap.find? (fun r => r.op == op)

/-- The opcodes that 30 R75 lists as unused. -/
abbrev UnusedOpcode (op : Nat) : Prop :=
  (0x0A ≤ op ∧ op ≤ 0x10) ∨ op = 0x17 ∨ (0x1A ≤ op ∧ op ≤ 0x20) ∨ (0x24 ≤ op ∧ op ≤ 0x2F) ∨
  (0x34 ≤ op ∧ op ≤ 0x40) ∨ (0x43 ≤ op ∧ op ≤ 0x50) ∨ (0x54 ≤ op ∧ op ≤ 0x5F) ∨ 0x62 ≤ op

theorem rowOf_isNone_iff : ∀ op : BitVec 8, (rowOf op).isNone = true ↔ UnusedOpcode op.toNat := by decide

theorem mem_of_rowOf {op : BitVec 8} {r : OpRow} (h : rowOf op = some r) : r ∈ opcodeMap ∧ r.op = op :=
  ⟨List.mem_of_find?_eq_some h, by simpa using List.find?_some h⟩

/-- The opcodes of format S are 0x51 to 0x53 (30 R73). -/
theorem fmt_eq_S_iff : ∀ r ∈ opcodeMap, r.fmt = .S ↔ 0x51 ≤ r.op.toNat ∧ r.op.toNat ≤ 0x53 := by decide

/-- What a row builds has the row's opcode and, where the format has a flag, the flag it was built with. -/
theorem opcode_build : ∀ r ∈ opcodeMap, ∀ f : Bool, (r.fmt = .N → f = false) →
    opcode (r.build f) = r.op ∧ safeFlag (r.build f) = f := by decide

/-- Every command is built by the row of its opcode. -/
theorem rowOf_opcode (i : Instr) :
    ∃ r, rowOf (opcode i) = some r ∧ (r.fmt = .N → safeFlag i = false) ∧ r.build (safeFlag i) = i := by
  cases i <;> exact ⟨_, rfl, by simp [safeFlag], rfl⟩

/-! ### The decoder by the row it finds -/

section
variable {w : Word32} {r : OpRow}

theorem decode_of_rowOf_none (h : rowOf (opcodeField w) = none) : decode w = none := by
  rw [rowOf] at h
  simp [decode, decodeWord, h]

/-- A row of format N takes the words with bits 31:8 zero (30 R74). -/
theorem decode_of_format_N (h : rowOf (opcodeField w) = some r) (hN : r.fmt = .N) :
    decode w = if w.toNat / 256 = 0 then some (r.build false) else none := by
  rw [rowOf] at h
  have hzero : w.extractLsb' 8 24 = 0#24 ↔ w.toNat / 256 = 0 := extractLsb'_to_top_eq_zero_iff w rfl
  simp only [decode, decodeWord, h, hN, hzero]
  split_ifs <;> rfl

/-- A row of format S takes the words with bits 31:9 zero (30 R74). -/
theorem decode_of_format_S (h : rowOf (opcodeField w) = some r) (hS : r.fmt = .S) :
    decode w = if w.toNat / 512 = 0 then some (r.build (flagS w)) else none := by
  rw [rowOf] at h
  have hzero : w.extractLsb' 9 23 = 0#23 ↔ w.toNat / 512 = 0 := extractLsb'_to_top_eq_zero_iff w rfl
  simp only [decode, decodeWord, h, hS, hzero]
  split_ifs <;> rfl

end

/-! ### The round trip -/

theorem decode_encode (i : Instr) : decode (encode i) = some i := by
  obtain ⟨r, hrow, hflag, hbuild⟩ := rowOf_opcode i
  rw [← opcodeField_encode] at hrow
  have hop := (opcode i).isLt
  have hle := (safeFlag i).toNat_le
  cases hfmt : r.fmt with
  | N =>
    have hfalse := hflag hfmt
    rw [decode_of_format_N hrow hfmt, encode_toNat, if_pos (by simp only [hfalse, Bool.toNat_false]; omega), ← hfalse,
      hbuild]
  | S => rw [decode_of_format_S hrow hfmt, encode_toNat, if_pos (by omega), flagS_encode, hbuild]

/-- What a word decodes to is encoded by no other word. -/
theorem encode_of_decode {w : Word32} {i : Instr} (h : decode w = some i) : encode i = w := by
  apply BitVec.eq_of_toNat_eq
  rw [encode_toNat]
  cases hrow : rowOf (opcodeField w) with
  | none => simp [decode_of_rowOf_none hrow] at h
  | some r =>
    obtain ⟨hr, hop⟩ := mem_of_rowOf hrow
    cases hfmt : r.fmt with
    | N =>
      rw [decode_of_format_N hrow hfmt] at h
      obtain ⟨hzero, rfl⟩ : w.toNat / 256 = 0 ∧ r.build false = i := by simpa using h
      obtain ⟨hopcode, hflag⟩ := opcode_build r hr false fun _ => rfl
      rw [hopcode, hflag, hop, opcodeField_toNat, Bool.toNat_false]
      omega
    | S =>
      rw [decode_of_format_S hrow hfmt] at h
      obtain ⟨hzero, rfl⟩ : w.toNat / 512 = 0 ∧ r.build (flagS w) = i := by simpa using h
      obtain ⟨hopcode, hflag⟩ := opcode_build r hr (flagS w) (by simp [hfmt])
      rw [hopcode, hflag, hop, opcodeField_toNat, flagS_toNat]
      omega

/-- Settles O1: a command's word finds the command's own row, and the row a word finds builds a command of that word. -/
theorem decodeIsTheInverseOfEncode : Obligations.DecodeIsTheInverseOfEncode :=
  ⟨fun i _ => decode_encode i, fun _ i => ⟨encode_of_decode, fun h => h ▸ decode_encode i⟩⟩

/-! ### The illegal words -/

/-- Settles O2: the decoder rejects for want of a row, which is an unused opcode, or for the ZERO bits that the row's
format asks for, and the format is read off the opcode. -/
theorem illegalWordsAreThoseListed : Obligations.IllegalWordsAreThoseListed := by
  intro w
  have hopcode := opcodeField_toNat w
  have hunused := rowOf_isNone_iff (opcodeField w)
  cases hrow : rowOf (opcodeField w) with
  | none =>
    have hlisted : UnusedOpcode (w.toNat % 256) := hopcode ▸ hunused.mp (by rw [hrow]; rfl)
    simp only [decode_of_rowOf_none hrow, true_iff]
    omega
  | some r =>
    have hused : ¬ UnusedOpcode (w.toNat % 256) := fun h => by simpa [hrow] using hunused.mpr (hopcode ▸ h)
    obtain ⟨hr, hop⟩ := mem_of_rowOf hrow
    have hrange := fmt_eq_S_iff r hr
    rw [hop, hopcode] at hrange
    cases hfmt : r.fmt with
    | N =>
      have hN : ¬ (0x51 ≤ w.toNat % 256 ∧ w.toNat % 256 ≤ 0x53) := fun h => by simpa [hfmt] using hrange.mpr h
      rw [decode_of_format_N hrow hfmt]
      simp only [ite_eq_right_iff, reduceCtorEq, imp_false]
      omega
    | S =>
      have hS := hrange.mp hfmt
      rw [decode_of_format_S hrow hfmt]
      simp only [ite_eq_right_iff, reduceCtorEq, imp_false]
      omega

/-- Settles O3: nine words are encodings, two are on the list of illegal words. -/
theorem wordsOfTheOpcodeMapDecode : Obligations.WordsOfTheOpcodeMapDecode :=
  have legal {w : Word32} {i : Instr} (h : encode i = w) : decode w = some i := h ▸ decode_encode i
  ⟨legal rfl, legal rfl, legal rfl, legal rfl, legal rfl, legal rfl, legal rfl, legal rfl, legal rfl,
    (illegalWordsAreThoseListed _).mpr (by decide), (illegalWordsAreThoseListed _).mpr (by decide)⟩

/-- Settles O5: the word decodes to nothing, and the error is raised in the state that has stored it. -/
theorem illegalWordEndsWithIllegalCommand : Obligations.IllegalWordEndsWithIllegalCommand := by
  intro s w rest hidle hqueue hillegal
  have hdecode : decode w = none := (illegalWordsAreThoseListed w).mpr hillegal
  calc step s = hostWrite 12 w { s with hostQueue := rest } := by rw [step, hqueue]; rfl
    _ = acceptCommand w { s with hostQueue := rest } := by simp [hostWrite, hidle]
    _ = .next ({ s with hostQueue := rest, cmd := w }.raise .illegalCommand) := by
      simp only [acceptCommand, hdecode, State.illegal]
    _ = .next (failed { s with hostQueue := rest, cmd := w } 6) := congrArg _ (raise_eq_failed _ _)

end Sys2Proof.Proofs

/-! The word commands (40 R101 to R109): how a command whose work is one datapath unit, or one division, ends after
setup; what the units give, in the form in which the rules state it; then the obligations. -/

namespace Sys2Proof.Proofs

open Sys2Proof.Machine Sys2Proof.Safety Sys2Proof.Laws

/-! ### The commands after setup -/

theorem decode_of_encode {w : Word32} {i : Instr} (h : encode i = w) : decode w = some i := h ▸ decode_encode i

section
variable {s : State} {i : Instr} (h : Ready s)
include h

/-- A gated command whose body is one end without error: nothing of its start is left. -/
theorem command_ended {body : State → Out} {ph pl qh ql : Word32} {c : Bool}
    (hbody : body (s.start i) = .next ((s.start i).finish ph pl qh ql c)) :
    s.command i body = .next (ended s ph pl qh ql c) := by
  rw [command_ready h, hbody, finish_start]

/-- A gated command that finds its operands bad (60 R275). -/
theorem command_invalidParameter {bad : State → Prop} [∀ u, Decidable (bad u)] {body : State → Out}
    (hbad : bad (s.start i)) :
    (s.command i fun u => if bad u then .next (u.raise .invalidParameter) else body u) = .next (failed s 1) :=
  (command_ready h i _).trans (if_pos hbad)

/-- A gated command that ends with what the divider gives, its operands not bad. -/
theorem command_divided {bad : State → Prop} [∀ u, Decidable (bad u)] {a b : State → Word64}
    {ph pl qh ql : DivWork → Word32} (hbad : ¬ bad (s.start i)) (hb : b (s.start i) ≠ 0#64) :
    (s.command i fun u => if bad u then .next (u.raise .invalidParameter)
      else u.divide (a u) (b u) fun d v => .next (v.finish (ph d) (pl d) (qh d) (ql d) false)) =
    let d := divRem64 (a (s.start i)) (b (s.start i)) hb
    .next { ended s (ph d) (pl d) (qh d) (ql d) false with div := d } :=
  (command_ready h i _).trans ((if_neg hbad).trans (divide_of_ne hb _ _ _))

theorem exec_cmp32 : exec .cmp32 s = .next (ended s 0 (cmp32 s.xl s.yl) 0 0 false) := by
  unfold exec execCmp32; exact command_ended h rfl

theorem exec_add32 :
    exec .add32 s = .next (ended s 0 (addWithCarry s.xl s.yl).1 0 0 (addWithCarry s.xl s.yl).2) := by
  unfold exec execAdd32; exact command_ended h rfl

theorem exec_sub32 :
    exec .sub32 s = .next (ended s 0 (subWithBorrow s.xl s.yl).1 0 0 (subWithBorrow s.xl s.yl).2) := by
  unfold exec execSub32; exact command_ended h rfl

theorem exec_neg32 : exec .neg32 s = .next (ended s 0 (neg32 s.xl) 0 0 false) := by
  unfold exec execNeg32; exact command_ended h rfl

theorem exec_srl32 : exec .srl32 s = .next (ended s 0 (srl32 s.xl s.yl.toNat) 0 0 false) := by
  unfold exec execSrl32; exact command_ended h rfl

theorem exec_sll32 : exec .sll32 s = .next (ended s 0 (sll32 s.xl s.yl.toNat) 0 0 false) := by
  unfold exec execSll32; exact command_ended h rfl

theorem exec_mul32 :
    exec .mul32 s = .next (ended s (hiLimb (mul32 s.xl s.yl)) (loLimb (mul32 s.xl s.yl)) 0 0 false) := by
  unfold exec execMul32; exact command_ended h rfl

theorem exec_bitlen32 : exec .bitlen32 s = .next (ended s 0 (BitVec.ofNat 32 (bitLen s.xl)) 0 0 false) := by
  unfold exec execBitlen32; exact command_ended h rfl

theorem exec_divrem32_zero (hzero : s.yl = 0) : exec .divrem32 s = .next (failed s 1) := by
  unfold exec execDivrem32; exact command_invalidParameter h hzero

theorem exec_divrem32_ne (hne : s.yl ≠ 0) :
    let d := divRem64 (zext64 s.xl) (zext64 s.yl) (zext64_ne_zero hne)
    exec .divrem32 s = .next { ended s 0 (loLimb d.q) 0 (loLimb d.r) false with div := d } := by
  unfold exec execDivrem32; exact command_divided h hne (zext64_ne_zero hne)

end

/-! ### Words from their numbers -/

theorem eq_ofNat_of_toNat_eq {w n : Nat} {v : BitVec w} (h : v.toNat = n) : v = BitVec.ofNat w n := by
  rw [← h, BitVec.ofNat_toNat, BitVec.setWidth_eq]

theorem loLimb_eq_lower (v : Word64) : loLimb v = lower v.toNat := by
  apply BitVec.eq_of_toNat_eq
  rw [loLimb_toNat, lower, BitVec.toNat_ofNat]

theorem hiLimb_eq_upper (v : Word64) : hiLimb v = upper v.toNat := eq_ofNat_of_toNat_eq (hiLimb_toNat v)

/-! ### What the units give -/

theorem cmp32_eq (a b : Word32) :
    cmp32 a b = if a.toNat < b.toNat then 0xFFFFFFFF else if a.toNat = b.toNat then 0 else 1 := by
  simp only [cmp32, BitVec.lt_def, BitVec.toNat_inj]
  rfl

theorem addWithCarry_eq (a b : Word32) :
    addWithCarry a b =
      (BitVec.ofNat 32 ((a.toNat + b.toNat) % 2 ^ 32), decide (2 ^ 32 ≤ a.toNat + b.toNat)) := by
  have ha := a.isLt
  refine Prod.ext (eq_ofNat_of_toNat_eq (BitVec.toNat_add a b)) (decide_eq_decide.mpr ?_)
  rw [BitVec.lt_def, BitVec.toNat_not]
  omega

/-- The borrow is 1 exactly when the exact difference is negative (40 R103). -/
theorem subWithBorrow_eq (a b : Word32) :
    subWithBorrow a b = (BitVec.ofInt 32 ((a.toNat : Int) - b.toNat), decide (a.toNat < b.toNat)) := by
  have hexact := subWithBorrow_exact a b
  have hdiff := (subWithBorrow a b).1.isLt
  have hb := b.isLt
  have hborrow : (subWithBorrow a b).2 = decide (a.toNat < b.toNat) := by
    cases hc : (subWithBorrow a b).2 with
    | false =>
      rw [hc, Bool.toNat_false] at hexact
      exact (decide_eq_false (by omega)).symm
    | true =>
      rw [hc, Bool.toNat_true] at hexact
      exact (decide_eq_true (by omega)).symm
  refine Prod.ext (BitVec.eq_of_toNat_eq ?_) hborrow
  rw [BitVec.toNat_ofInt]
  omega

theorem neg32_eq (a : Word32) : neg32 a = BitVec.ofNat 32 ((2 ^ 32 - a.toNat) % 2 ^ 32) := by
  have ha := a.isLt
  have hone : (1 : Word32).toNat = 1 := rfl
  rw [neg32, addWithCarry_eq, BitVec.toNat_not, hone]
  exact congrArg (BitVec.ofNat 32) (by omega)

theorem srl32_eq (v : Word32) (n : Nat) : srl32 v n = if 32 ≤ n then 0 else BitVec.ofNat 32 (v.toNat / 2 ^ n) := by
  split_ifs with hn
  · exact if_pos hn
  · exact eq_ofNat_of_toNat_eq (srl32_toNat v n)

theorem sll32_eq (v : Word32) (n : Nat) :
    sll32 v n = if 32 ≤ n then 0 else BitVec.ofNat 32 (v.toNat * 2 ^ n % 2 ^ 32) := by
  split_ifs with hn
  · exact if_pos hn
  · exact eq_ofNat_of_toNat_eq (sll32_toNat v n)

/-- The binary length is the smallest shift that clears a number (40 R108, 41 R128). -/
theorem div_two_pow_eq_zero_iff_size_le (n k : Nat) : n / 2 ^ k = 0 ↔ Nat.size n ≤ k := by
  rw [Nat.div_eq_zero_iff_lt (Nat.two_pow_pos k), Nat.size_le]

theorem bitLen_isLeast {w : Nat} (v : BitVec w) :
    bitLen v ≤ w ∧ v.toNat / 2 ^ bitLen v = 0 ∧ ∀ k < bitLen v, v.toNat / 2 ^ k ≠ 0 := by
  simp only [bitLen_eq_size, div_two_pow_eq_zero_iff_size_le, ne_eq, Nat.not_le]
  exact ⟨Nat.size_le.mpr v.isLt, le_rfl, fun _ hk => hk⟩

/-- The divider on zero-extended limbs: quotient and remainder, as limbs (40 R109). -/
theorem divRem64_zext64 (a b : Word32) (h : zext64 b ≠ 0#64) :
    loLimb (divRem64 (zext64 a) (zext64 b) h).q = BitVec.ofNat 32 (a.toNat / b.toNat) ∧
    loLimb (divRem64 (zext64 a) (zext64 b) h).r = BitVec.ofNat 32 (a.toNat % b.toNat) := by
  obtain ⟨hq, hr, _⟩ := divRem64_spec (zext64 a) (zext64 b) h
  rw [zext64_toNat, zext64_toNat] at hq hr
  exact ⟨by rw [loLimb_eq_lower, hq, lower], by rw [loLimb_eq_lower, hr, lower]⟩

/-! ### The obligations -/

/-- Settles O6: the block's order is the unsigned one. -/
theorem cmp32ComparesUnsigned : Obligations.Cmp32ComparesUnsigned :=
  ⟨decode_of_encode rfl, fun s h => by rw [exec_cmp32 h, cmp32_eq]⟩

/-- Settles O7: the complement form of the carry is the carry out. -/
theorem add32GivesSumAndCarry : Obligations.Add32GivesSumAndCarry :=
  ⟨decode_of_encode rfl, fun s h => by rw [exec_add32 h, addWithCarry_eq]⟩

/-- Settles O8: the two adds give the difference and, complemented, their carries the borrow. -/
theorem sub32GivesDifferenceAndBorrow : Obligations.Sub32GivesDifferenceAndBorrow :=
  ⟨decode_of_encode rfl, fun s h => by rw [exec_sub32 h, subWithBorrow_eq]⟩

/-- Settles O9: complement plus one, by the sum of the carry-safe add. -/
theorem neg32Negates : Obligations.Neg32Negates :=
  ⟨decode_of_encode rfl, fun s h => by rw [exec_neg32 h, neg32_eq]⟩

/-- Settles O10: the shift's two cases, amounts from 32 on and below. -/
theorem srl32ShiftsRight : Obligations.Srl32ShiftsRight :=
  ⟨decode_of_encode rfl, fun s h => by rw [exec_srl32 h, srl32_eq]⟩

/-- Settles O11: the shift's two cases, amounts from 32 on and below. -/
theorem sll32ShiftsLeft : Obligations.Sll32ShiftsLeft :=
  ⟨decode_of_encode rfl, fun s h => by rw [exec_sll32 h, sll32_eq]⟩

/-- Settles O12: the two limbs of the datapath's word are those of the exact product. -/
theorem mul32GivesTheExactProduct : Obligations.Mul32GivesTheExactProduct :=
  ⟨decode_of_encode rfl, fun s h => by rw [exec_mul32 h, hiLimb_eq_upper, loLimb_eq_lower, mul32_toNat]⟩

/-- Settles O13: the loop's count is the least shift that clears the operand. -/
theorem bitlen32IsTheBitLength : Obligations.Bitlen32IsTheBitLength := by
  refine ⟨decode_of_encode rfl, fun s h => ?_⟩
  obtain ⟨hwidth, hclears, hleast⟩ := bitLen_isLeast s.xl
  exact ⟨bitLen s.xl, hwidth, exec_bitlen32 h, hclears, hleast⟩

/-- Settles O14: a zero divisor is caught before the divider, which otherwise divides the zero-extended operands. -/
theorem divrem32Divides : Obligations.Divrem32Divides := by
  refine ⟨decode_of_encode rfl, fun s h => ⟨exec_divrem32_zero h, fun hne => ?_⟩⟩
  have hb := zext64_ne_zero hne
  obtain ⟨hq, hr⟩ := divRem64_zext64 s.xl s.yl hb
  exact ⟨divRem64 (zext64 s.xl) (zext64 s.yl) hb, by rw [exec_divrem32_ne h hne, hq, hr]⟩

end Sys2Proof.Proofs

/-! The double-word commands (41 R121 to R129): how each ends after setup, with its 64-bit operands as numbers; what the
limb-by-limb units give, as numbers; then the obligations. -/

namespace Sys2Proof.Proofs

open Sys2Proof.Machine Sys2Proof.Safety Sys2Proof.Laws

/-! ### The commands after setup -/

theorem opA64_toNat (s : State) : s.opA64.toNat = value64 s.xh s.xl := joinLimbs_toNat s.xh s.xl

theorem opB64_toNat (s : State) : s.opB64.toNat = value64 s.yh s.yl := joinLimbs_toNat s.yh s.yl

theorem opB64_eq_zero_iff (s : State) : s.opB64 = 0 ↔ value64 s.yh s.yl = 0 := by
  rw [← BitVec.toNat_inj, opB64_toNat]
  rfl

section
variable {s : State} {i : Instr} (h : Ready s)
include h

/-- A gated command whose body is one end with a 64-bit result: PH and PL are the limbs of its number. -/
theorem command_ended64 {body : State → Out} {p : Word64} {c : Bool}
    (hbody : body (s.start i) = .next ((s.start i).finish64 p c)) :
    s.command i body = .next (ended s (upper p.toNat) (lower p.toNat) 0 0 c) := by
  rw [← hiLimb_eq_upper, ← loLimb_eq_lower]
  exact command_ended h hbody

theorem exec_cmp64 : exec .cmp64 s = .next (ended s 0 (cmp64 s.opA64 s.opB64) 0 0 false) := by
  unfold exec execCmp64; exact command_ended h rfl

theorem exec_add64 :
    let r := addWithCarry64 s.opA64 s.opB64
    exec .add64 s = .next (ended s (upper r.1.toNat) (lower r.1.toNat) 0 0 r.2) := by
  unfold exec execAdd64; exact command_ended64 h rfl

theorem exec_sub64 :
    let r := subWithBorrow64 s.opA64 s.opB64
    exec .sub64 s = .next (ended s (upper r.1.toNat) (lower r.1.toNat) 0 0 r.2) := by
  unfold exec execSub64; exact command_ended64 h rfl

theorem exec_neg64 :
    let r := neg64 s.opA64
    exec .neg64 s = .next (ended s (upper r.toNat) (lower r.toNat) 0 0 false) := by
  unfold exec execNeg64; exact command_ended64 h rfl

theorem exec_srl64 :
    let r := srl64 s.opA64 s.yl.toNat
    exec .srl64 s = .next (ended s (upper r.toNat) (lower r.toNat) 0 0 false) := by
  unfold exec execSrl64; exact command_ended64 h rfl

theorem exec_sll64 :
    let r := sll64 s.opA64 s.yl.toNat
    exec .sll64 s = .next (ended s (upper r.toNat) (lower r.toNat) 0 0 false) := by
  unfold exec execSll64; exact command_ended64 h rfl

theorem exec_bitlen64 : exec .bitlen64 s = .next (ended s 0 (BitVec.ofNat 32 (bitLen s.opA64)) 0 0 false) := by
  unfold exec execBitlen64; exact command_ended h rfl

theorem exec_divrem64_zero (hzero : s.opB64 = 0) : exec .divrem64 s = .next (failed s 1) := by
  unfold exec execDivrem64; exact command_invalidParameter h hzero

theorem exec_divrem64_ne (hne : s.opB64 ≠ 0) :
    let d := divRem64 s.opA64 s.opB64 hne
    exec .divrem64 s =
      .next { ended s (hiLimb d.q) (loLimb d.q) (hiLimb d.r) (loLimb d.r) false with div := d } := by
  unfold exec execDivrem64; exact command_divided h hne hne

end

/-! ### Comparison, sum and difference -/

theorem toNat_eq_limbs (v : Word64) : v.toNat = (hiLimb v).toNat * 2 ^ 32 + (loLimb v).toNat := by
  rw [hiLimb_toNat, loLimb_toNat, Nat.div_add_mod']

theorem cmp32_eq_zero_iff (a b : Word32) : cmp32 a b = 0#32 ↔ a.toNat = b.toNat := by
  rw [cmp32_eq]
  split_ifs with hlt heq
  · exact iff_of_false (by decide) (Nat.ne_of_lt hlt)
  · exact iff_of_true rfl heq
  · exact iff_of_false (by decide) heq

/-- The high limbs decide, and the low limbs where those are equal (41 R121). -/
theorem cmp64_eq (a b : Word64) :
    cmp64 a b = if a.toNat < b.toNat then 0xFFFFFFFF else if a.toNat = b.toNat then 0 else 1 := by
  have ha := toNat_eq_limbs a
  have hb := toNat_eq_limbs b
  have hla := (loLimb a).isLt
  have hlb := (loLimb b).isLt
  simp only [cmp64]
  by_cases hhigh : (hiLimb a).toNat = (hiLimb b).toNat
  · have hlt : (loLimb a).toNat < (loLimb b).toNat ↔ a.toNat < b.toNat := by omega
    have heq : (loLimb a).toNat = (loLimb b).toNat ↔ a.toNat = b.toNat := by omega
    rw [if_pos ((cmp32_eq_zero_iff _ _).mpr hhigh), cmp32_eq]
    simp only [hlt, heq]
  · have hlt : (hiLimb a).toNat < (hiLimb b).toNat ↔ a.toNat < b.toNat := by omega
    have heq : (hiLimb a).toNat = (hiLimb b).toNat ↔ a.toNat = b.toNat := by omega
    rw [if_neg (mt (cmp32_eq_zero_iff _ _).mp hhigh), cmp32_eq]
    simp only [hlt, heq]

/-- Sum and carry, each by itself (41 R122). -/
theorem addWithCarry64_spec (a b : Word64) :
    (addWithCarry64 a b).1.toNat = (a.toNat + b.toNat) % 2 ^ 64 ∧
    (addWithCarry64 a b).2 = decide (2 ^ 64 ≤ a.toNat + b.toNat) := by
  have hexact := addWithCarry64_exact a b
  have hsum := (addWithCarry64 a b).1.isLt
  have hflag := (addWithCarry64 a b).2.toNat_le
  refine ⟨by omega, ?_⟩
  rw [Bool.eq_iff_iff, decide_eq_true_iff, ← Bool.toNat_eq_one]
  omega

/-- Difference and borrow, each by itself (41 R124). -/
theorem subWithBorrow64_spec (a b : Word64) :
    (subWithBorrow64 a b).1.toNat = (2 ^ 64 + a.toNat - b.toNat) % 2 ^ 64 ∧
    (subWithBorrow64 a b).2 = decide (a.toNat < b.toNat) := by
  have hexact := subWithBorrow64_exact a b
  have hdiff := (subWithBorrow64 a b).1.isLt
  have hb := b.isLt
  have hflag := (subWithBorrow64 a b).2.toNat_le
  refine ⟨by omega, ?_⟩
  rw [Bool.eq_iff_iff, decide_eq_true_iff, ← Bool.toNat_eq_one]
  omega

/-- The carry into the complemented high limb is 1 exactly when the low limb is 0 (41 R125). -/
theorem neg64_toNat (a : Word64) : (neg64 a).toNat = (2 ^ 64 - a.toNat) % 2 ^ 64 := by
  have ha := a.isLt
  have hexact := addWithCarry_exact (~~~(loLimb a)) 1
  have hlo := (addWithCarry (~~~(loLimb a)) 1).1.isLt
  have hone : (1 : Word32).toNat = 1 := rfl
  simp only [BitVec.toNat_not, loLimb_toNat, hone] at hexact
  simp only [neg64, joinLimbs_toNat, BitVec.toNat_add, BitVec.toNat_not, hiLimb_toNat, carryIn_toNat]
  omega

/-! ### Shifts -/

/-- The bits that a shift moves from limb to limb: the two parts overlap in no bit (41 R126, R127). -/
theorem sll32_or_srl32_toNat (x y : Word32) {n : Nat} (hn : n ≤ 32) :
    (sll32 x n ||| srl32 y (32 - n)).toNat = x.toNat * 2 ^ n % 2 ^ 32 + y.toNat / 2 ^ (32 - n) := by
  obtain ⟨k, hk⟩ : 2 ^ n ∣ x.toNat * 2 ^ n % 2 ^ 32 :=
    (Nat.dvd_mod_iff (pow_dvd_pow 2 hn)).mpr (Nat.dvd_mul_left _ _)
  have hlow : y.toNat / 2 ^ (32 - n) < 2 ^ n := by
    rw [Nat.div_lt_iff_lt_mul (Nat.two_pow_pos _), ← Nat.pow_add, Nat.add_sub_cancel' hn]
    exact y.isLt
  rw [BitVec.toNat_or, sll32_toNat, srl32_toNat, hk, Nat.two_pow_add_eq_or_of_lt hlow]

/-- The limb-by-limb right shift is the division by a power of two, 0 for an amount of 64 or more (41 R126). -/
theorem srl64_toNat (v : Word64) (n : Nat) : (srl64 v n).toNat = if 64 ≤ n then 0 else v.toNat / 2 ^ n := by
  by_cases h64 : 64 ≤ n
  · rw [if_pos h64, srl64, if_neg (by omega), if_neg (by omega), if_neg (by omega)]
    rfl
  rw [if_neg h64, srl64, if_pos (Nat.lt_of_not_le h64)]
  split_ifs with h0 h32
  · rw [h0, Nat.pow_zero, Nat.div_one]
  · have hmoved := sll32_or_srl32_toNat (hiLimb v) (loLimb v) (n := 32 - n) (by omega)
    rw [Nat.sub_sub_self h32.le] at hmoved
    rw [BitVec.or_comm, joinLimbs_toNat, hmoved, srl32_toNat, toNat_eq_limbs v]
    generalize (hiLimb v).toNat = x
    generalize (loLimb v).toNat = y
    have hpow : 2 ^ 32 = 2 ^ n * 2 ^ (32 - n) := by rw [← Nat.pow_add, Nat.add_sub_cancel' h32.le]
    calc x / 2 ^ n * 2 ^ 32 + (x * 2 ^ (32 - n) % 2 ^ 32 + y / 2 ^ n)
        = (x / 2 ^ n * 2 ^ n + x % 2 ^ n) * 2 ^ (32 - n) + y / 2 ^ n := by
          rw [hpow, Nat.mul_mod_mul_right]; ring
      _ = x * 2 ^ (32 - n) + y / 2 ^ n := by rw [Nat.div_add_mod']
      _ = (x * 2 ^ 32 + y) / 2 ^ n := by
          rw [hpow, Nat.mul_left_comm, Nat.mul_add_div (Nat.two_pow_pos n)]
  · rw [joinLimbs_toNat, srl32_toNat, hiLimb_toNat, Nat.div_div_eq_div_mul, ← Nat.pow_add,
      Nat.add_sub_cancel' (by omega), BitVec.toNat_ofNat, Nat.zero_mod, Nat.zero_mul, Nat.zero_add]

/-- The limb-by-limb left shift is the product with a power of two, 0 for an amount of 64 or more (41 R127). -/
theorem sll64_toNat (v : Word64) (n : Nat) : (sll64 v n).toNat = if 64 ≤ n then 0 else v.toNat * 2 ^ n % 2 ^ 64 := by
  by_cases h64 : 64 ≤ n
  · rw [if_pos h64, sll64, if_neg (by omega), if_neg (by omega), if_neg (by omega)]
    rfl
  rw [if_neg h64, sll64, if_pos (Nat.lt_of_not_le h64)]
  split_ifs with h0 h32
  · rw [h0, Nat.pow_zero, Nat.mul_one, Nat.mod_eq_of_lt v.isLt]
  · have hmoved := sll32_or_srl32_toNat (hiLimb v) (loLimb v) h32.le
    have hfits := (sll32 (hiLimb v) n ||| srl32 (loLimb v) (32 - n)).isLt
    have hout : (loLimb v).toNat / 2 ^ (32 - n) = (loLimb v).toNat * 2 ^ n / 2 ^ 32 := by
      rw [← Nat.mul_div_mul_right _ _ (Nat.two_pow_pos n), ← Nat.pow_add, Nat.sub_add_cancel h32.le]
    have hprod : v.toNat * 2 ^ n = (hiLimb v).toNat * 2 ^ n * 2 ^ 32 + (loLimb v).toNat * 2 ^ n := by
      rw [toNat_eq_limbs v]; ring
    rw [hmoved, hout] at hfits
    rw [joinLimbs_toNat, hmoved, sll32_toNat, hout, hprod]
    omega
  · obtain ⟨k, rfl⟩ := Nat.exists_eq_add_of_le (Nat.le_of_not_lt h32)
    have hprod : v.toNat * 2 ^ (32 + k) =
        (hiLimb v).toNat * 2 ^ k * 2 ^ 64 + (loLimb v).toNat * 2 ^ k * 2 ^ 32 := by
      rw [toNat_eq_limbs v]; ring
    rw [joinLimbs_toNat, sll32_toNat, hprod, Nat.add_sub_cancel_left, BitVec.toNat_ofNat]
    omega

/-! ### The obligations -/

/-- Settles O15: the order of the limbs, high limb first, is the unsigned order. -/
theorem cmp64ComparesUnsigned : Obligations.Cmp64ComparesUnsigned :=
  ⟨decode_of_encode rfl, fun s h => by rw [exec_cmp64 h, cmp64_eq, opA64_toNat, opB64_toNat]⟩

/-- Settles O16: limb sums and carries together are the exact sum. -/
theorem add64GivesSumAndCarry : Obligations.Add64GivesSumAndCarry := by
  refine ⟨decode_of_encode rfl, fun s h => ?_⟩
  obtain ⟨hsum, hcarry⟩ := addWithCarry64_spec s.opA64 s.opB64
  rw [exec_add64 h, hsum, hcarry, opA64_toNat, opB64_toNat]

/-- Settles O17: limb differences and borrows together are the exact difference. -/
theorem sub64GivesDifferenceAndBorrow : Obligations.Sub64GivesDifferenceAndBorrow := by
  refine ⟨decode_of_encode rfl, fun s h => ?_⟩
  obtain ⟨hdiff, hborrow⟩ := subWithBorrow64_spec s.opA64 s.opB64
  rw [exec_sub64 h, hdiff, hborrow, opA64_toNat, opB64_toNat]

/-- Settles O18: complement plus one, the carry passed to the high limb. -/
theorem neg64Negates : Obligations.Neg64Negates :=
  ⟨decode_of_encode rfl, fun s h => by rw [exec_neg64 h, neg64_toNat, opA64_toNat]⟩

/-- Settles O19: the shift is a division, which leaves nothing from an amount of 64 on. -/
theorem srl64ShiftsRight : Obligations.Srl64ShiftsRight :=
  ⟨decode_of_encode rfl, fun s h => by rw [exec_srl64 h, srl64_toNat, opA64_toNat]⟩

/-- Settles O20: the shift is a product, of which nothing is left from an amount of 64 on. -/
theorem sll64ShiftsLeft : Obligations.Sll64ShiftsLeft :=
  ⟨decode_of_encode rfl, fun s h => by rw [exec_sll64 h, sll64_toNat, opA64_toNat]⟩

/-- Settles O21: the loop's count is the least shift that clears the operand. -/
theorem bitlen64IsTheBitLength : Obligations.Bitlen64IsTheBitLength := by
  refine ⟨decode_of_encode rfl, fun s h => ?_⟩
  obtain ⟨hwidth, hclears, hleast⟩ := bitLen_isLeast s.opA64
  simp only [opA64_toNat] at hclears hleast
  exact ⟨bitLen s.opA64, hwidth, exec_bitlen64 h, hclears, hleast⟩

/-- Settles O22: a zero divisor is caught before the divider, which otherwise gives quotient, remainder and the number of
its rounds. -/
theorem divrem64Divides : Obligations.Divrem64Divides := by
  refine ⟨decode_of_encode rfl, fun s h => ?_⟩
  rw [ne_eq, ← opB64_eq_zero_iff, ← opA64_toNat, ← opB64_toNat]
  refine ⟨exec_divrem64_zero h, fun hne => ?_⟩
  obtain ⟨hq, hr, hrounds⟩ := divRem64_spec s.opA64 s.opB64 hne
  refine ⟨divRem64 s.opA64 s.opB64 hne, ?_, hrounds⟩
  rw [exec_divrem64_ne h hne, hiLimb_eq_upper, loLimb_eq_lower, hiLimb_eq_upper, loLimb_eq_lower, hq, hr]

end Sys2Proof.Proofs

/-! The modular commands (42 R141 to R145): how each ends after setup; the common part of the inverse's two paths, from
the invariants of 42 R144 to the value at the end; the path for even moduli and the one for odd moduli; then the
obligations. -/

namespace Sys2Proof.Proofs

open Sys2Proof.Machine Sys2Proof.Safety Sys2Proof.Laws

/-! ### The commands after setup -/

section
variable {s : State} (h : Ready s)
include h

theorem exec_mulmod_zero (hzero : s.m = 0) : exec .mulmod s = .next (failed s 1) := by
  unfold exec execMulmod; exact command_invalidParameter h hzero

theorem exec_mulmod_ne (hne : s.m ≠ 0) :
    exec .mulmod s = .next { ended s 0 (mulMod s.xl s.yl s.m hne) 0 0 false with
      div := divRem64 (mul32 s.xl s.yl) (zext64 s.m) (zext64_ne_zero hne) } := by
  unfold exec execMulmod; exact command_divided h hne (zext64_ne_zero hne)

theorem exec_expmod_zero (hzero : s.m = 0) : exec .expmod s = .next (failed s 1) := by
  unfold exec execExpmod; exact (command_ready h _ _).trans (dif_pos hzero)

theorem exec_expmod_ne (hne : s.m ≠ 0) :
    exec .expmod s = .next { ended s 0 (expMod s.xl s.yl s.m hne) 0 0 false with exp := expRun s.xl s.yl s.m hne } := by
  unfold exec execExpmod; exact (command_ready h _ _).trans (dif_neg hne)

theorem exec_invmod_small (hsmall : s.m = 0 ∨ s.m = 1) : exec .invmod s = .next (failed s 3) := by
  unfold exec execInvmod; exact (command_ready h _ _).trans (dif_pos hsmall)

/-- Past the test of the modulus, the value at the loop's end decides how INVMOD ends (42 R144). -/
theorem exec_invmod_large (hlarge : ¬ (s.m = 0 ∨ s.m = 1)) (hne : s.m ≠ 0#32) :
    let t := invRun s.xl s.m hne
    exec .invmod s = .next ((invResult t s.m hne).elim { failed s 3 with inv := t }
      fun v => { ended s 0 v 0 0 false with inv := t }) := by
  unfold exec execInvmod
  refine (command_ready h _ _).trans ((dif_neg hlarge).trans ?_)
  dsimp only
  split
  next v hv => rw [show invResult (invRun s.xl s.m hne) s.m hne = some v from hv]; rfl
  next hv => rw [show invResult (invRun s.xl s.m hne) s.m hne = none from hv]; rfl

end

/-! ### The results of MULMOD and EXPMOD -/

theorem mulMod_eq (a b p : Word32) (h : p ≠ 0#32) :
    mulMod a b p h = BitVec.ofNat 32 (a.toNat * b.toNat % p.toNat) := eq_ofNat_of_toNat_eq (mulMod_toNat a b p h)

theorem expMod_eq (base e m : Word32) (h : m ≠ 0#32) :
    expMod base e m h = if e = 0 then 1 else BitVec.ofNat 32 (base.toNat ^ e.toNat % m.toNat) := by
  have hpow := expMod_toNat base e m h
  by_cases he : e = 0
  · rw [if_pos he]
    rw [he] at hpow ⊢
    exact BitVec.eq_of_toNat_eq hpow
  · rw [if_neg he]
    rw [if_neg (toNat_pos he).ne'] at hpow
    exact eq_ofNat_of_toNat_eq hpow

/-! ### The common part of the inverse -/

/-- The moduli refused at once (42 R143). -/
theorem toNat_le_one_iff (v : Word32) : v.toNat ≤ 1 ↔ v = 0 ∨ v = 1 := by
  simp only [← BitVec.toNat_inj]
  exact Nat.le_one_iff_eq_zero_or_eq_one

/-- The sign flag as the factor it stands for (42 R144). -/
def signValue : Sign → ℤ
  | .minus => -1
  | .plus => 1

@[simp] theorem signValue_flip (σ : Sign) : signValue σ.flip = -signValue σ := by cases σ <;> rfl

/-- The invariants of 42 R144 on the registers of the inverse of `a` modulo `n`: the co-factors' congruences, and the
greatest common divisor, which the loop leaves in A. -/
structure InvRelation (a n : Word32) (t : InvWork) : Prop where
  b_eq : (t.x.toNat : ZMod n.toNat) * (-signValue t.sign * a.toNat) = t.b.toNat
  a_eq : (t.y.toNat : ZMod n.toNat) * (signValue t.sign * a.toNat) = t.a.toNat
  gcd_eq : Nat.gcd t.a.toNat t.b.toNat = Nat.gcd a.toNat n.toNat

/-- The registers at the start of the loop: `B = a mod n`, `A = n`, `X = 1`, `Y = 0`, sign minus (42 R144). -/
def invStart (a n : Word32) (h : n ≠ 0#32) : InvWork :=
  ⟨n, loLimb (divRem64 (zext64 a) (zext64 n) (zext64_ne_zero h)).r, 1#32, 0#32, .minus⟩

theorem invRun_eq (a n : Word32) (h : n ≠ 0#32) :
    invRun a n h = if n.getLsbD 0 then invOddLoop n (n.toNat + (invStart a n h).b.toNat + 1) (invStart a n h)
      else invEvenLoop ((invStart a n h).b.toNat + 1) (invStart a n h) := rfl

/-- The divider's remainder on zero-extended limbs, as a number. -/
theorem remainder32_toNat (a b : Word32) (h : zext64 b ≠ 0#64) :
    (loLimb (divRem64 (zext64 a) (zext64 b) h).r).toNat = a.toNat % b.toNat := by
  rw [(divRem64_zext64 a b h).2, BitVec.toNat_ofNat, Nat.mod_eq_of_lt ((Nat.mod_le _ _).trans_lt a.isLt)]

theorem invStart_b_toNat (a n : Word32) (h : n ≠ 0#32) : (invStart a n h).b.toNat = a.toNat % n.toNat :=
  remainder32_toNat a n (zext64_ne_zero h)

theorem invStart_relation (a n : Word32) (h : n ≠ 0#32) : InvRelation a n (invStart a n h) where
  b_eq := by
    rw [invStart_b_toNat, ZMod.natCast_mod]
    simp [invStart, signValue]
  a_eq := by simp [invStart]
  gcd_eq := by
    rw [invStart_b_toNat, Nat.gcd_comm]
    exact (Nat.gcd_rec _ _).symm.trans (Nat.gcd_comm _ _)

theorem mul_mod_eq_one {a v n : Nat} (hn : 2 ≤ n) (h : (v : ZMod n) * a = 1) : a * v % n = 1 := by
  have hmod : a * v ≡ 1 [MOD n] := (ZMod.natCast_eq_natCast_iff _ _ _).mp (by push_cast; rw [mul_comm, h])
  exact Eq.trans hmod (Nat.mod_eq_of_lt hn)

theorem invResult_of_ne {t : InvWork} {n : Word32} {h : n ≠ 0#32} (ht : t.a ≠ 1#32) : invResult t n h = none :=
  if_neg ht

/-- `A = 1` at the end makes the value of 42 R144 the inverse, for either sign. -/
theorem invResult_of_one {a n : Word32} {t : InvWork} (h : n ≠ 0#32) (hn : 2 ≤ n.toNat) (hrel : InvRelation a n t)
    (ht : t.a = 1#32) :
    ∃ v, invResult t n h = some v ∧ v.toNat < n.toNat ∧ a.toNat * v.toNat % n.toNat = 1 := by
  have hone := hrel.a_eq
  have hlt (m : Nat) : m % n.toNat < n.toNat := Nat.mod_lt _ (toNat_pos h)
  rw [ht] at hone
  simp only [invResult, if_pos ht]
  cases hsign : t.sign with
  | plus =>
    refine ⟨_, rfl, ?_, mul_mod_eq_one hn ?_⟩ <;> rw [remainder32_toNat]
    · exact hlt _
    · simpa [hsign, signValue] using hone
  | minus =>
    refine ⟨_, rfl, ?_, mul_mod_eq_one hn ?_⟩ <;> rw [remainder32_toNat]
    · exact hlt _
    · have hle := (hlt t.y.toNat).le
      rw [BitVec.toNat_sub_of_le (by rw [BitVec.le_def, remainder32_toNat]; exact hle), remainder32_toNat,
        ZMod.natCast_mod, Nat.cast_sub hle]
      simpa [hsign, signValue] using hone

/-! ### The path for even moduli -/

/-- `A * X + B * Y = n` keeps the co-factors at or below `n`, so they fit their limbs (42 R144). -/
structure InvEven (a n : Word32) (t : InvWork) : Prop extends InvRelation a n t where
  sum_eq : t.a.toNat * t.x.toNat + t.b.toNat * t.y.toNat = n.toNat

theorem invStart_even (a n : Word32) (h : n ≠ 0#32) : InvEven a n (invStart a n h) where
  toInvRelation := invStart_relation a n h
  sum_eq := by simp [invStart]

/-- The new co-factor is exact on the 64-bit datapath when it fits a limb. -/
theorem cofactor_toNat (q : Word64) (x y : Word32) (hfits : q.toNat * x.toNat + y.toNat < 2 ^ 32) :
    (loLimb (q * zext64 x + zext64 y)).toNat = q.toNat * x.toNat + y.toNat := by
  simp only [loLimb_toNat, BitVec.toNat_add, BitVec.toNat_mul, zext64_toNat]
  omega

section
variable {a n : Word32} {t : InvWork} (ht : InvEven a n t) (hb : t.b ≠ 0#32)
include ht

theorem invEvenPass_sum :
    t.b.toNat * (t.a.toNat / t.b.toNat * t.x.toNat + t.y.toNat) + t.a.toNat % t.b.toNat * t.x.toNat = n.toNat := by
  have hdiv := Nat.div_add_mod t.a.toNat t.b.toNat
  calc _ = (t.b.toNat * (t.a.toNat / t.b.toNat) + t.a.toNat % t.b.toNat) * t.x.toNat + t.b.toNat * t.y.toNat := by ring
    _ = n.toNat := by rw [hdiv, ht.sum_eq]

include hb

theorem invEvenPass_x_toNat :
    (invEvenPass t hb).x.toNat = t.a.toNat / t.b.toNat * t.x.toNat + t.y.toNat := by
  have hq := (divRem64_spec (zext64 t.a) (zext64 t.b) (zext64_ne_zero hb)).1
  rw [zext64_toNat, zext64_toNat] at hq
  have hn := n.isLt
  have hsum := invEvenPass_sum ht
  have hle := Nat.le_mul_of_pos_left (t.a.toNat / t.b.toNat * t.x.toNat + t.y.toNat) (toNat_pos hb)
  rw [← hq] at hsum hle ⊢
  exact cofactor_toNat _ _ _ (by omega)

theorem invEvenPass_keeps : InvEven a n (invEvenPass t hb) := by
  have hx := invEvenPass_x_toNat ht hb
  have hr : (invEvenPass t hb).b.toNat = t.a.toNat % t.b.toNat := remainder32_toNat t.a t.b (zext64_ne_zero hb)
  have hsign : signValue (invEvenPass t hb).sign = -signValue t.sign := signValue_flip t.sign
  have hdiv := congrArg (Nat.cast (R := ZMod n.toNat)) (Nat.div_add_mod t.a.toNat t.b.toNat)
  push_cast at hdiv
  refine ⟨⟨?_, ?_, ?_⟩, ?_⟩
  · rw [hx, hr, hsign]
    push_cast
    linear_combination ht.a_eq - ((t.a.toNat / t.b.toNat : ℕ) : ZMod n.toNat) * ht.b_eq - hdiv
  · rw [hsign]
    push_cast
    exact ht.b_eq
  · rw [hr]
    exact (Nat.gcd_comm _ _).trans ((Nat.gcd_rec _ _).symm.trans ((Nat.gcd_comm _ _).trans ht.gcd_eq))
  · rw [hx, hr]
    exact invEvenPass_sum ht

end

/-- Each pass lowers B, so the loop ends with `B = 0` (42 R144). -/
theorem invEvenLoop_spec {a n : Word32} (fuel : Nat) (t : InvWork) (ht : InvEven a n t) (hfuel : t.b.toNat < fuel) :
    InvRelation a n (invEvenLoop fuel t) ∧ (invEvenLoop fuel t).b = 0#32 := by
  induction fuel generalizing t with
  | zero => omega
  | succ fuel ih =>
    unfold invEvenLoop
    split
    · exact ⟨ht.toInvRelation, ‹_›⟩
    · rename_i hb
      have hr : (invEvenPass t hb).b.toNat < t.b.toNat :=
        (remainder32_toNat t.a t.b (zext64_ne_zero hb)).trans_lt (Nat.mod_lt _ (toNat_pos hb))
      exact ih _ (invEvenPass_keeps ht hb) (by omega)

/-! ### The path for odd moduli -/

section
variable {n : Word32} (hodd : n.toNat % 2 = 1)
include hodd

/-- Halving modulo an odd `n`, with the 33-bit sum for an odd `x` (42 R145). -/
theorem halveMod_spec {x : Word32} (hx : x.toNat < n.toNat) :
    (halveMod n x).toNat < n.toNat ∧ (2 * (halveMod n x).toNat : ZMod n.toNat) = x.toNat := by
  have hn := n.isLt
  by_cases hbit : x.getLsbD 0 = true
  · have hx1 := (getLsbD_zero_iff x).mp hbit
    have hval : 2 * (halveMod n x).toNat = x.toNat + n.toNat := by
      simp only [halveMod, if_pos hbit, loLimb_toNat, BitVec.toNat_ushiftRight, Nat.shiftRight_eq_div_pow,
        BitVec.toNat_add, zext64_toNat]
      omega
    refine ⟨by omega, ?_⟩
    have := congrArg (Nat.cast (R := ZMod n.toNat)) hval
    push_cast at this
    rw [this, ZMod.natCast_self, add_zero]
  · have hx0 := mt (getLsbD_zero_iff x).mpr hbit
    have hval : 2 * (halveMod n x).toNat = x.toNat := by
      simp only [halveMod, if_neg hbit, loLimb_toNat, BitVec.toNat_ushiftRight, Nat.shiftRight_eq_div_pow,
        zext64_toNat]
      omega
    exact ⟨by omega, by exact_mod_cast congrArg (Nat.cast (R := ZMod n.toNat)) hval⟩

theorem two_mul_cancel {u v : ZMod n.toNat} (h : 2 * u = 2 * v) : u = v := by
  have htwo : IsUnit ((2 : ℕ) : ZMod n.toNat) :=
    (ZMod.isUnit_iff_coprime 2 n.toNat).mpr ((Nat.coprime_two_left).mpr (Nat.odd_iff.mpr hodd))
  exact htwo.mul_left_cancel (by exact_mod_cast h)

end

/-- What halving the first component of `t` until it is odd makes of it and of its co-factor: `x * c = b` modulo `n`
still holds, for whatever multiplier `c` it held before. -/
structure Halved (n : Word32) (c : ZMod n.toNat) (t u : Word32 × Word32) : Prop where
  odd : u.1.toNat % 2 = 1
  factor : ∃ k, t.1.toNat = 2 ^ k * u.1.toNat
  lt : u.2.toNat < n.toNat
  eq : (u.2.toNat : ZMod n.toNat) * c = u.1.toNat

theorem Halved.le {n : Word32} {c : ZMod n.toNat} {t u : Word32 × Word32} (h : Halved n c t u) :
    u.1.toNat ≤ t.1.toNat := by
  obtain ⟨k, hk⟩ := h.factor
  exact hk ▸ Nat.le_mul_of_pos_left _ (Nat.two_pow_pos k)

/-- The bits of a nonzero limb are enough fuel for its halvings (42 R145). -/
theorem halveWhileEven_spec {n : Word32} (hodd : n.toNat % 2 = 1) {c : ZMod n.toNat} (fuel : Nat)
    (t : Word32 × Word32) (hpos : 0 < t.1.toNat) (hfuel : t.1.toNat < 2 ^ fuel) (hlt : t.2.toNat < n.toNat)
    (heq : (t.2.toNat : ZMod n.toNat) * c = t.1.toNat) : Halved n c t (halveWhileEven n fuel t) := by
  induction fuel generalizing t with
  | zero => omega
  | succ fuel ih =>
    unfold halveWhileEven
    by_cases hbit : t.1.getLsbD 0 = true
    · rw [if_pos hbit]
      exact ⟨(getLsbD_zero_iff _).mp hbit, ⟨0, by rw [Nat.pow_zero, Nat.one_mul]⟩, hlt, heq⟩
    · rw [if_neg hbit]
      have heven := mt (getLsbD_zero_iff t.1).mpr hbit
      have hhalf : t.1.toNat = 2 * (t.1 >>> 1).toNat := by
        rw [BitVec.toNat_ushiftRight, Nat.shiftRight_eq_div_pow]
        omega
      obtain ⟨hxlt, hxeq⟩ := halveMod_spec hodd hlt
      have heq' : ((halveMod n t.2).toNat : ZMod n.toNat) * c = (t.1 >>> 1).toNat := by
        apply two_mul_cancel hodd
        have hcast := congrArg (Nat.cast (R := ZMod n.toNat)) hhalf
        push_cast at hcast
        rw [← mul_assoc, hxeq, heq, hcast]
      obtain ⟨hu, ⟨k, hk⟩, hult, hueq⟩ :=
        ih (t.1 >>> 1, halveMod n t.2) (show 0 < (t.1 >>> 1).toNat by omega) (by simp only; omega) hxlt heq'
      exact ⟨hu, ⟨k + 1, by rw [hhalf, hk, Nat.pow_succ]; ring⟩, hult, hueq⟩

/-- The sum of two residues, reduced by one subtraction (42 R145). -/
theorem addMod_spec {n x y : Word32} (hx : x.toNat < n.toNat) (hy : y.toNat < n.toNat) :
    (addMod n x y).toNat < n.toNat ∧ ((addMod n x y).toNat : ZMod n.toNat) = x.toNat + y.toNat := by
  have hn := n.isLt
  have hsum : (zext64 x + zext64 y).toNat = x.toNat + y.toNat := by
    rw [BitVec.toNat_add, zext64_toNat, zext64_toNat]
    omega
  have hval : (addMod n x y).toNat = (x.toNat + y.toNat) % n.toNat := by
    simp only [addMod, BitVec.le_def, hsum, zext64_toNat, loLimb_toNat]
    split_ifs with hle
    · rw [BitVec.toNat_sub_of_le (by rw [BitVec.le_def, hsum, zext64_toNat]; exact hle), hsum, zext64_toNat,
        Nat.mod_eq_sub_mod hle, Nat.mod_eq_of_lt (by omega), Nat.mod_eq_of_lt (by omega)]
    · rw [hsum, Nat.mod_eq_of_lt (by omega), Nat.mod_eq_of_lt (by omega)]
  rw [hval]
  exact ⟨Nat.mod_lt _ (by omega), by rw [ZMod.natCast_mod, Nat.cast_add]⟩

/-- Only one of two numbers with an odd common divisor can be even, so factors of two do not enter it. -/
theorem gcd_two_pow_mul_left {k u v : Nat} (h : Nat.gcd (2 ^ k * u) v % 2 = 1) :
    Nat.gcd (2 ^ k * u) v = Nat.gcd u v := by
  rcases Nat.eq_zero_or_pos k with rfl | hk
  · rw [Nat.pow_zero, Nat.one_mul]
  · refine Nat.Coprime.gcd_mul_left_cancel _ (Nat.Coprime.pow_left k (Nat.coprime_two_left.mpr ?_))
    rw [← Nat.not_even_iff_odd, even_iff_two_dvd]
    intro hv
    have := Nat.dvd_gcd (dvd_mul_of_dvd_left (dvd_pow_self 2 hk.ne') u) hv
    omega

/-- The two numbers left by the halvings have the common divisor of those before. -/
theorem Halved.gcd_eq {n : Word32} {c d : ZMod n.toNat} {t u t' u' : Word32 × Word32} (h : Halved n c t u)
    (h' : Halved n d t' u') (hgcd : Nat.gcd t.1.toNat t'.1.toNat % 2 = 1) :
    Nat.gcd u.1.toNat u'.1.toNat = Nat.gcd t.1.toNat t'.1.toNat := by
  obtain ⟨k, hk⟩ := h.factor
  obtain ⟨k', hk'⟩ := h'.factor
  rw [hk] at hgcd ⊢
  have hfirst := gcd_two_pow_mul_left hgcd
  rw [hfirst, Nat.gcd_comm, hk'] at hgcd
  rw [hfirst, Nat.gcd_comm u.1.toNat t'.1.toNat, hk', gcd_two_pow_mul_left hgcd, Nat.gcd_comm]

/-- On the path for odd `n` the co-factors are residues, and A never becomes 0 (42 R145). -/
structure InvOdd (a n : Word32) (t : InvWork) : Prop extends InvRelation a n t where
  x_lt : t.x.toNat < n.toNat
  y_lt : t.y.toNat < n.toNat
  a_pos : 0 < t.a.toNat

theorem invStart_odd (a n : Word32) (h : n ≠ 0#32) (hn : 2 ≤ n.toNat) : InvOdd a n (invStart a n h) where
  toInvRelation := invStart_relation a n h
  x_lt := hn
  y_lt := toNat_pos h
  a_pos := toNat_pos h

/-- The subtraction that ends a pass: adding the co-factors, whose multipliers are opposite, subtracts the numbers. -/
theorem addMod_mul_eq {n x y b a : Word32} {c d : ZMod n.toNat} (hopp : d = -c) (hx : x.toNat < n.toNat)
    (hy : y.toNat < n.toNat) (hb : (x.toNat : ZMod n.toNat) * c = b.toNat)
    (ha : (y.toNat : ZMod n.toNat) * d = a.toNat) (hle : a.toNat ≤ b.toNat) :
    (addMod n x y).toNat < n.toNat ∧ ((addMod n x y).toNat : ZMod n.toNat) * c = (b.toNat - a.toNat : ℕ) := by
  obtain ⟨hlt, hsum⟩ := addMod_spec hx hy
  refine ⟨hlt, ?_⟩
  rw [hsum, Nat.cast_sub hle]
  linear_combination hb - ha + y.toNat * hopp

/-- A pass keeps the invariants and lowers `A + B`: the smaller of the two odd numbers is subtracted from the other. -/
theorem invOddPass_spec {a n : Word32} {t : InvWork} (hodd : n.toNat % 2 = 1) (ht : InvOdd a n t) (hb : t.b ≠ 0#32) :
    InvOdd a n (invOddPass n t) ∧
    (invOddPass n t).a.toNat + (invOddPass n t).b.toNat < t.a.toNat + t.b.toNat := by
  have hbx := halveWhileEven_spec hodd 32 (t.b, t.x) (toNat_pos hb) t.b.isLt ht.x_lt ht.b_eq
  have hay := halveWhileEven_spec hodd 32 (t.a, t.y) ht.a_pos t.a.isLt ht.y_lt ht.a_eq
  have hgcd : Nat.gcd t.a.toNat t.b.toNat % 2 = 1 := by
    rw [ht.gcd_eq]
    exact Nat.odd_iff.mp ((Nat.odd_iff.mpr hodd).of_dvd_nat (Nat.gcd_dvd_right _ _))
  have hkeep := (hay.gcd_eq hbx hgcd).trans ht.gcd_eq
  have hble : _ ≤ t.b.toNat := hbx.le
  have hale : _ ≤ t.a.toNat := hay.le
  unfold invOddPass
  generalize halveWhileEven n 32 (t.b, t.x) = bx at *
  generalize halveWhileEven n 32 (t.a, t.y) = ay at *
  obtain ⟨hbodd, -, hxlt, hxeq⟩ := hbx
  obtain ⟨haodd, -, hylt, hyeq⟩ := hay
  dsimp only
  split_ifs with hle
  · have hsub := BitVec.toNat_sub_of_le hle
    obtain ⟨hlt, heq⟩ := addMod_mul_eq (by ring) hxlt hylt hxeq hyeq hle
    rw [← Nat.gcd_sub_self_right hle, ← hsub] at hkeep
    rw [← hsub] at heq
    exact ⟨⟨⟨heq, hyeq, hkeep⟩, hlt, hylt, by simp only; omega⟩, by simp only; omega⟩
  · have hlt' : bx.1.toNat < ay.1.toNat := Nat.lt_of_not_le hle
    have hsub := BitVec.toNat_sub_of_le (BitVec.le_def.mpr hlt'.le)
    obtain ⟨hlt, heq⟩ := addMod_mul_eq (by ring) hylt hxlt hyeq hxeq hlt'.le
    rw [← Nat.gcd_sub_self_left hlt'.le, ← hsub] at hkeep
    rw [← hsub] at heq
    exact ⟨⟨⟨hxeq, heq, hkeep⟩, hxlt, hlt, by simp only; omega⟩, by simp only; omega⟩

/-- Each pass lowers `A + B`, so the loop ends with `B = 0` (42 R145). -/
theorem invOddLoop_spec {a n : Word32} (hodd : n.toNat % 2 = 1) (fuel : Nat) (t : InvWork) (ht : InvOdd a n t)
    (hfuel : t.a.toNat + t.b.toNat < fuel) :
    InvRelation a n (invOddLoop n fuel t) ∧ (invOddLoop n fuel t).b = 0#32 := by
  induction fuel generalizing t with
  | zero => omega
  | succ fuel ih =>
    unfold invOddLoop
    split
    · exact ⟨ht.toInvRelation, ‹_›⟩
    · rename_i hb
      obtain ⟨hkeep, hfall⟩ := invOddPass_spec hodd ht hb
      exact ih _ hkeep (by omega)

/-! ### The inverse -/

/-- Either path ends with the invariants and with the greatest common divisor in A (42 R144, R145). -/
theorem invRun_spec (a n : Word32) (h : n ≠ 0#32) (hn : 2 ≤ n.toNat) :
    InvRelation a n (invRun a n h) ∧ (invRun a n h).a.toNat = Nat.gcd a.toNat n.toNat := by
  have hend : InvRelation a n (invRun a n h) ∧ (invRun a n h).b = 0#32 := by
    rw [invRun_eq]
    split_ifs with hbit
    · exact invOddLoop_spec ((getLsbD_zero_iff n).mp hbit) _ _ (invStart_odd a n h hn) (Nat.lt_succ_self _)
    · exact invEvenLoop_spec _ _ (invStart_even a n h) (Nat.lt_succ_self _)
  obtain ⟨hrel, hb⟩ := hend
  have hgcd := hrel.gcd_eq
  rw [hb, BitVec.toNat_zero, Nat.gcd_zero_right] at hgcd
  exact ⟨hrel, hgcd⟩

/-! ### The obligations -/

/-- Settles O23: the divider's remainder of the exact product. -/
theorem mulmodMultipliesModulo : Obligations.MulmodMultipliesModulo :=
  ⟨decode_of_encode rfl, fun s h => ⟨exec_mulmod_zero h, fun hne => ⟨_, by rw [exec_mulmod_ne h hne, mulMod_eq]⟩⟩⟩

/-- Settles O24: square and multiply gives the power, and the accumulator's start where the exponent is 0. -/
theorem expmodRaisesModulo : Obligations.ExpmodRaisesModulo :=
  ⟨decode_of_encode rfl, fun s h => ⟨exec_expmod_zero h, fun hne => ⟨_, s.div, by
    rw [exec_expmod_ne h hne, expMod_eq]; rfl⟩⟩⟩

/-- Settles O25: A at the end of either path is the greatest common divisor, and the invariants make the value at the
end the inverse when it is 1. -/
theorem invmodGivesTheInverseOrReportsNone : Obligations.InvmodGivesTheInverseOrReportsNone := by
  refine ⟨decode_of_encode rfl, fun s h => ⟨fun hn hcoprime => ?_, fun hnone => ?_⟩⟩
  · have hne : s.m ≠ 0#32 := fun e => by simp [e] at hn
    have hlarge : ¬ (s.m = 0 ∨ s.m = 1) := mt (toNat_le_one_iff s.m).mpr (by omega)
    obtain ⟨hrel, hgcd⟩ := invRun_spec s.xl s.m hne hn
    obtain ⟨v, hv, hlt, hinv⟩ := invResult_of_one hne hn hrel (BitVec.eq_of_toNat_eq (hgcd.trans hcoprime))
    exact ⟨v, invRun s.xl s.m hne, s.div, by rw [exec_invmod_large h hlarge hne, hv]; rfl, hlt, hinv⟩
  · by_cases hsmall : s.m = 0 ∨ s.m = 1
    · exact ⟨s.inv, s.div, exec_invmod_small h hsmall⟩
    · have hne : s.m ≠ 0#32 := fun e => hsmall (.inl e)
      have hn := mt (toNat_le_one_iff s.m).mp hsmall
      obtain ⟨-, hgcd⟩ := invRun_spec s.xl s.m hne (by omega)
      have ha : (invRun s.xl s.m hne).a ≠ 1#32 := fun e => hnone.resolve_left hn (by rw [← hgcd, e]; rfl)
      exact ⟨invRun s.xl s.m hne, s.div, by rw [exec_invmod_large h hsmall hne, invResult_of_ne ha]; rfl⟩

end Sys2Proof.Proofs

/-! The random source adapter (43 R161 to R167): the commands of one transition that draw, a range draw attempt by attempt
and RANDRANGE from it; then what every transition and every command takes from the port: composed words, so its answers
by threes, and in order. -/

namespace Sys2Proof.Proofs

open Sys2Proof.Machine Sys2Proof.Safety Sys2Proof.Laws

/-! ### The commands of one transition -/

/-- What starting a command changed, its end overwrites, also after calls to the port. -/
theorem finish32_afterCalls_start (s : State) (i : Instr) (n : Nat) (v : Word32) :
    (afterCalls (s.start i) n).finish32 v = afterCalls (ended s 0 v 0 0 false) n := rfl

section
variable {s : State} (h : Ready s)
include h

theorem exec_rand32 :
    exec .rand32 s = .next (afterCalls (ended s 0 (BitVec.ofNat 32 (composed s 0)) 0 0 false) 3) := by
  obtain ⟨hvalue, hport⟩ := randWord_spec (s.start .rand32)
  unfold exec execRand32
  rw [command_ready h]
  dsimp only
  rw [hport, finish32_afterCalls_start, eq_ofNat_of_toNat_eq hvalue]
  rfl

theorem exec_randbits_wide (hwide : 32 < s.xl.toNat) : exec .randbits s = .next (failed s 1) := by
  unfold exec execRandbits
  exact command_invalidParameter h hwide

theorem exec_randbits_fits (hfits : s.xl.toNat ≤ 32) :
    exec .randbits s =
      .next (afterCalls (ended s 0 (BitVec.ofNat 32 (composed s 0 % 2 ^ s.xl.toNat)) 0 0 false) 3) := by
  obtain ⟨hvalue, hport⟩ := randBits_spec (s.start .randbits) s.xl.toNat hfits
  have hbits : (s.start .randbits).bits = s.xl.toNat := rfl
  unfold exec execRandbits
  rw [command_ready h]
  dsimp only
  rw [hbits, if_neg (Nat.not_lt.mpr hfits), hport, finish32_afterCalls_start, eq_ofNat_of_toNat_eq hvalue]
  rfl

end

/-! ### A range draw, attempt by attempt -/

theorem attempt_afterCalls (s : State) (range n j : Nat) :
    attempt (afterCalls s (3 * n)) range j = attempt s range (n + j) := by
  rw [attempt, composed_afterCalls, attempt]

/-- RR_TRY(k) of a draw under way: the next attempt's value is accepted below the range (43 R165, R166). -/
theorem stepRrTry_eq {s : State} {range : Word32} {k : Nat} (h : DrawOk s range k) :
    stepRrTry k s =
      if attempt s range.toNat 0 < range.toNat then
        (afterCalls s 3).drawAccepted (BitVec.ofNat 32 (attempt s range.toNat 0))
      else if k < 100 then .next { afterCalls s 3 with seq := .rrTry (k + 1) }
      else (afterCalls s 3).drawExhausted := by
  obtain ⟨_, _, _, hrange, hwidth⟩ := h
  have hfits : s.draw.width ≤ 32 := by
    rw [hwidth, Nat.size_le]
    exact lt_of_le_of_lt (Nat.sub_le _ _) range.isLt
  obtain ⟨hvalue, hport⟩ := randBits_spec s s.draw.width hfits
  have hattempt : (s.randBits s.draw.width).1.toNat = attempt s range.toNat 0 := by rw [hvalue, hwidth, attempt]
  simp only [stepRrTry, hport, BitVec.lt_def, hrange, hattempt, ← eq_ofNat_of_toNat_eq hattempt, Config.rangeAttempts]

/-- The draw that `s` begins, after `k` attempts: the port has given their words, and RR_TRY(k+1) comes (43 R166). -/
def drawing (s : State) (k : Nat) : State := { afterCalls s (3 * k) with seq := .rrTry (k + 1) }

theorem drawing_afterCalls (s : State) (k : Nat) :
    afterCalls (drawing s k) 3 = { afterCalls s (3 * (k + 1)) with seq := .rrTry (k + 1) } := by
  simp [drawing, afterCalls, Nat.mul_add, Nat.add_assoc]

section
variable {s : State} {range : Word32} (hdraw : DrawOk s range 1)
include hdraw

/-- One attempt of a draw: its value is that of the `k`-th attempt from the beginning. -/
theorem seqStep_drawing {k : Nat} (hk : k < 100) :
    seqStep (drawing s k) =
      if attempt s range.toNat k < range.toNat then
        (afterCalls (drawing s k) 3).drawAccepted (BitVec.ofNat 32 (attempt s range.toNat k))
      else if k + 1 < 100 then .next (drawing s (k + 1))
      else (afterCalls (drawing s k) 3).drawExhausted := by
  obtain ⟨_, _, hne, hrange, hwidth⟩ := hdraw
  have hvalue : attempt (drawing s k) range.toNat 0 = attempt s range.toNat k := attempt_afterCalls s range.toNat k 0
  have hdraw : DrawOk (drawing s k) range (k + 1) := ⟨by omega, by omega, hne, hrange, hwidth⟩
  have htry : seqStep (drawing s k) = stepRrTry (k + 1) (drawing s k) := rfl
  rw [htry, stepRrTry_eq hdraw, hvalue, drawing_afterCalls]
  rfl

/-- Rejected attempts only move on, one transition each. -/
theorem runSeq_rejected (hb : s.busy = true) (k : Nat) (hk : k < 100)
    (hrejected : ∀ j < k, range.toNat ≤ attempt s range.toNat j) : runSeq k (drawing s 0) = .next (drawing s k) := by
  induction k with
  | zero => rfl
  | succ k ih =>
    have hmany : runSeq k (drawing s 0) = .next (drawing s k) := ih (by omega) fun j hj => hrejected j (by omega)
    have hstep : seqStep (drawing s k) = .next (drawing s (k + 1)) := by
      rw [seqStep_drawing hdraw (by omega), if_neg (Nat.not_lt.mpr (hrejected k (by omega))), if_pos hk]
    rw [runSeq_add hmany, runSeq_succ (s := drawing s k) hb hstep, runSeq_zero]

end

/-! ### RANDRANGE -/

/-- The state in which RANDRANGE's draw begins (43 R165). -/
def rangeEntry (s : State) : State := { s.start .randrange with draw := ⟨s.xl, bitLen (s.xl - 1)⟩ }

section
variable {s : State} (h : Ready s)
include h

theorem exec_randrange_zero (hzero : s.xl = 0) : exec .randrange s = .next (failed s 1) := by
  rcases exec_loop s (i := .randrange) (.inl rfl) with ⟨hr, _⟩ | ⟨_, e⟩
  · exact absurd h hr
  · rw [e, loopEntry, State.beginDraw, if_pos hzero]
    exact engineTurn_idle rfl

/-- For a range that is not empty the engine's turn begins at the first attempt. -/
theorem exec_randrange_ne (hne : s.xl ≠ 0) : exec .randrange s = engineTurn (drawing (rangeEntry s) 0) := by
  rcases exec_loop s (i := .randrange) (.inl rfl) with ⟨hr, _⟩ | ⟨_, e⟩
  · exact absurd h hr
  · rw [e, loopEntry, State.beginDraw, if_neg hne]
    rfl

omit h in
theorem drawOk_rangeEntry (hne : s.xl ≠ 0) : DrawOk (rangeEntry s) s.xl 1 := drawOk_begin (s.start .randrange) hne

/-- RANDRANGE whose first `k` attempts are rejected ends as the next attempt does, when that ends it. -/
theorem exec_randrange_after (hne : s.xl ≠ 0) {k : Nat} (hk : k < 100) (hpace : k ≤ s.pace)
    (hrejected : ∀ j < k, s.xl.toNat ≤ attempt s s.xl.toNat j) {t : State}
    (hend : seqStep (drawing (rangeEntry s) k) = .next t) (hidle : t.busy = false) : exec .randrange s = .next t := by
  have hturn : (drawing (rangeEntry s) 0).pace + 1 = k + (s.pace - k + 1) := by
    change s.pace + 1 = _
    omega
  rw [exec_randrange_ne h hne, engineTurn, hturn,
    runSeq_add (runSeq_rejected (drawOk_rangeEntry hne) rfl k hk hrejected), runSeq_succ rfl hend, runSeq_idle hidle]

end

/-! ### The port, and the words that a transition takes -/

/-- What stands at the random-source port: the coming answers, the calls made, the seeds handed over (43 R160). -/
def port (s : State) : List Word32 × Nat × List (Nat × Word32) := (s.rngIn, s.rngCalls, s.rngSeeds)

/-- From `s` to `t`, `n` composed words have been taken from the port, three calls each, and no seed handed over. -/
def Took (n : Nat) (s t : State) : Prop := port t = port (afterCalls s (3 * n))

theorem took_iff {n : Nat} {s t : State} :
    Took n s t ↔ t.rngIn = s.rngIn.drop (3 * n) ∧ t.rngCalls = s.rngCalls + 3 * n ∧ t.rngSeeds = s.rngSeeds := by
  simp [Took, port]

theorem took_randBits (s : State) (n : Nat) : Took 1 s (s.randBits n).2 := by
  rw [randBits_state]
  rfl

theorem Took.trans {m n : Nat} {s t u : State} (hm : Took m s t) (hn : Took n t u) : Took (m + n) s u := by
  obtain ⟨hin, hcalls, hseeds⟩ := took_iff.mp hm
  obtain ⟨hin', hcalls', hseeds'⟩ := took_iff.mp hn
  refine took_iff.mpr ⟨?_, ?_, hseeds'.trans hseeds⟩
  · rw [hin', hin, List.drop_drop, ← Nat.mul_add]
  · rw [hcalls', hcalls, Nat.mul_add, Nat.add_assoc]

/-- The composed words that a transition in a state of the sequencer takes: one in each attempt of a range draw and one in
each draw of a candidate (43 R167). -/
def wordsTaken : Seq → Nat
  | .rrTry _ => 1
  | .pgAgain => 1
  | _ => 0

section
variable {n j : Nat} {s u : State} {prime : Bool} {v range : Word32} (h : Took n s u)
include h

theorem verdict_took : Always (Took n s) (u.verdict prime) := by
  intro t ht
  rcases verdict_next ht with ⟨_, rfl⟩ | ⟨_, _, ⟨_, _, _, rfl⟩ | ⟨_, _, _, rfl⟩ | ⟨_, _, rfl⟩ | ⟨_, _, rfl⟩⟩ <;>
    exact h

theorem roundPassed_took : Always (Took n s) (u.roundPassed j) := by
  intro t ht
  rcases roundPassed_next ht with ⟨_, rfl⟩ | ⟨_, hv⟩
  · exact h
  · exact verdict_took h t hv

theorem beginDraw_took : Took n s (u.beginDraw range) := by
  rcases beginDraw_cases u range with ⟨_, e⟩ | ⟨_, e⟩ <;> rw [e] <;> exact h

theorem drawAccepted_took : Always (Took n s) (u.drawAccepted v) := by
  intro t ht
  rcases drawAccepted_next ht with ⟨_, rfl⟩ | ⟨_, rfl⟩ <;> exact h

theorem drawExhausted_took : Always (Took n s) u.drawExhausted := by
  intro t ht
  rcases drawExhausted_next ht with ⟨_, rfl⟩ | ⟨_, rfl⟩ <;> exact h

end

theorem inSearch_goTo_took {s u : State} (h : port u = port s) :
    Always (Took 0 s) (s.inSearch fun _ => .next u) := always_inSearch fun _ => always_next.mpr h

theorem stepRrTry_took (k : Nat) (s : State) : Always (Took 1 s) (stepRrTry k s) := by
  rcases stepRrTry_cases k s with ⟨v, _, e⟩ | ⟨_, e⟩ | e <;> rw [e]
  · exact drawAccepted_took rfl
  · exact always_next.mpr rfl
  · exact drawExhausted_took rfl

theorem stepIpPre_took (s : State) : Always (Took 0 s) (stepIpPre s) := by
  unfold stepIpPre
  split_ifs
  · exact always_next.mpr rfl
  · exact verdict_took rfl
  · exact verdict_took rfl
  · exact verdict_took rfl
  · exact always_next.mpr rfl

theorem stepIpTrial_took (i : Nat) (s : State) : Always (Took 0 s) (stepIpTrial i s) := by
  refine always_divide fun d => ?_
  dsimp only
  split_ifs
  · exact verdict_took rfl
  · exact always_next.mpr rfl
  · exact always_next.mpr rfl

theorem stepIpPower_took (j : Nat) (s : State) : Always (Took 0 s) (stepIpPower j s) := by
  simp only [stepIpPower]
  split_ifs
  · exact always_fault.mpr trivial
  · exact roundPassed_took rfl
  · exact always_next.mpr rfl
  · exact verdict_took rfl

theorem stepIpSquare_took (j t : Nat) (s : State) : Always (Took 0 s) (stepIpSquare j t s) := by
  simp only [stepIpSquare]
  split_ifs
  · exact always_fault.mpr trivial
  · exact roundPassed_took rfl
  · exact verdict_took rfl
  · exact always_next.mpr rfl
  · exact verdict_took rfl

theorem stepPgCheck_took (s : State) : Always (Took 0 s) (stepPgCheck s) := by
  refine always_inSearch fun safe => ?_
  split
  · exact always_next.mpr rfl
  · split
    · split_ifs <;> exact always_next.mpr rfl
    · split_ifs <;> exact always_next.mpr rfl
    · exact always_next.mpr rfl

theorem stepPgAgain_took (s : State) : Always (Took 1 s) (stepPgAgain s) := by
  have hword := took_randBits s s.bits
  refine always_inSearch fun safe => ?_
  dsimp only
  split_ifs
  · exact always_divide fun d => always_next.mpr hword
  · exact always_next.mpr hword

theorem stepPgResidue_took (s : State) : Always (Took 0 s) (stepPgResidue s) := by
  refine always_inSearch fun _ => ?_
  split
  · exact always_fault.mpr trivial
  · exact always_next.mpr rfl

theorem stepPgSieve_took (i : Nat) (s : State) : Always (Took 0 s) (stepPgSieve i s) := by
  refine always_inSearch fun safe => always_divide fun d => ?_
  dsimp only
  split_ifs <;> exact always_next.mpr rfl

theorem stepPgBump_took (s : State) : Always (Took 0 s) (stepPgBump s) := by
  refine always_inSearch fun safe => ?_
  split_ifs <;> exact always_next.mpr rfl

theorem stepPgFinal_took (s : State) : Always (Took 0 s) (stepPgFinal s) := by
  refine always_inSearch fun _ => ?_
  dsimp only
  split_ifs
  · exact always_next.mpr rfl
  · split <;> exact always_next.mpr rfl

/-- A transition takes the words of its state of the sequencer, and nothing else from the port (43 R167). -/
theorem seqStep_took (s : State) : Always (Took (wordsTaken s.seq) s) (seqStep s) := by
  unfold seqStep
  cases s.seq with
  | idle => exact always_next.mpr rfl
  | exec => exact always_fault.mpr trivial
  | rrTry k => exact stepRrTry_took k s
  | ipPre => exact stepIpPre_took s
  | ipTrial i => exact stepIpTrial_took i s
  | ipFactor => exact always_next.mpr rfl
  | ipRound j drawn =>
    cases drawn with
    | false => exact always_next.mpr (beginDraw_took rfl)
    | true => exact stepIpPower_took j s
  | ipSquare j t => exact stepIpSquare_took j t s
  | pgCheck => exact stepPgCheck_took s
  | pgAgain => exact stepPgAgain_took s
  | pgResidue => exact stepPgResidue_took s
  | pgLoop => exact inSearch_goTo_took rfl
  | pgSieve i => exact stepPgSieve_took i s
  | pgBump => exact stepPgBump_took s
  | pgFinal => exact stepPgFinal_took s
  | gpCall => exact inSearch_goTo_took rfl
  | gpVerifyP => exact inSearch_goTo_took rfl
  | gpVerifyQ => exact inSearch_goTo_took rfl

/-! ### The words that a turn and a command take -/

/-- From `s` to `t` composed words alone have been taken from the port. -/
def TookWords (s t : State) : Prop := ∃ n, Took n s t

theorem engineTurn_tookWords {s u : State} (h : TookWords s u) : Always (TookWords s) (engineTurn u) :=
  always_runSeq (fun v ⟨n, hn⟩ _ t ht => ⟨n + wordsTaken v.seq, hn.trans (seqStep_took v t ht)⟩) h _

/-- A gated command that does not draw: the port is as its body leaves it. -/
theorem command_took_zero {s : State} {i : Instr} {body : State → Out} (h : Always (Took 0 s) (body (s.start i))) :
    Always (Took 0 s) (s.command i body) := always_command rfl h

theorem command_end_took {s : State} {i : Instr} {f : State → State} (h : port (f (s.start i)) = port s) :
    Always (Took 0 s) (s.command i fun u => .next (f u)) := command_took_zero (always_next.mpr h)

/-- The commands that refuse a zero divisor and otherwise end with what the divider gives. -/
theorem command_divide_took {s : State} {i : Instr} {c : State → Prop} [∀ u, Decidable (c u)] {a b : State → Word64}
    {ph pl qh ql : DivWork → Word32} :
    Always (Took 0 s) (s.command i fun u => if c u then .next (u.raise .invalidParameter)
      else u.divide (a u) (b u) fun d v => .next (v.finish (ph d) (pl d) (qh d) (ql d) false)) := by
  refine command_took_zero ?_
  split_ifs
  · exact always_next.mpr rfl
  · exact always_divide fun d => always_next.mpr rfl

/-- A command that neither draws nor hands over a seed leaves the port as it was (43 R167). -/
theorem exec_took_zero (s : State) {i : Instr} (hseed : i ≠ .seedrng) (hdraws : ¬ Draws i) :
    Always (Took 0 s) (exec i s) := by
  cases i with
  | nop | initsp | initpt => exact always_next.mpr rfl
  | cmp32 => unfold exec execCmp32; exact command_end_took rfl
  | add32 => unfold exec execAdd32; exact command_end_took rfl
  | sub32 => unfold exec execSub32; exact command_end_took rfl
  | neg32 => unfold exec execNeg32; exact command_end_took rfl
  | srl32 => unfold exec execSrl32; exact command_end_took rfl
  | sll32 => unfold exec execSll32; exact command_end_took rfl
  | mul32 => unfold exec execMul32; exact command_end_took rfl
  | bitlen32 => unfold exec execBitlen32; exact command_end_took rfl
  | cmp64 => unfold exec execCmp64; exact command_end_took rfl
  | add64 => unfold exec execAdd64; exact command_end_took rfl
  | sub64 => unfold exec execSub64; exact command_end_took rfl
  | neg64 => unfold exec execNeg64; exact command_end_took rfl
  | srl64 => unfold exec execSrl64; exact command_end_took rfl
  | sll64 => unfold exec execSll64; exact command_end_took rfl
  | bitlen64 => unfold exec execBitlen64; exact command_end_took rfl
  | divrem32 => unfold exec execDivrem32; exact command_divide_took
  | divrem64 => unfold exec execDivrem64; exact command_divide_took
  | mulmod => unfold exec execMulmod; exact command_divide_took
  | expmod =>
    unfold exec execExpmod
    refine command_took_zero ?_
    split_ifs <;> exact always_next.mpr rfl
  | invmod =>
    unfold exec execInvmod
    refine command_took_zero ?_
    dsimp only
    split_ifs
    · exact always_next.mpr rfl
    · split <;> exact always_next.mpr rfl
  | mrround =>
    unfold exec execMrround
    refine command_took_zero ?_
    dsimp only
    split_ifs
    · exact always_next.mpr rfl
    · exact always_next.mpr rfl
    · exact always_fault.mpr trivial
    · exact always_next.mpr rfl
    · exact always_next.mpr rfl
  | rand32 | randbits | randrange | isprime => simp at hdraws
  | probprime safe | probprimedh safe | genprime safe => simp at hdraws
  | seedrng => exact absurd rfl hseed

theorem exec_rand32_tookWords (s : State) : Always (TookWords s) (exec .rand32 s) := by
  unfold exec execRand32
  refine always_command ⟨0, rfl⟩ (always_next.mpr ⟨1, ?_⟩)
  rw [(randWord_spec _).2]
  rfl

theorem exec_randbits_tookWords (s : State) : Always (TookWords s) (exec .randbits s) := by
  unfold exec execRandbits
  refine always_command ⟨0, rfl⟩ ?_
  split_ifs
  · exact always_next.mpr ⟨0, rfl⟩
  · exact always_next.mpr ⟨1, took_randBits (s.start .randbits) _⟩

theorem loopEntry_took (s : State) {i : Instr} (hi : IsLoop i) : Took 0 s (loopEntry i s) := by
  rcases hi with rfl | rfl | ⟨safe, rfl | rfl | rfl⟩
  · exact beginDraw_took (u := s.start .randrange) rfl
  all_goals rfl

theorem exec_loop_tookWords (s : State) {i : Instr} (hi : IsLoop i) : Always (TookWords s) (exec i s) := by
  rcases exec_loop s hi with ⟨_, e⟩ | ⟨_, e⟩ <;> rw [e]
  · exact always_next.mpr ⟨0, rfl⟩
  · exact engineTurn_tookWords ⟨0, loopEntry_took s hi⟩

theorem exec_tookWords_of_draws (s : State) {i : Instr} (hdraws : Draws i) : Always (TookWords s) (exec i s) := by
  rcases hdraws with rfl | rfl | hloop
  · exact exec_rand32_tookWords s
  · exact exec_randbits_tookWords s
  · exact exec_loop_tookWords s hloop

/-- A command that runs beyond its first step is one with named states. -/
theorem isLoop_of_runningOk {s : State} {i : Instr} (h : RunningOk s) (hr : s.running = some i) : IsLoop i := by
  simp only [RunningOk, hr] at h
  cases i with
  | randrange => exact .inl rfl
  | isprime => exact .inr (.inl rfl)
  | probprime safe => exact .inr (.inr ⟨safe, .inl rfl⟩)
  | probprimedh safe => exact .inr (.inr ⟨safe, .inr (.inl rfl)⟩)
  | genprime safe => exact .inr (.inr ⟨safe, .inr (.inr rfl)⟩)
  | _ => exact h.elim

/-! ### The obligations -/

/-- Settles O28: the command's equation. -/
theorem seedrngPassesTheSeedOn : Obligations.SeedrngPassesTheSeedOn :=
  ⟨decode_of_encode rfl, exec_seedrng⟩

/-- Settles O29: one composed word is the composition of the next three answers. -/
theorem rand32ComposesThreeWords : Obligations.Rand32ComposesThreeWords :=
  ⟨decode_of_encode rfl, fun _ h => exec_rand32 h⟩

/-- Settles O30: the low bits of one composed word, or the refusal before the draw. -/
theorem randbitsTakesTheLowBits : Obligations.RandbitsTakesTheLowBits := by
  refine ⟨decode_of_encode rfl, fun s h => ?_⟩
  split_ifs with hfits
  · exact exec_randbits_fits h hfits
  · exact exec_randbits_wide h (Nat.lt_of_not_le hfits)

/-- Settles O31: the rejected attempts move on, and the first one below the range ends the command. -/
theorem randrangeTakesTheFirstValueInRange : Obligations.RandrangeTakesTheFirstValueInRange := by
  intro s k h hne hk hpace hrejected haccepted
  have hend := seqStep_drawing (drawOk_rangeEntry hne) hk
  have hattempt : attempt (rangeEntry s) s.xl.toNat k = attempt s s.xl.toNat k := rfl
  rw [hattempt, if_pos haccepted, drawing_afterCalls, drawAccepted_randrange rfl] at hend
  exact ⟨(rangeEntry s).draw, exec_randrange_after h hne hk hpace hrejected hend rfl⟩

/-- Settles O32: an empty range is refused before the draw; after 99 rejected attempts the hundredth ends the command. -/
theorem randrangeFails : Obligations.RandrangeFails := by
  refine fun s h => ⟨exec_randrange_zero h, fun hne hpace hrejected => ?_⟩
  have hend := seqStep_drawing (drawOk_rangeEntry hne) (k := 99) (by decide)
  have hattempt : attempt (rangeEntry s) s.xl.toNat 99 = attempt s s.xl.toNat 99 := rfl
  rw [hattempt, if_neg (Nat.not_lt.mpr (hrejected 99 (by decide))), if_neg (by decide), drawing_afterCalls,
    drawExhausted_randrange rfl] at hend
  exact ⟨(rangeEntry s).draw,
    exec_randrange_after h hne (by decide) hpace (fun j hj => hrejected j (by omega)) hend rfl⟩

/-- Settles O51: every transition takes composed words only, and so do a turn and a command; SEEDRNG by its equation. -/
theorem randomWordsComeByThrees : Obligations.RandomWordsComeByThrees := by
  refine ⟨fun s t i h => ?_, fun s t h => ?_, fun s i hinv hb hr => ?_⟩
  · by_cases hseed : i = .seedrng
    · subst hseed
      cases (exec_seedrng s).symm.trans h
      exact ⟨fun _ => ⟨rfl, rfl⟩, fun hne => absurd rfl hne, 0, rfl, rfl⟩
    by_cases hdraws : Draws i
    · obtain ⟨n, hn⟩ := exec_tookWords_of_draws s hdraws t h
      obtain ⟨hin, hcalls, hseeds⟩ := took_iff.mp hn
      exact ⟨fun hno => absurd hdraws hno, fun _ => hseeds, n, hcalls, hin⟩
    · obtain ⟨hin, hcalls, hseeds⟩ := took_iff.mp (exec_took_zero s hseed hdraws t h)
      exact ⟨fun _ => ⟨hin, hcalls⟩, fun _ => hseeds, 0, hcalls, hin⟩
  · obtain ⟨n, hn⟩ := engineTurn_tookWords ⟨0, rfl⟩ t h
    obtain ⟨hin, hcalls, hseeds⟩ := took_iff.mp hn
    exact ⟨hseeds, n, hcalls, hin⟩
  · obtain ⟨_, _, _, hrun⟩ := hinv.busy hb
    exact .inr (.inr (isLoop_of_runningOk hrun hr))

end Sys2Proof.Proofs

/-! The mathematics of the primality tester (44 R178 to R185): trial division by the table and below `312^2`, the powers
that a witness test looks at and what settles it, the primes, which pass it; then the test on the datapath, and MRROUND. -/

namespace Sys2Proof.Proofs

open Sys2Proof.Machine Sys2Proof.Safety Sys2Proof.Laws

/-! ### The table and trial division -/

/-- The table holds the primes below 312 (10 R33). -/
theorem tablePrimes_eq_filter : tablePrimes = (List.range 312).filter Nat.Prime := by decide +kernel

theorem mem_tablePrimes_iff_prime {p : Nat} : p ∈ tablePrimes ↔ p < 312 ∧ Nat.Prime p := by
  rw [tablePrimes_eq_filter, List.mem_filter, List.mem_range, decide_eq_true_eq]

theorem tablePrime_prime {i : Nat} (hi : i < 64) : Nat.Prime (tablePrime i) :=
  (mem_tablePrimes_iff_prime.mp (mem_tablePrimes.mpr ⟨i, hi, rfl⟩)).2

/-- A number that a table prime divides is prime exactly when it is that entry (44 R178). -/
theorem prime_iff_eq_tablePrime {w i : Nat} (hi : i < 64) (hdvd : tablePrime i ∣ w) :
    Nat.Prime w ↔ w = tablePrime i := by
  have hp := tablePrime_prime hi
  exact ⟨fun hw => ((Nat.prime_dvd_prime_iff_eq hp hw).mp hdvd).symm, fun h => h ▸ hp⟩

/-- Below `312^2` trial division by the table is exact (44 R185). -/
theorem prime_of_no_tablePrime_dvd {w : Nat} (h1 : 1 < w) (hw : w < 97344) (hnone : ∀ p ∈ tablePrimes, ¬ p ∣ w) :
    Nat.Prime w := by
  by_contra hcomp
  have hsq : w.minFac ^ 2 ≤ w := Nat.minFac_sq_le_self (by omega) hcomp
  have hlt : w.minFac < 312 := by
    by_contra hge
    have : 312 ^ 2 ≤ w.minFac ^ 2 := Nat.pow_le_pow_left (by omega) 2
    omega
  exact hnone _ (mem_tablePrimes_iff_prime.mpr ⟨hlt, Nat.minFac_prime (by omega)⟩) (Nat.minFac_dvd w)

/-! ### The powers of a witness test -/

/-- The exponent of 2 and the odd factor are unique (44 R179). -/
theorem two_pow_mul_odd_inj {a m : Nat} (hm : m % 2 = 1) :
    ∀ {a' m' : Nat}, m' % 2 = 1 → 2 ^ a * m = 2 ^ a' * m' → a = a' ∧ m = m' := by
  induction a with
  | zero =>
    intro a' m' hm' h
    cases a' with
    | zero => simpa using h
    | succ a' =>
      rw [Nat.pow_succ', Nat.mul_assoc] at h
      omega
  | succ a ih =>
    intro a' m' hm' h
    rw [Nat.pow_succ', Nat.mul_assoc] at h
    cases a' with
    | zero =>
      rw [Nat.pow_zero, Nat.one_mul] at h
      omega
    | succ a' =>
      rw [Nat.pow_succ', Nat.mul_assoc] at h
      obtain ⟨rfl, hm⟩ := ih hm' (Nat.eq_of_mul_eq_mul_left (by decide) h)
      exact ⟨rfl, hm⟩

/-- No power that the test of the base `b` looks at before the `t`-th squaring settles it (44 R182). -/
def Unsettled (w b m t : Nat) : Prop := b ^ m % w ≠ 1 ∧ ∀ u < t, b ^ (2 ^ u * m) % w ≠ w - 1

section
variable {w b a m t : Nat} (hw : w - 1 = 2 ^ a * m) (hm : m % 2 = 1)

theorem unsettled_succ (h : Unsettled w b m t) (ht : b ^ (2 ^ t * m) % w ≠ w - 1) : Unsettled w b m (t + 1) :=
  ⟨h.1, forall_lt_succ_of h.2 ht⟩

/-- A power that is 1 makes every later one 1, so none of them is `w - 1`. -/
theorem unsettled_of_power_eq_one (h2 : 2 < w) (h : Unsettled w b m t) (hone : b ^ (2 ^ t * m) % w = 1) (n : Nat) :
    Unsettled w b m n := by
  refine ⟨h.1, fun u _ => ?_⟩
  rcases Nat.lt_or_ge u t with hlt | hge
  · exact h.2 u hlt
  · obtain ⟨d, rfl⟩ := Nat.exists_eq_add_of_le hge
    have hpow : b ^ (2 ^ (t + d) * m) = (b ^ (2 ^ t * m)) ^ 2 ^ d := by
      rw [← Nat.pow_mul, Nat.pow_add]
      ring_nf
    rw [hpow, Nat.pow_mod, hone, Nat.one_pow, Nat.mod_eq_of_lt (by omega)]
    omega

include hw hm

theorem strong_of_power (ht : t < a) (h : b ^ (2 ^ t * m) % w = w - 1) : StrongProbablePrime w b :=
  ⟨a, m, hw, hm, .inr ⟨t, ht, h⟩⟩

theorem strong_of_first (h : b ^ m % w = 1) : StrongProbablePrime w b := ⟨a, m, hw, hm, .inl h⟩

theorem not_strong_of_unsettled (h : Unsettled w b m a) : ¬ StrongProbablePrime w b := by
  rintro ⟨a', m', hw', hm', hone | ⟨u, hu, hpow⟩⟩ <;>
    obtain ⟨rfl, rfl⟩ := two_pow_mul_odd_inj hm hm' (hw.symm.trans hw')
  · exact h.1 hone
  · exact h.2 u hu hpow

end

/-- In a field 1 has no square roots but 1 and -1: where the `a`-th squaring gives 1, the element is 1 or a squaring
before it gives -1. -/
theorem eq_one_or_square_eq_neg_one {F : Type*} [Field F] (x : F) {a : Nat} (h : x ^ 2 ^ a = 1) :
    x = 1 ∨ ∃ t < a, x ^ 2 ^ t = -1 := by
  induction a with
  | zero => exact .inl (by simpa using h)
  | succ a ih =>
    rw [Nat.pow_succ, pow_mul] at h
    rcases sq_eq_one_iff.mp h with hone | hminus
    · rcases ih hone with hx | ⟨t, ht, hpow⟩
      · exact .inl hx
      · exact .inr ⟨t, by omega, hpow⟩
    · exact .inr ⟨a, by omega, hminus⟩

/-- A prime passes the witness test to every base that it does not divide (44 R184). -/
theorem strong_of_prime {w b : Nat} (hp : Nat.Prime w) (hodd : w % 2 = 1) (hb0 : 0 < b) (hb : b < w) :
    StrongProbablePrime w b := by
  have hw2 := hp.two_le
  obtain ⟨a, m, hm, hw⟩ := Nat.exists_eq_two_pow_mul_odd (n := w - 1) (by omega)
  have : Fact w.Prime := ⟨hp⟩
  have hbne : (b : ZMod w) ≠ 0 := fun h0 => by
    rw [ZMod.natCast_eq_zero_iff] at h0
    exact absurd (Nat.le_of_dvd hb0 h0) (by omega)
  have hfermat : ((b : ZMod w) ^ m) ^ 2 ^ a = 1 := by
    rw [← pow_mul, Nat.mul_comm, ← hw]
    exact ZMod.pow_card_sub_one_eq_one hbne
  have residue {n r : Nat} (hr : r < w) (h : (b : ZMod w) ^ n = r) : b ^ n % w = r := by
    rw [← Nat.cast_pow, ZMod.natCast_eq_natCast_iff'] at h
    rwa [Nat.mod_eq_of_lt hr] at h
  have hminus : ((w - 1 : Nat) : ZMod w) = -1 := by
    rw [Nat.cast_sub (by omega), ZMod.natCast_self, Nat.cast_one, zero_sub]
  refine ⟨a, m, hw, Nat.odd_iff.mp hm, ?_⟩
  rcases eq_one_or_square_eq_neg_one _ hfermat with hone | ⟨t, ht, hpow⟩
  · exact .inl (residue (by omega) (by rw [hone, Nat.cast_one]))
  · rw [← pow_mul, Nat.mul_comm] at hpow
    exact .inr ⟨t, ht, residue (by omega) (hpow.trans hminus.symm)⟩

/-! ### The witness test on the datapath -/

/-- The power that the test begins with (44 R182). -/
theorem firstPower_toNat {w m b : Word32} (hw : w ≠ 0#32) (hm : m.toNat % 2 = 1) :
    (expMod b m w hw).toNat = b.toNat ^ m.toNat % w.toNat := by
  rw [expMod_toNat, if_neg (by omega)]

section
variable {w m b : Word32} {a : Nat} (hw : w ≠ 0#32) (hfac : w.toNat - 1 = 2 ^ a * m.toNat) (hm : m.toNat % 2 = 1)

theorem eq_one_iff_toNat (z : Word32) : z = 1#32 ↔ z.toNat = 1 := BitVec.toNat_inj.symm

include hw in
theorem eq_sub_one_iff_toNat (z : Word32) : z = w - 1#32 ↔ z.toNat = w.toNat - 1 := by
  rw [← toNat_sub_one hw, BitVec.toNat_inj]

include hfac hm

/-- The squarings decide the test, from a running value after which it is still unsettled (44 R182). -/
theorem squareUpTo_iff (h2 : 2 < w.toNat) {n t : Nat} (hn : a = t + n) (ht : 1 ≤ t) {z : Word32}
    (hz : z.toNat = b.toNat ^ (2 ^ (t - 1) * m.toNat) % w.toNat) (h : Unsettled w.toNat b.toNat m.toNat t) :
    (squareUpTo w hw n z).1 = true ↔ StrongProbablePrime w.toNat b.toNat := by
  induction n generalizing t z with
  | zero =>
    obtain rfl : a = t := hn
    simpa [squareUpTo] using not_strong_of_unsettled hfac hm h
  | succ n ih =>
    have hsq := (mulMod_toNat z z w hw).trans (squared_power ht hz)
    simp only [squareUpTo, eq_sub_one_iff_toNat hw, eq_one_iff_toNat]
    split_ifs with hminus hone
    · simpa using strong_of_power hfac hm (by omega) (hsq ▸ hminus)
    · simpa using not_strong_of_unsettled hfac hm (unsettled_of_power_eq_one h2 h (hsq ▸ hone) a)
    · exact ih (by omega) (by omega) hsq (unsettled_succ h (hsq ▸ hminus))

/-- The datapath's witness test is the exact one (44 R182). -/
theorem witness_iff (h2 : 2 < w.toNat) (ha : 0 < a) :
    (witness w hw a m b).1 = true ↔ StrongProbablePrime w.toNat b.toNat := by
  have hz := firstPower_toNat (b := b) hw hm
  simp only [witness, eq_sub_one_iff_toNat hw, eq_one_iff_toNat]
  split_ifs with hpass
  · have hstrong : StrongProbablePrime w.toNat b.toNat := by
      rcases hpass with hone | hminus
      · exact strong_of_first hfac hm (hz ▸ hone)
      · exact strong_of_power hfac hm ha (by simpa [hz] using hminus)
    simpa using hstrong
  · obtain ⟨hone, hminus⟩ := not_or.mp hpass
    refine squareUpTo_iff hw hfac hm h2 (t := 1) (by omega) le_rfl (by simpa using hz) ⟨hz ▸ hone, fun u hu => ?_⟩
    obtain rfl : u = 0 := by omega
    simpa [hz] using hminus

end

/-! ### MRROUND -/

/-- For odd `w` above 1 the exponent of 2 in `w - 1` is positive. -/
theorem pos_of_odd {w a m : Nat} (hodd : w % 2 = 1) (h1 : 1 < w) (hfac : w - 1 = 2 ^ a * m) (hm : m % 2 = 1) :
    0 < a := by
  refine Nat.pos_of_ne_zero fun h0 => ?_
  rw [h0, Nat.pow_zero, Nat.one_mul] at hfac
  omega

/-- MRROUND's operands are in range (44 R183). -/
abbrev RoundOperandsOk (w b : Word32) : Prop :=
  w.toNat % 2 = 1 ∧ 5 ≤ w.toNat ∧ 2 ≤ b.toNat ∧ b.toNat ≤ w.toNat - 2

theorem badNumber_iff (w : Word32) : (w.getLsbD 0 = false ∨ w < 5) ↔ w.toNat % 2 = 0 ∨ w.toNat < 5 := by
  have hodd : w.getLsbD 0 = false ↔ w.toNat % 2 = 0 := by
    rw [← Bool.not_eq_true, getLsbD_zero_iff]
    omega
  rw [hodd, BitVec.lt_def]
  rfl

theorem badBase_iff {w : Word32} (hw : 5 ≤ w.toNat) (b : Word32) :
    (b < 2 ∨ w - 2 < b) ↔ b.toNat < 2 ∨ w.toNat - 2 < b.toNat := by
  have hsub : (w - 2).toNat = w.toNat - 2 := BitVec.toNat_sub_of_le (BitVec.le_def.mpr (show 2 ≤ w.toNat by omega))
  rw [BitVec.lt_def, BitVec.lt_def, hsub]
  rfl

section
variable {s : State} (h : Ready s)
include h

theorem exec_mrround_bad (hbad : ¬ RoundOperandsOk s.xl s.yl) : exec .mrround s = .next (failed s 1) := by
  unfold exec execMrround
  rw [command_ready h]
  by_cases hnumber : s.xl.toNat % 2 = 0 ∨ s.xl.toNat < 5
  · exact if_pos ((badNumber_iff s.xl).mpr hnumber)
  · have hbase : s.yl.toNat < 2 ∨ s.xl.toNat - 2 < s.yl.toNat := by omega
    exact (if_neg (mt (badNumber_iff s.xl).mp hnumber)).trans (if_pos ((badBase_iff (by omega) s.yl).mpr hbase))

theorem exec_mrround_ok (hw : s.xl ≠ 0#32) (hok : RoundOperandsOk s.xl s.yl) :
    let f := factorTwos s.xl
    let r := witness s.xl hw f.1 f.2 s.yl
    exec .mrround s = .next { ended s 0 (if r.1 then 1 else 0) 0 0 false with
      mr := { s.mr with w := s.xl, a := f.1, m := f.2, b := s.yl, z := r.2 } } := by
  obtain ⟨hodd, h5, hb2, hb⟩ := hok
  have hnumber : ¬ (s.xl.toNat % 2 = 0 ∨ s.xl.toNat < 5) := by omega
  have hbase : ¬ (s.yl.toNat < 2 ∨ s.xl.toNat - 2 < s.yl.toNat) := by omega
  unfold exec execMrround
  exact (command_ready h _ _).trans ((if_neg (mt (badNumber_iff s.xl).mp hnumber)).trans
    ((if_neg (mt (badBase_iff h5 s.yl).mp hbase)).trans (dif_neg hw)))

end

/-- Settles O37: the datapath's squarings are the powers of the exact test, and operands out of range are refused. -/
theorem mrroundMakesOneWitnessTest : Obligations.MrroundMakesOneWitnessTest := by
  refine ⟨decode_of_encode rfl, fun s h => ⟨fun hok => ?_, fun hbad => exec_mrround_bad h (by omega)⟩⟩
  obtain ⟨hodd, h5, _, _⟩ := id hok
  have hw : s.xl ≠ 0#32 := ne_zero_of_toNat_pos (by omega)
  obtain ⟨hfac, hm⟩ := factorTwos_spec s.xl (by omega)
  have hiff := witness_iff (b := s.yl) hw hfac hm (by omega) (pos_of_odd hodd (by omega) hfac hm)
  refine ⟨_, _, s.exp, s.div, exec_mrround_ok h hw hok, ?_, ?_⟩
  · exact (ite_eq_or_eq _ _ _).symm
  · rw [← hiff]
    simp

end Sys2Proof.Proofs

/-! The primality tester's run (44 R176 to R186): runs of a bounded number of transitions, the tester's transitions as
numbers, trial division, one round, the rounds on the words that the source gives, and the way to the first round. These
lemmas rest on no command in particular, so they hold for the verifications of GENPRIME too. -/

namespace Sys2Proof.Proofs

open Sys2Proof.Machine Sys2Proof.Safety Sys2Proof.Laws

/-! ### Runs of a bounded number of transitions -/

/-- At most `n` transitions lead from `s` to `t`. -/
def Reaches (n : Nat) (s t : State) : Prop := ∃ k ≤ n, runSeq k s = .next t

/-- At most `n` transitions lead from `s` to a state of a running command whose transition has the outcome `o`. -/
def Decides (n : Nat) (s : State) (o : Out) : Prop := ∃ u, Reaches n s u ∧ u.busy = true ∧ seqStep u = o

theorem Reaches.refl (s : State) : Reaches 0 s s := ⟨0, le_rfl, rfl⟩

theorem Reaches.mono {m n : Nat} {s t : State} (h : Reaches m s t) (hmn : m ≤ n) : Reaches n s t := by
  obtain ⟨k, hk, hrun⟩ := h
  exact ⟨k, hk.trans hmn, hrun⟩

theorem Reaches.trans {m n : Nat} {s t u : State} (h : Reaches m s t) (h' : Reaches n t u) : Reaches (m + n) s u := by
  obtain ⟨k, hk, hrun⟩ := h
  obtain ⟨k', hk', hrun'⟩ := h'
  exact ⟨k + k', Nat.add_le_add hk hk', (runSeq_add hrun).trans hrun'⟩

theorem reaches_of_seqStep {s t : State} (hb : s.busy = true) (h : seqStep s = .next t) : Reaches 1 s t :=
  ⟨1, le_rfl, runSeq_succ hb h 0⟩

theorem decides_seqStep {s : State} (hb : s.busy = true) (n : Nat) : Decides n s (seqStep s) :=
  ⟨s, (Reaches.refl s).mono (Nat.zero_le n), hb, rfl⟩

theorem Reaches.decides {m n : Nat} {s t : State} {o : Out} (h : Reaches m s t) (h' : Decides n t o) :
    Decides (m + n) s o := by
  obtain ⟨u, hreach, hb, hstep⟩ := h'
  exact ⟨u, h.trans hreach, hb, hstep⟩

theorem Decides.mono {m n : Nat} {s : State} {o : Out} (h : Decides m s o) (hmn : m ≤ n) : Decides n s o := by
  obtain ⟨u, hreach, hb, hstep⟩ := h
  exact ⟨u, hreach.mono hmn, hb, hstep⟩

theorem Decides.reaches {n : Nat} {s t : State} (h : Decides n s (.next t)) : Reaches (n + 1) s t := by
  obtain ⟨u, hreach, hb, hstep⟩ := h
  exact hreach.trans (reaches_of_seqStep hb hstep)

/-- A command that ends within the engine's turn ends the turn. -/
theorem engineTurn_of_reaches {n : Nat} {s t : State} (h : Reaches n s t) (hidle : t.busy = false)
    (hn : n ≤ s.pace + 1) : engineTurn s = .next t := by
  obtain ⟨k, hk, hrun⟩ := h
  have hturn : s.pace + 1 = k + (s.pace + 1 - k) := by omega
  rw [engineTurn, hturn, runSeq_add hrun, runSeq_idle hidle]

/-! ### The tester's transitions on numbers -/

theorem beq_eq_decide_toNat {n : Nat} (v u : BitVec n) : (v == u) = decide (v.toNat = u.toNat) := by
  rw [Bool.eq_iff_iff, beq_iff_eq, decide_eq_true_eq, BitVec.toNat_inj]

/-- IP_PRE, past the test of CHECKS (44 R177). -/
theorem stepIpPre_eq {s : State} (hchecks : s.checks ≠ 0) :
    stepIpPre s =
      if s.mr.w.toNat ≤ 1 then s.verdict false
      else if s.mr.w.toNat % 2 = 0 then s.verdict (decide (s.mr.w.toNat = 2))
      else if s.mr.w.toNat = 3 then s.verdict true
      else .next { s with seq := .ipTrial 0 } := by
  have heven : s.mr.w.getLsbD 0 = false ↔ s.mr.w.toNat % 2 = 0 := by
    rw [← Bool.not_eq_true, getLsbD_zero_iff]
    omega
  have htwo : (s.mr.w == 2) = decide (s.mr.w.toNat = 2) := beq_eq_decide_toNat s.mr.w 2
  have hthree : s.mr.w = 3 ↔ s.mr.w.toNat = 3 := BitVec.toNat_inj.symm
  simp only [stepIpPre, if_neg hchecks, heven, htwo, hthree]
  rfl

/-- IP_PRE gives an exact verdict or goes on to trial division (44 R177). -/
theorem stepIpPre_cases {s : State} (hchecks : s.checks ≠ 0) :
    (∃ prime, (prime = true ↔ Nat.Prime s.mr.w.toNat) ∧ stepIpPre s = s.verdict prime) ∨
    (1 < s.mr.w.toNat ∧ stepIpPre s = .next { s with seq := .ipTrial 0 }) := by
  rw [stepIpPre_eq hchecks]
  split_ifs with hsmall heven hthree
  · have hcomp : ¬ Nat.Prime s.mr.w.toNat := fun hp => absurd hp.two_le (by omega)
    exact .inl ⟨false, by simp [hcomp], rfl⟩
  · have htwo := prime_iff_eq_tablePrime (i := 0) (by decide) (Nat.dvd_of_mod_eq_zero heven)
    exact .inl ⟨_, decide_eq_true_eq.to_iff.trans htwo.symm, rfl⟩
  · exact .inl ⟨true, by simp [hthree, Nat.prime_three], rfl⟩
  · exact .inr ⟨by omega, rfl⟩

/-- IP_TRIAL(i) (44 R178). -/
theorem stepIpTrial_eq {s : State} (hsp : s.sp = smallPrimes) {i : Nat} (hi : i < 64) :
    ∃ d, stepIpTrial i s =
      if tablePrime i ∣ s.mr.w.toNat then { s with div := d }.verdict (decide (s.mr.w.toNat = tablePrime i))
      else if i < 63 then .next { s with div := d, seq := .ipTrial (i + 1) }
      else .next { s with div := d, seq := .ipFactor } := by
  have hp := zextSmall_prime_ne_zero hsp hi
  have hrem : (divRem64 (zext64 s.mr.w) (zextSmall (s.prime i)) hp).r = 0 ↔ tablePrime i ∣ s.mr.w.toNat := by
    rw [← BitVec.toNat_inj, remainder_toNat, zext64_toNat, zextSmall_prime_toNat hsp]
    exact (Nat.dvd_iff_mod_eq_zero ..).symm
  have hself : (zext64 s.mr.w == zextSmall (s.prime i)) = decide (s.mr.w.toNat = tablePrime i) := by
    rw [beq_eq_decide_toNat, zext64_toNat, zextSmall_prime_toNat hsp]
  refine ⟨divRem64 (zext64 s.mr.w) (zextSmall (s.prime i)) hp, (divide_of_ne hp s _ _).trans ?_⟩
  exact if_congr hrem (congrArg (State.verdict · _) hself) rfl

/-! ### Trial division -/

/-- The tester before its `i`-th trial division, and past the last (44 R178). -/
def trying (s : State) (d : DivWork) (i : Nat) : State :=
  { s with div := d, seq := if i < 64 then .ipTrial i else .ipFactor }

section
variable {s : State} (hsp : s.sp = smallPrimes)
include hsp

theorem seqStep_trying {i : Nat} (hi : i < 64) (d : DivWork) :
    ∃ d', seqStep (trying s d i) =
      if tablePrime i ∣ s.mr.w.toNat then (trying s d' i).verdict (decide (s.mr.w.toNat = tablePrime i))
      else .next (trying s d' (i + 1)) := by
  obtain ⟨d', hd⟩ := stepIpTrial_eq (s := trying s d i) hsp hi
  have htrial : seqStep (trying s d i) = stepIpTrial i (trying s d i) := by simp only [seqStep, trying, if_pos hi]
  refine ⟨d', htrial.trans (hd.trans (if_congr Iff.rfl rfl ?_))⟩
  split_ifs with hlast
  · simp only [trying, if_pos (show i + 1 < 64 by omega)]
  · simp only [trying, if_neg (show ¬ i + 1 < 64 by omega)]

/-- Entries that do not divide the number under test only move on. -/
theorem reaches_trying (hb : s.busy = true) {i : Nat} (hi : i ≤ 64)
    (hnone : ∀ k < i, ¬ tablePrime k ∣ s.mr.w.toNat) (d : DivWork) :
    ∃ d', Reaches i (trying s d 0) (trying s d' i) := by
  induction i with
  | zero => exact ⟨d, Reaches.refl _⟩
  | succ i ih =>
    obtain ⟨d', hreach⟩ := ih (by omega) fun k hk => hnone k (by omega)
    obtain ⟨d'', hstep⟩ := seqStep_trying hsp (show i < 64 by omega) d'
    rw [if_neg (hnone i (by omega))] at hstep
    exact ⟨d'', hreach.trans (reaches_of_seqStep (s := trying s d' i) hb hstep)⟩

/-- The first entry that divides the number under test gives the verdict. -/
theorem decides_trying (hb : s.busy = true) (hdvd : ∃ i < 64, tablePrime i ∣ s.mr.w.toNat) (d : DivWork) :
    ∃ d' i prime, Decides 63 (trying s d 0) ((trying s d' i).verdict prime) ∧
      (prime = true ↔ Nat.Prime s.mr.w.toNat) := by
  obtain ⟨i, ⟨hi, hi'⟩, hfirst⟩ := Nat.findX hdvd
  obtain ⟨d', hreach⟩ := reaches_trying hsp hb hi.le (fun k hk hk' => hfirst k hk ⟨by omega, hk'⟩) d
  obtain ⟨d'', hstep⟩ := seqStep_trying hsp hi d'
  rw [if_pos hi'] at hstep
  refine ⟨d'', i, decide (s.mr.w.toNat = tablePrime i), ?_, ?_⟩
  · exact (hstep ▸ hreach.decides (decides_seqStep (s := trying s d' i) hb 0)).mono (by omega)
  · rw [decide_eq_true_eq, prime_iff_eq_tablePrime hi hi']

/-- The tester settles a number at most 1, or one that a table prime divides, without a draw (44 R177, R178). -/
theorem decides_settled (hb : s.busy = true) (hchecks : s.checks ≠ 0) (hseq : s.seq = .ipPre)
    (hw : s.mr.w.toNat ≤ 1 ∨ ∃ p ∈ tablePrimes, p ∣ s.mr.w.toNat) :
    ∃ d q prime, Decides 64 s ({ s with div := d, seq := q }.verdict prime) ∧
      (prime = true ↔ Nat.Prime s.mr.w.toNat) := by
  have hpre : seqStep s = stepIpPre s := by simp only [seqStep, hseq]
  rcases stepIpPre_cases hchecks with ⟨prime, hprime, hverdict⟩ | ⟨h1, hgo⟩
  · exact ⟨s.div, s.seq, prime, hpre.trans hverdict ▸ decides_seqStep hb 64, hprime⟩
  · obtain ⟨p, hp, hdvd⟩ := hw.resolve_left (by omega)
    obtain ⟨i, hi, rfl⟩ := mem_tablePrimes.mp hp
    obtain ⟨d, k, prime, hdecides, hprime⟩ := decides_trying hsp hb ⟨i, hi, hdvd⟩ s.div
    exact ⟨d, _, prime, ((reaches_of_seqStep hb (hpre.trans hgo)).decides hdecides).mono (by omega), hprime⟩

end

/-! ### The tester runs -/

/-- The tester runs, in one of its states, with the table filled (44 R186). -/
structure Testing (s : State) : Prop where
  busy : s.busy = true
  table : s.sp = smallPrimes
  tests : Tests s
  ok : TesterOk s

/-- The tester still runs where only what it may write has changed and it is in one of its states. -/
theorem testing_of_offTester {s u : State} (h : Testing s) (hf : offTester u = offTester s) (hok : TesterOk u) :
    Testing u :=
  ⟨(eq_of_view hf State.busy).trans h.busy, (eq_of_view hf State.sp).trans h.table,
    (eq_of_view hf Tests).mpr h.tests, hok⟩

/-- A transition of the tester that leads neither to a command's end nor to GENPRIME's outer loop stays in the
tester. -/
theorem Testing.next {s u : State} (h : Testing s) (hstep : seqStep s = .next u)
    (hseq : u.seq ≠ .idle ∧ u.seq ≠ .gpCall ∧ u.seq ≠ .gpVerifyQ) : Testing u ∧ offTester u = offTester s := by
  obtain ⟨v, hv, ⟨e, hok⟩ | ⟨prime, e⟩ | ⟨k, -, e⟩⟩ := seqStep_tester h.table h.tests h.ok
  · cases hstep.symm.trans e
    exact ⟨testing_of_offTester h hv hok, hv⟩
  · rcases verdict_next (e.symm.trans hstep) with
      ⟨_, rfl⟩ | ⟨_, _, ⟨_, _, _, rfl⟩ | ⟨_, _, _, rfl⟩ | ⟨_, _, rfl⟩ | ⟨_, _, rfl⟩⟩ <;>
      simp [State.finish32] at hseq
  · cases hstep.symm.trans e
    simp at hseq

/-- What the coming random words rest on (43 R160, R162). -/
def source (s : State) : State :=
  { State.reset with rngIn := s.rngIn, rngCalls := s.rngCalls, rngSeeds := s.rngSeeds, params := s.params }

/-- The coming words of `u` are those of `s` after `n` composed words. -/
def WordsFrom (n : Nat) (s u : State) : Prop := source u = source (afterCalls s (3 * n))

theorem attempt_of_wordsFrom {n : Nat} {s u : State} (h : WordsFrom n s u) (range j : Nat) :
    attempt u range j = attempt s range (n + j) :=
  (eq_of_view h (attempt · range j)).trans (attempt_afterCalls s range n j)

theorem wordsFrom_afterCalls {n : Nat} {s u : State} (h : WordsFrom n s u) (k : Nat) :
    WordsFrom (n + k) s (afterCalls u (3 * k)) := by
  rw [WordsFrom, Nat.mul_add, ← afterCalls_afterCalls]
  exact eq_of_view h fun v => source (afterCalls v (3 * k))

/-! ### The draw of a base -/

/-- Round `j` at the beginning of its draw (44 R181). -/
def roundEntry (j : Nat) (s : State) : State :=
  { s with mr := { s.mr with round := j }, draw := ⟨s.mr.w - 3, bitLen (s.mr.w - 3 - 1)⟩ }

/-- Round `j` with the base `b`, drawn at the attempt after `k` rejected ones (44 R181). -/
def roundBase (j k : Nat) (b : Word32) (s : State) : State :=
  { afterCalls s (3 * (k + 1)) with
    mr := { s.mr with round := j, b := b }, draw := (roundEntry j s).draw, seq := .ipRound j true }

theorem drawAccepted_roundEntry {j : Nat} {s : State} (h : Tests s) (k : Nat) (v : Word32) :
    (afterCalls (drawing (roundEntry j s) k) 3).drawAccepted v = .next (roundBase j k (v + 2) s) := by
  have htests : Tests { afterCalls (roundEntry j s) (3 * (k + 1)) with seq := .rrTry (k + 1) } := h
  rw [drawing_afterCalls, drawAccepted_tests htests]
  rfl

section
variable {s u : State} {n j : Nat} (h : Testing u) (hseq : u.seq = .ipRound j false)
include h hseq

theorem factored_of_ipRound : Factored u j := by
  have hok := h.ok
  simpa only [TesterOk, hseq] using hok

/-- The range of the draw is `w - 3`, which is not empty. -/
theorem drawOk_roundEntry :
    DrawOk (roundEntry j u) (u.mr.w - 3) 1 ∧ (u.mr.w - 3).toNat = u.mr.w.toNat - 3 ∧ 3 < u.mr.w.toNat := by
  have h3 := above_three_of_factored (factored_of_ipRound h hseq)
  have hrange := toNat_sub_three h3
  exact ⟨drawOk_begin { u with mr := { u.mr with round := j } } (ne_zero_of_toNat_pos (by omega)), hrange, h3⟩

theorem reaches_draw : Reaches 1 u (drawing (roundEntry j u) 0) := by
  obtain ⟨⟨_, _, hne, _⟩, _⟩ := drawOk_roundEntry h hseq
  refine reaches_of_seqStep h.busy ?_
  simp only [seqStep, hseq, stepIpDraw, State.beginDraw, if_neg hne]
  rfl

variable (hwords : WordsFrom n s u)
include hwords

/-- Rejected attempts only move on. -/
theorem reaches_rejected {k : Nat} (hk : k < 100)
    (hrejected : ∀ i < k, u.mr.w.toNat - 3 ≤ attempt s (u.mr.w.toNat - 3) (n + i)) :
    Reaches (k + 1) u (drawing (roundEntry j u) k) := by
  obtain ⟨hdraw, hrange, _⟩ := drawOk_roundEntry h hseq
  have hrun := runSeq_rejected hdraw h.busy k hk fun i hi => by
    rw [hrange, attempt_of_wordsFrom (u := roundEntry j u) hwords]
    exact hrejected i hi
  exact ((reaches_draw h hseq).trans ⟨k, le_rfl, hrun⟩).mono (by omega)

/-- A drawn base takes the round to its exponentiation (44 R181). -/
theorem reaches_base {k : Nat} (hdrawn : BaseDrawn s u.mr.w.toNat n k) :
    ∃ b : Word32, Reaches (k + 2) u (roundBase j k b u) ∧ b.toNat = drawnBase s u.mr.w.toNat n k := by
  obtain ⟨hk, hrejected, haccepted⟩ := hdrawn
  obtain ⟨hdraw, hrange, h3⟩ := drawOk_roundEntry h hseq
  have hattempt := attempt_of_wordsFrom (u := roundEntry j u) hwords (u.mr.w.toNat - 3) k
  have hstep := seqStep_drawing hdraw hk
  rw [hrange, hattempt, if_pos haccepted, drawAccepted_roundEntry h.tests] at hstep
  have hreach := reaches_rejected h hseq hwords hk hrejected
  refine ⟨_, hreach.trans (reaches_of_seqStep (s := drawing (roundEntry j u) k) h.busy hstep), ?_⟩
  have hw := u.mr.w.isLt
  have htwo : (2 : Word32).toNat = 2 := rfl
  rw [BitVec.toNat_add, BitVec.toNat_ofNat, htwo, drawnBase]
  omega

omit h hseq in
theorem wordsFrom_roundBase (k : Nat) (b : Word32) : WordsFrom (n + k + 1) s (roundBase j k b u) :=
  wordsFrom_afterCalls hwords (k + 1)

omit hwords in
theorem testing_roundBase {b : Word32} (hb : 2 ≤ b.toNat ∧ b.toNat ≤ u.mr.w.toNat - 2) (k : Nat) :
    Testing (roundBase j k b u) := by
  have hfac : Factored u j := factored_of_ipRound h hseq
  exact testing_of_offTester h rfl ⟨hfac, hb⟩

/-- A hundred rejected attempts end the round with PrimalityInconclusive (44 R181). -/
theorem decides_exhausted (hrejected : ∀ i < 100, u.mr.w.toNat - 3 ≤ attempt s (u.mr.w.toNat - 3) (n + i)) :
    ∃ v, Decides 100 u (.next (v.raise .primalityInconclusive)) ∧ offTester v = offTester u ∧
      WordsFrom (n + 100) s v := by
  obtain ⟨hdraw, hrange, _⟩ := drawOk_roundEntry h hseq
  have hattempt := attempt_of_wordsFrom (u := roundEntry j u) hwords (u.mr.w.toNat - 3) 99
  have hstep := seqStep_drawing hdraw (k := 99) (by decide)
  have htests : Tests { afterCalls (roundEntry j u) (3 * 100) with seq := .rrTry 100 } := h.tests
  rw [hrange, hattempt, if_neg (Nat.not_lt.mpr (hrejected 99 (by decide))), if_neg (by decide), drawing_afterCalls,
    drawExhausted_tests htests] at hstep
  have hreach := reaches_rejected h hseq hwords (k := 99) (by decide) fun i hi => hrejected i (by omega)
  exact ⟨afterCalls (roundEntry j u) (3 * 100), ⟨_, hreach, h.busy, hstep⟩, rfl, wordsFrom_afterCalls hwords 100⟩

end

/-! ### The exponentiation and the squarings of a round -/

/-- The base of the round passes its witness test (44 R182). -/
abbrev BasePasses (s : State) : Prop := StrongProbablePrime s.mr.w.toNat s.mr.b.toNat

/-- A state without what the witness test of a round writes. -/
def offWitness (s : State) : State := { s with seq := .idle, exp := ⟨0, 0, 0⟩, mr := { s.mr with z := 0 } }

/-- What a transition of the witness test can lead to from `s` in round `j`: the test is decided, or the `t`-th squaring
comes. -/
def WitnessNext (j t : Nat) (s : State) (o : Out) : Prop :=
  ∃ u, offWitness u = offWitness s ∧
    ((BasePasses s ∧ o = u.roundPassed j) ∨ (¬ BasePasses s ∧ o = u.verdict false) ∨
      (u.seq = .ipSquare j t ∧ t < s.mr.a ∧ o = .next u))

section
variable {s u : State} {j t : Nat} (hf : offWitness u = offWitness s)
include hf

theorem witnessNext_passes (h : BasePasses s) : WitnessNext j t s (u.roundPassed j) := ⟨u, hf, .inl ⟨h, rfl⟩⟩

theorem witnessNext_fails (h : ¬ BasePasses s) : WitnessNext j t s (u.verdict false) := ⟨u, hf, .inr (.inl ⟨h, rfl⟩)⟩

theorem witnessNext_goesOn (hseq : u.seq = .ipSquare j t) (ht : t < s.mr.a) : WitnessNext j t s (.next u) :=
  ⟨u, hf, .inr (.inr ⟨hseq, ht, rfl⟩)⟩

end

section
variable {s : State} {j : Nat}

/-- In the rounds `w` is not 0, and 2 divides `w - 1`. -/
theorem bounds_of_factored (h : Factored s j) :
    s.mr.w ≠ 0#32 ∧ 2 < s.mr.w.toNat ∧ 0 < s.mr.a ∧ s.mr.a < 32 := by
  obtain ⟨⟨hodd, h3, _⟩, hfac, hm, _⟩ := h
  have hw := s.mr.w.isLt
  have hpow : 2 ^ s.mr.a ≤ s.mr.w.toNat - 1 := hfac ▸ Nat.le_mul_of_pos_right _ (by omega)
  have ha : s.mr.a < 32 := (Nat.pow_lt_pow_iff_right (by decide : 1 < 2)).mp (by omega)
  exact ⟨ne_zero_of_toNat_pos (by omega), by omega, pos_of_odd hodd (by omega) hfac hm, ha⟩

/-- IP_ROUND(j) after its draw (44 R182). -/
theorem stepIpPower_witness (h : Factored s j) : WitnessNext j 1 s (stepIpPower j s) := by
  obtain ⟨hw, h2, ha, _⟩ := bounds_of_factored h
  obtain ⟨_, hfac, hm, _⟩ := h
  have hz : (loLimb (expRun s.mr.b s.mr.m s.mr.w hw).acc).toNat = _ := firstPower_toNat (b := s.mr.b) hw hm
  simp only [stepIpPower, dif_neg hw, eq_one_iff_toNat, eq_sub_one_iff_toNat hw, hz]
  split_ifs with hpass hmore
  · refine witnessNext_passes rfl ?_
    rcases hpass with hone | hminus
    · exact strong_of_first hfac hm hone
    · exact strong_of_power hfac hm ha (by simpa using hminus)
  · exact witnessNext_goesOn rfl rfl hmore
  · obtain ⟨hone, hminus⟩ := not_or.mp hpass
    have hlast : s.mr.a = 1 := by omega
    refine witnessNext_fails rfl (not_strong_of_unsettled hfac hm ⟨hone, fun u hu => ?_⟩)
    obtain rfl : u = 0 := by omega
    simpa using hminus

/-- IP_SQUARE(j,t) (44 R182). -/
theorem stepIpSquare_witness {t : Nat} (hseq : s.seq = .ipSquare j t) (h : TesterOk s) :
    WitnessNext j (t + 1) s (stepIpSquare j t s) := by
  simp only [TesterOk, hseq] at h
  obtain ⟨hfactored, _, ht, hta, hz, hone, hnone⟩ := h
  obtain ⟨hw, h2, _, _⟩ := bounds_of_factored hfactored
  obtain ⟨_, hfac, hm, _⟩ := hfactored
  have hunsettled : Unsettled s.mr.w.toNat s.mr.b.toNat s.mr.m.toNat t := ⟨hone, hnone⟩
  have hsq := (mulMod_toNat s.mr.z s.mr.z s.mr.w hw).trans (squared_power ht hz)
  simp only [stepIpSquare, dif_neg hw, eq_one_iff_toNat, eq_sub_one_iff_toNat hw, hsq]
  split_ifs with hminus hone' hmore
  · exact witnessNext_passes rfl (strong_of_power hfac hm hta hminus)
  · exact witnessNext_fails rfl (not_strong_of_unsettled hfac hm (unsettled_of_power_eq_one h2 hunsettled hone' _))
  · exact witnessNext_goesOn rfl rfl (by omega)
  · have hlast : s.mr.a = t + 1 := by omega
    exact witnessNext_fails rfl (not_strong_of_unsettled hfac hm (hlast ▸ unsettled_succ hunsettled hminus))

/-- The witness test of round `j` is decided within `n` transitions, as in exact arithmetic. -/
def WitnessDecides (n j : Nat) (s : State) : Prop :=
  ∃ u, offWitness u = offWitness s ∧ (BasePasses s → Decides n s (u.roundPassed j)) ∧
    (¬ BasePasses s → Decides n s (u.verdict false))

/-- From a transition of the witness test: it decides, or the squarings that follow do. -/
theorem witnessDecides_of_next {n t : Nat} (h : Testing s) (hnext : WitnessNext j t s (seqStep s))
    (hrest : ∀ u, Testing u → u.seq = .ipSquare j t → t < s.mr.a → u.mr.a = s.mr.a →
      ∃ m < n, WitnessDecides m j u) :
    WitnessDecides n j s := by
  obtain ⟨u, hu, ⟨hpass, hstep⟩ | ⟨hfail, hstep⟩ | ⟨hseq, hta, hstep⟩⟩ := hnext
  · exact ⟨u, hu, fun _ => hstep ▸ decides_seqStep h.busy _, fun hfail => absurd hpass hfail⟩
  · exact ⟨u, hu, fun hpass => absurd hpass hfail, fun _ => hstep ▸ decides_seqStep h.busy _⟩
  · obtain ⟨htest, _⟩ := h.next hstep (by simp [hseq])
    obtain ⟨m, hm, v, hv, hpass, hfail⟩ := hrest u htest hseq hta (eq_of_view hu (·.mr.a))
    have hbase : BasePasses u ↔ BasePasses s := Iff.of_eq (eq_of_view hu BasePasses)
    have hreach := reaches_of_seqStep h.busy hstep
    exact ⟨v, hv.trans hu, fun hp => (hreach.decides (hpass (hbase.mpr hp))).mono (by omega),
      fun hp => (hreach.decides (hfail (mt hbase.mp hp))).mono (by omega)⟩

/-- At most `a - 1` squarings (44 R182). -/
theorem witnessDecides_square {n t : Nat} (h : Testing s) (hseq : s.seq = .ipSquare j t)
    (hn : s.mr.a ≤ t + n + 1) : WitnessDecides n j s := by
  induction n using Nat.strong_induction_on generalizing s t with
  | _ n ih =>
    have hstep : seqStep s = stepIpSquare j t s := by simp only [seqStep, hseq]
    exact witnessDecides_of_next h (hstep ▸ stepIpSquare_witness hseq h.ok) fun u hu hseq' hta ha =>
      ⟨n - 1, by omega, ih (n - 1) (by omega) hu hseq' (by omega)⟩

/-- The exponentiation and at most 30 squarings. -/
theorem witnessDecides_round (h : Testing s) (hseq : s.seq = .ipRound j true) : WitnessDecides 30 j s := by
  have hok := h.ok
  simp only [TesterOk, hseq] at hok
  obtain ⟨hfac, _⟩ := hok
  obtain ⟨_, _, _, ha⟩ := bounds_of_factored hfac
  have hstep : seqStep s = stepIpPower j s := by simp only [seqStep, hseq]
  exact witnessDecides_of_next h (hstep ▸ stepIpPower_witness hfac) fun u hu hseq' _ ha' =>
    ⟨29, by decide, witnessDecides_square hu hseq' (by omega)⟩

end

/-! ### Rounds on the words of the source -/

section
variable {s : State} {w : Nat}

/-- A base is drawn, or a hundred attempts are rejected (44 R181). -/
theorem baseDrawn_or_rejected (s : State) (w j : Nat) :
    (∃ k, BaseDrawn s w j k) ∨ ∀ i < 100, w - 3 ≤ attempt s (w - 3) (j + i) := by
  by_cases h : ∃ k < 100, attempt s (w - 3) (j + k) < w - 3
  · obtain ⟨k, ⟨hk, haccepted⟩, hfirst⟩ := Nat.findX h
    exact .inl ⟨k, hk, fun i hi => Nat.le_of_not_lt fun hlt => hfirst i hi ⟨hi.trans hk, hlt⟩, haccepted⟩
  · exact .inr fun i hi => Nat.le_of_not_lt fun hlt => h ⟨i, hi, hlt⟩

theorem drawnBase_bounds {j k : Nat} (h : BaseDrawn s w j k) :
    2 ≤ drawnBase s w j k ∧ drawnBase s w j k ≤ w - 2 := by
  obtain ⟨_, _, haccepted⟩ := h
  rw [drawnBase]
  omega

/-- The rounds from the last one. -/
theorem roundsPassed_succ_iff {r j j' : Nat} :
    RoundsPassed s w (r + 1) j j' ↔ ∃ j1 k, RoundsPassed s w r j j1 ∧ BaseDrawn s w j1 k ∧
      StrongProbablePrime w (drawnBase s w j1 k) ∧ j' = j1 + k + 1 := by
  induction r generalizing j with
  | zero =>
    constructor
    · rintro ⟨k, hdrawn, hpass, hj⟩
      exact ⟨j, k, rfl, hdrawn, hpass, hj⟩
    · rintro ⟨j1, k, rfl, hdrawn, hpass, hj⟩
      exact ⟨k, hdrawn, hpass, hj⟩
  | succ r ih =>
    constructor
    · rintro ⟨k, hdrawn, hpass, hrest⟩
      obtain ⟨j1, k1, hrest, hlast⟩ := ih.mp hrest
      exact ⟨j1, k1, ⟨k, hdrawn, hpass, hrest⟩, hlast⟩
    · rintro ⟨j1, k1, ⟨k, hdrawn, hpass, hrest⟩, hlast⟩
      exact ⟨k, hdrawn, hpass, ih.mpr ⟨j1, k1, hrest, hlast⟩⟩

/-- Each passed round takes 1 to 100 words. -/
theorem roundsPassed_words {r j j' : Nat} (h : RoundsPassed s w r j j') : j ≤ j' ∧ j' ≤ j + 100 * r := by
  induction r generalizing j with
  | zero =>
    obtain rfl : j' = j := h
    omega
  | succ r ih =>
    obtain ⟨k, ⟨hk, _⟩, _, hrest⟩ := h
    have := ih hrest
    omega

/-- The rounds pass, or one of them fails, or a draw exhausts (44 R180, R181). -/
theorem rounds_cases (s : State) (w j : Nat) {r : Nat} (hr : r ≤ s.checks.toNat) :
    ∃ n, RoundsPassed s w r j n ∨ RoundFails s w j n ∨ DrawExhausts s w j n := by
  induction r with
  | zero => exact ⟨j, .inl rfl⟩
  | succ r ih =>
    obtain ⟨n, hpassed | hother⟩ := ih (by omega)
    · rcases baseDrawn_or_rejected s w n with ⟨k, hdrawn⟩ | hrejected
      · by_cases hpass : StrongProbablePrime w (drawnBase s w n k)
        · exact ⟨n + k + 1, .inl (roundsPassed_succ_iff.mpr ⟨n, k, hpassed, hdrawn, hpass, rfl⟩)⟩
        · exact ⟨n + k + 1, .inr (.inl ⟨r, by omega, n, k, hpassed, hdrawn, hpass, rfl⟩)⟩
      · exact ⟨n + 100, .inr (.inr ⟨r, by omega, n, hpassed, hrejected, rfl⟩)⟩
    · exact ⟨n, .inr hother⟩

/-- The words that all rounds take at most. -/
theorem rounds_words {n : Nat} (h : RoundsPassed s w s.checks.toNat 0 n ∨ RoundFails s w 0 n ∨ DrawExhausts s w 0 n) :
    n ≤ 100 * s.checks.toNat := by
  rcases h with hpassed | ⟨r, hr, j1, k, hpassed, ⟨hk, _⟩, _, rfl⟩ | ⟨r, hr, j1, hpassed, _, rfl⟩ <;>
    have := roundsPassed_words hpassed <;> omega

end

/-! ### The rounds of the tester -/

/-- The tester entered at `e` begins round `j`, the words from the `n`-th of `s` on before it. -/
structure AtRound (s e : State) (n j : Nat) (u : State) : Prop where
  testing : Testing u
  seq : u.seq = .ipRound j false
  frame : offTester u = offTester e
  words : WordsFrom n s u

/-- Within `m` transitions from `u` the tester entered at `e` comes to the outcome `o`, having taken the words of `s` up
to the `n`-th. -/
def Concludes (s e : State) (n m : Nat) (u : State) (o : State → Out) : Prop :=
  ∃ v, offTester v = offTester e ∧ WordsFrom n s v ∧ Decides m u (o v)

section
variable {s e u : State} {n j : Nat} (h : AtRound s e n j u)
include h

theorem number_of_atRound : u.mr.w.toNat = e.mr.w.toNat := eq_of_view h.frame (·.mr.w.toNat)

/-- A round whose base is drawn passes or fails as the witness test of the base does (44 R180 to R182). -/
theorem round_concludes {k : Nat} (hdrawn : BaseDrawn s e.mr.w.toNat n k) :
    ∃ v, Factored v j ∧ offTester v = offTester e ∧ WordsFrom (n + k + 1) s v ∧
      (StrongProbablePrime e.mr.w.toNat (drawnBase s e.mr.w.toNat n k) → Decides (32 + k) u (v.roundPassed j)) ∧
      (¬ StrongProbablePrime e.mr.w.toNat (drawnBase s e.mr.w.toNat n k) → Decides (32 + k) u (v.verdict false)) := by
  rw [← number_of_atRound h] at hdrawn ⊢
  obtain ⟨b, hreach, hb⟩ := reaches_base h.testing h.seq h.words hdrawn
  have hfac : Factored (roundBase j k b u) j := factored_of_ipRound (u := u) h.testing h.seq
  obtain ⟨v, hv, hpass, hfail⟩ :=
    witnessDecides_round (testing_roundBase h.testing h.seq (hb ▸ drawnBase_bounds hdrawn) k) rfl
  have hbase : BasePasses (roundBase j k b u) ↔
      StrongProbablePrime u.mr.w.toNat (drawnBase s u.mr.w.toNat n k) := by rw [← hb]; exact Iff.rfl
  refine ⟨v, (eq_of_view hv (Factored · j)).mpr hfac, (eq_of_view hv offTester).trans h.frame,
    (eq_of_view hv source).trans (wordsFrom_roundBase h.words k b), fun hp => ?_, fun hp => ?_⟩
  · exact (hreach.decides (hpass (hbase.mpr hp))).mono (by omega)
  · exact (hreach.decides (hfail (mt hbase.mp hp))).mono (by omega)

/-- A passed round that is not the last leads to the next one (44 R180). -/
theorem reaches_nextRound {k : Nat} (hdrawn : BaseDrawn s e.mr.w.toNat n k)
    (hpass : StrongProbablePrime e.mr.w.toNat (drawnBase s e.mr.w.toNat n k)) (hj : j < e.checks.toNat) :
    ∃ v, AtRound s e (n + k + 1) (j + 1) v ∧ Reaches (32 + (k + 1)) u v := by
  obtain ⟨v, ⟨hentered, hfac, hm, _, _⟩, hf, hwords, hdecides, _⟩ := round_concludes h hdrawn
  have hchecks : v.checks = e.checks := eq_of_view hf State.checks
  have hd := hdecides hpass
  rw [← hchecks] at hj
  rw [State.roundPassed, if_pos hj] at hd
  have hnext : Factored v (j + 1) := ⟨hentered, hfac, hm, by omega, hj⟩
  have hfu : offTester v = offTester u := hf.trans h.frame.symm
  exact ⟨{ v with seq := .ipRound (j + 1) false }, ⟨testing_of_offTester h.testing hfu hnext, rfl, hf, hwords⟩,
    hd.reaches.mono (by omega)⟩

/-- Passed rounds lead to the round after them (44 R180). -/
theorem reaches_rounds {r n' : Nat} (hpassed : RoundsPassed s e.mr.w.toNat r n n') (hj : j + r ≤ e.checks.toNat) :
    ∃ v, AtRound s e n' (j + r) v ∧ Reaches (32 * r + (n' - n)) u v := by
  induction r generalizing j n u with
  | zero =>
    obtain rfl : n' = n := hpassed
    exact ⟨u, h, (Reaches.refl u).mono (Nat.zero_le _)⟩
  | succ r ih =>
    obtain ⟨k, hdrawn, hpass, hrest⟩ := hpassed
    obtain ⟨v, hv, hreach⟩ := reaches_nextRound h hdrawn hpass (by omega)
    obtain ⟨x, hx, hreach'⟩ := ih hv hrest (by omega)
    have hwords := roundsPassed_words hrest
    exact ⟨x, by rwa [show j + (r + 1) = j + 1 + r by omega], (hreach.trans hreach').mono (by omega)⟩

end

section
variable {s e u : State} {n n' : Nat} (h : AtRound s e n 1 u)
include h

/-- All rounds pass: the verdict Prime (44 R180). -/
theorem rounds_conclude_prime (hpassed : RoundsPassed s e.mr.w.toNat e.checks.toNat n n') (hchecks : e.checks ≠ 0) :
    Concludes s e n' (32 * e.checks.toNat + (n' - n)) u (State.verdict true) := by
  obtain ⟨c, hc⟩ := Nat.exists_eq_succ_of_ne_zero (toNat_pos hchecks).ne'
  rw [hc, roundsPassed_succ_iff] at hpassed
  obtain ⟨j1, k, hpassed, hdrawn, hpass, rfl⟩ := hpassed
  obtain ⟨v, hv, hreach⟩ := reaches_rounds h hpassed (by omega)
  obtain ⟨x, _, hf, hwords, hdecides, _⟩ := round_concludes hv hdrawn
  have hchecks : x.checks = e.checks := eq_of_view hf State.checks
  have hd := hdecides hpass
  rw [State.roundPassed, if_neg (by rw [hchecks]; omega)] at hd
  have hj1 := roundsPassed_words hpassed
  exact ⟨x, hf, hwords, (hreach.decides hd).mono (by omega)⟩

variable (hchecks : e.checks = s.checks)
include hchecks

/-- A round that fails after passed ones: the verdict Composite (44 R180). -/
theorem rounds_conclude_composite (hfails : RoundFails s e.mr.w.toNat n n') :
    Concludes s e n' (32 * e.checks.toNat + (n' - n)) u (State.verdict false) := by
  obtain ⟨r, hr, j1, k, hpassed, hdrawn, hfail, rfl⟩ := hfails
  rw [← hchecks] at hr
  obtain ⟨v, hv, hreach⟩ := reaches_rounds h hpassed (by omega)
  obtain ⟨x, _, hf, hwords, _, hdecides⟩ := round_concludes hv hdrawn
  have hj1 := roundsPassed_words hpassed
  exact ⟨x, hf, hwords, (hreach.decides (hdecides hfail)).mono (by omega)⟩

/-- A draw that exhausts after passed rounds: PrimalityInconclusive (44 R181). -/
theorem rounds_conclude_inconclusive (hexhausts : DrawExhausts s e.mr.w.toNat n n') :
    Concludes s e n' (32 * e.checks.toNat + (n' - n)) u (fun v => .next (v.raise .primalityInconclusive)) := by
  obtain ⟨r, hr, j1, hpassed, hrejected, rfl⟩ := hexhausts
  rw [← hchecks] at hr
  obtain ⟨v, hv, hreach⟩ := reaches_rounds h hpassed (by omega)
  rw [← number_of_atRound hv] at hrejected
  obtain ⟨x, hd, hf, hwords⟩ := decides_exhausted hv.testing hv.seq hv.words hrejected
  have hj1 := roundsPassed_words hpassed
  exact ⟨x, hf.trans hv.frame, hwords, (hreach.decides hd).mono (by omega)⟩

end

/-! ### From the pre-checks to the first round -/

section
variable {s e : State} (h : Testing e) (hseq : e.seq = .ipPre) (hchecks : e.checks ≠ 0)
  (h1 : 1 < e.mr.w.toNat) (hnone : ∀ p ∈ tablePrimes, ¬ p ∣ e.mr.w.toNat)
include h1 hnone

/-- A number above 1 that no table prime divides is odd and above 3. -/
theorem odd_of_no_tablePrime_dvd : e.mr.w.toNat % 2 = 1 ∧ 3 < e.mr.w.toNat := by
  have h2 := hnone 2 (mem_tablePrimes.mpr ⟨0, by decide, rfl⟩)
  have h3 := hnone 3 (mem_tablePrimes.mpr ⟨1, by decide, rfl⟩)
  have hthree : e.mr.w.toNat ≠ 3 := fun heq => h3 (heq ▸ dvd_rfl)
  rw [Nat.dvd_iff_mod_eq_zero] at h2
  omega

include h hseq hchecks

/-- Past the pre-checks and the trial divisions the factors of two come (44 R178, R179). -/
theorem reaches_factor : ∃ d, Reaches 65 e (trying e d 64) := by
  obtain ⟨hodd, h3⟩ := odd_of_no_tablePrime_dvd h1 hnone
  have hstep : seqStep e = .next (trying e e.div 0) := by
    have hpre : seqStep e = stepIpPre e := by simp only [seqStep, hseq]
    rw [hpre, stepIpPre_eq hchecks, if_neg (by omega), if_neg (by omega), if_neg (by omega)]
    rfl
  obtain ⟨d, hreach⟩ := reaches_trying h.table h.busy le_rfl (forall_tablePrimes.mp hnone) e.div
  exact ⟨d, ((reaches_of_seqStep h.busy hstep).trans hreach).mono (by decide)⟩

/-- A number above 1 that no table prime divides enters Miller-Rabin in 66 transitions, without a word (44 R186). -/
theorem reaches_firstRound {n : Nat} (hwords : WordsFrom n s e) :
    ∃ u, AtRound s e n 1 u ∧ Reaches 66 e u := by
  obtain ⟨hodd, h3⟩ := odd_of_no_tablePrime_dvd h1 hnone
  obtain ⟨d, hreach⟩ := reaches_factor h hseq hchecks h1 hnone
  have hstep : seqStep (trying e d 64) = stepIpFactor (trying e d 64) := rfl
  obtain ⟨hfac, hm⟩ := factorTwos_spec e.mr.w (by omega)
  refine ⟨_, ?_, hreach.trans (reaches_of_seqStep (s := trying e d 64) h.busy hstep)⟩
  exact ⟨testing_of_offTester h rfl ⟨⟨hodd, h3, hchecks, hnone⟩, hfac, hm, le_rfl, toNat_pos hchecks⟩, rfl, rfl, hwords⟩

end

end Sys2Proof.Proofs

/-! ISPRIME (44 R175 to R186): its outcome on the words that the source gives, its end within a bounded turn, and the
soundness of every verdict, transition by transition. -/

namespace Sys2Proof.Proofs

open Sys2Proof.Machine Sys2Proof.Safety Sys2Proof.Laws

/-! ### ISPRIME -/

theorem exec_isprime {s : State} (h : Ready s) : exec .isprime s = engineTurn (loopEntry .isprime s) := by
  rcases exec_loop s (i := .isprime) (.inr (.inl rfl)) with ⟨hr, _⟩ | ⟨_, e⟩
  · exact absurd h hr
  · exact e

/-- ISPRIME ends as a transition within its turn does. -/
theorem exec_isprime_of_decides {s t : State} {n : Nat} (h : Ready s)
    (hd : Decides n (loopEntry .isprime s) (.next t)) (hidle : t.busy = false) (hn : n ≤ s.pace) :
    exec .isprime s = .next t := by
  rw [exec_isprime h]
  exact engineTurn_of_reaches hd.reaches hidle (Nat.succ_le_succ hn)

/-- Settles O33: the pre-checks and the first table prime that divides give an exact verdict. -/
theorem isprimeSettlesByTrialDivision : Obligations.IsprimeSettlesByTrialDivision := by
  rintro s ⟨hready, hsp⟩ hchecks hpace hw
  obtain ⟨d, q, prime, hdecides, hprime⟩ :=
    decides_settled (s := loopEntry .isprime s) hsp rfl hchecks rfl hw
  rw [verdict_isprime rfl] at hdecides
  refine ⟨d, (loopEntry .isprime s).mr, ?_⟩
  rw [exec_isprime_of_decides hready hdecides rfl hpace]
  simp only [hprime]
  rfl

/-- What the tester does not write, and the words taken, say all of its state but the working registers. -/
theorem eq_afterCalls_of_frame {s e u : State} {n : Nat} (hf : offTester u = offTester e) (he : source e = source s)
    (hwords : WordsFrom n s u) :
    u = { afterCalls e (3 * n) with seq := u.seq, draw := u.draw, div := u.div, exp := u.exp, mr := u.mr } := by
  have hin : u.rngIn = e.rngIn.drop (3 * n) :=
    (eq_of_view hwords State.rngIn).trans (congrArg (List.drop (3 * n)) (eq_of_view he State.rngIn).symm)
  have hcalls : u.rngCalls = e.rngCalls + 3 * n :=
    (eq_of_view hwords State.rngCalls).trans (congrArg (· + 3 * n) (eq_of_view he State.rngCalls).symm)
  calc u = { offTester u with
      seq := u.seq, draw := u.draw, div := u.div, exp := u.exp, mr := u.mr
      rngIn := u.rngIn, rngCalls := u.rngCalls } := rfl
    _ = { offTester e with
      seq := u.seq, draw := u.draw, div := u.div, exp := u.exp, mr := u.mr
      rngIn := e.rngIn.drop (3 * n), rngCalls := e.rngCalls + 3 * n } := by rw [hf, hin, hcalls]
    _ = _ := rfl

section
variable {s : State} (hready : ReadyTables s) (hchecks : s.checks ≠ 0) (h1 : 1 < s.xl.toNat)
  (hnone : ∀ p ∈ tablePrimes, ¬ p ∣ s.xl.toNat)
include hready hchecks h1 hnone

theorem isprime_reaches_firstRound :
    ∃ u, AtRound s (loopEntry .isprime s) 0 1 u ∧ Reaches 66 (loopEntry .isprime s) u :=
  reaches_firstRound (e := loopEntry .isprime s) ⟨rfl, hready.2, .inl rfl, trivial⟩ rfl hchecks h1 hnone rfl

omit hchecks h1 hnone in
/-- ISPRIME ends as its rounds do, when its turn is long enough; only working registers are open. -/
theorem exec_isprime_of_concludes {u : State} {n : Nat} {o : State → Out}
    (hpace : 66 + 32 * s.checks.toNat + n ≤ s.pace) (hreach : Reaches 66 (loopEntry .isprime s) u)
    (hc : Concludes s (loopEntry .isprime s) n (32 * s.checks.toNat + n) u o) {t : State → State}
    (ho : ∀ v, v.running = some .isprime → o v = .next (t v)) (hidle : ∀ v, (t v).busy = false) :
    ∃ d e dw mw q, exec .isprime s = .next (t { afterCalls (loopEntry .isprime s) (3 * n) with
      seq := q, draw := dw, div := d, exp := e, mr := mw }) := by
  obtain ⟨v, hf, hwords, hdecides⟩ := hc
  rw [ho v (eq_of_view hf State.running)] at hdecides
  refine ⟨v.div, v.exp, v.draw, v.mr, v.seq, ?_⟩
  rw [← eq_afterCalls_of_frame hf rfl hwords]
  exact exec_isprime_of_decides hready.1 (hreach.decides hdecides) (hidle v) (by omega)

variable {n : Nat} (hpace : 66 + 32 * s.checks.toNat + n ≤ s.pace)
include hpace

theorem exec_isprime_passed (hpassed : RoundsPassed s s.xl.toNat s.checks.toNat 0 n) :
    ∃ d e dw mw, exec .isprime s = .next { afterCalls (ended s 0 1 0 0 false) (3 * n) with
      div := d, exp := e, draw := dw, mr := mw } := by
  obtain ⟨u, hu, hreach⟩ := isprime_reaches_firstRound hready hchecks h1 hnone
  have hc := rounds_conclude_prime hu hpassed hchecks
  obtain ⟨d, e, dw, mw, _, hexec⟩ :=
    exec_isprime_of_concludes hready hpace hreach hc (fun v hr => verdict_isprime hr) fun _ => rfl
  exact ⟨d, e, dw, mw, hexec⟩

theorem exec_isprime_failed (hfails : RoundFails s s.xl.toNat 0 n) :
    ∃ d e dw mw, exec .isprime s = .next { afterCalls (ended s 0 0 0 0 false) (3 * n) with
      div := d, exp := e, draw := dw, mr := mw } := by
  obtain ⟨u, hu, hreach⟩ := isprime_reaches_firstRound hready hchecks h1 hnone
  have hc := rounds_conclude_composite hu rfl hfails
  obtain ⟨d, e, dw, mw, _, hexec⟩ :=
    exec_isprime_of_concludes hready hpace hreach hc (fun v hr => verdict_isprime hr) fun _ => rfl
  exact ⟨d, e, dw, mw, hexec⟩

theorem exec_isprime_exhausted (hexhausts : DrawExhausts s s.xl.toNat 0 n) :
    ∃ d e dw mw, exec .isprime s = .next { afterCalls (failed s 5) (3 * n) with
      div := d, exp := e, draw := dw, mr := mw } := by
  obtain ⟨u, hu, hreach⟩ := isprime_reaches_firstRound hready hchecks h1 hnone
  have hc := rounds_conclude_inconclusive hu rfl hexhausts
  obtain ⟨d, e, dw, mw, _, hexec⟩ :=
    exec_isprime_of_concludes hready hpace hreach hc (fun v _ => rfl) fun _ => rfl
  exact ⟨d, e, dw, mw, hexec⟩

end

/-- Settles O26: from the first round on, the rounds conclude as the words of the source have it, in the turn. -/
theorem isprimeGivesTheOutcomeOfItsRounds : Obligations.IsprimeGivesTheOutcomeOfItsRounds := by
  intro s hready hchecks h1 hnone
  exact ⟨rounds_cases s s.xl.toNat 0 le_rfl, fun n hpace =>
    ⟨exec_isprime_passed hready hchecks h1 hnone hpace, exec_isprime_failed hready hchecks h1 hnone hpace,
      exec_isprime_exhausted hready hchecks h1 hnone hpace⟩⟩

/-- An end of ISPRIME without error rules out that a draw exhausts, for then it ends otherwise. -/
theorem not_drawExhausts_of_err_zero {s t : State} (hready : ReadyTables s) (hchecks : s.checks ≠ 0)
    (h1 : 1 < s.xl.toNat) (hnone : ∀ p ∈ tablePrimes, ¬ p ∣ s.xl.toNat) (hpace : 65 + 133 * s.checks.toNat ≤ s.pace)
    (hexec : exec .isprime s = .next t) (herr : t.err = 0) : ¬ ∃ n, DrawExhausts s s.xl.toNat 0 n := by
  rintro ⟨n, hexhausts⟩
  have hpos := toNat_pos hchecks
  have hn := rounds_words (.inr (.inr hexhausts))
  obtain ⟨_, _, _, _, hexec'⟩ := exec_isprime_exhausted hready hchecks h1 hnone (by omega) hexhausts
  cases hexec.symm.trans hexec'
  simp at herr

/-- Settles O34: a number that trial division does not settle has at most 100 words a round, so the turn reaches the
rounds' outcome; the outcomes exclude each other, as ISPRIME has one end. -/
theorem isprimeAlwaysEnds : Obligations.IsprimeAlwaysEnds := by
  intro s hready hchecks hpace
  have hpos := toNat_pos hchecks
  by_cases hsettled : s.xl.toNat ≤ 1 ∨ ∃ p ∈ tablePrimes, p ∣ s.xl.toNat
  · obtain ⟨d, w, hexec⟩ := isprimeSettlesByTrialDivision s hready hchecks (by omega) hsettled
    refine ⟨_, hexec, rfl, rfl, .inl ⟨rfl, (ite_eq_or_eq _ _ _).symm⟩, ?_, rfl, rfl, rfl, rfl⟩
    refine ⟨fun herr => absurd herr (by simp), fun ⟨h1, hnone, _⟩ => ?_⟩
    rcases hsettled with hsmall | ⟨p, hp, hdvd⟩
    · omega
    · exact absurd hdvd (hnone p hp)
  · obtain ⟨hsmall, hdvd⟩ := not_or.mp hsettled
    have h1 : 1 < s.xl.toNat := by omega
    have hnone : ∀ p ∈ tablePrimes, ¬ p ∣ s.xl.toNat := fun p hp hd => hdvd ⟨p, hp, hd⟩
    have noError {t : State} (hexec : exec .isprime s = .next t) (herr : t.err = 0) : t.err = 5 ↔
        1 < s.xl.toNat ∧ (∀ p ∈ tablePrimes, ¬ p ∣ s.xl.toNat) ∧ ∃ n, DrawExhausts s s.xl.toNat 0 n :=
      ⟨fun hfive => absurd (herr.symm.trans hfive) (by decide), fun ⟨_, _, hexhausts⟩ =>
        absurd hexhausts (not_drawExhausts_of_err_zero hready hchecks h1 hnone hpace hexec herr)⟩
    obtain ⟨n, hcases⟩ := rounds_cases s s.xl.toNat 0 le_rfl
    have hn := rounds_words hcases
    rcases hcases with hpassed | hfails | hexhausts
    · obtain ⟨d, e, dw, mw, hexec⟩ := exec_isprime_passed hready hchecks h1 hnone (by omega) hpassed
      exact ⟨_, hexec, rfl, rfl, .inl ⟨rfl, .inr rfl⟩, noError hexec rfl, rfl, rfl, rfl, rfl⟩
    · obtain ⟨d, e, dw, mw, hexec⟩ := exec_isprime_failed hready hchecks h1 hnone (by omega) hfails
      exact ⟨_, hexec, rfl, rfl, .inl ⟨rfl, .inl rfl⟩, noError hexec rfl, rfl, rfl, rfl, rfl⟩
    · obtain ⟨d, e, dw, mw, hexec⟩ := exec_isprime_exhausted hready hchecks h1 hnone (by omega) hexhausts
      exact ⟨_, hexec, rfl, rfl, .inr ⟨rfl, rfl⟩, ⟨fun _ => ⟨h1, hnone, n, hexhausts⟩, fun _ => rfl⟩,
        rfl, rfl, rfl, rfl⟩

/-! ### The verdicts of ISPRIME -/

/-- A verdict on `w` is sound: no prime is called Composite, and below `312^2` no composite is called Prime (44 R184,
R185). -/
def Sound (w : Nat) (prime : Bool) : Prop :=
  (Nat.Prime w → prime = true) ∧ (w < 97344 → prime = true → Nat.Prime w)

theorem sound_of_iff {w : Nat} {prime : Bool} (h : prime = true ↔ Nat.Prime w) : Sound w prime :=
  ⟨h.mpr, fun _ => h.mp⟩

/-- ISPRIME has not ended in `t` without error, or PL is a sound verdict on `w`. -/
def Judged (w : Nat) (t : State) : Prop :=
  t.busy = false → t.err = 0 → ∃ prime, Sound w prime ∧ t.pl = if prime then 1 else 0

theorem judged_of_busy {w : Nat} {t : State} (h : t.busy = true) : Judged w t := fun hidle => by simp [h] at hidle

theorem judged_raise {w : Nat} {t : State} {e : ErrKind} : Judged w (t.raise e) := fun _ herr => by
  cases e <;> simp [ErrKind.code] at herr

section
variable {s u : State} {w : Nat}

theorem verdict_judged {prime : Bool} (hr : u.running = some .isprime) (h : Sound w prime) :
    Always (Judged w) (u.verdict prime) := by
  rw [verdict_isprime hr]
  exact always_next.mpr fun _ _ => ⟨prime, h, rfl⟩

/-- Miller-Rabin's verdict Prime is sound, since below `312^2` trial division has been exact (44 R185). -/
theorem sound_prime (h : Entered s) : Sound s.mr.w.toNat true := by
  obtain ⟨_, h3, _, hnone⟩ := h
  exact ⟨fun _ => rfl, fun hlt _ => prime_of_no_tablePrime_dvd (by omega) hlt hnone⟩

/-- Miller-Rabin's verdict Composite is sound, since a prime passes every test (44 R184). -/
theorem sound_composite (h : Entered s) (hb : BaseOk s) (hfail : ¬ BasePasses s) : Sound s.mr.w.toNat false := by
  obtain ⟨hodd, h3, _, _⟩ := h
  obtain ⟨hb2, hbw⟩ := hb
  exact ⟨fun hp => absurd (strong_of_prime hp hodd (by omega) (by omega)) hfail, fun _ h => by cases h⟩

theorem stepIpPre_judged (hb : s.busy = true) (hr : s.running = some .isprime) :
    Always (Judged s.mr.w.toNat) (stepIpPre s) := by
  by_cases hchecks : s.checks = 0
  · rw [stepIpPre, if_pos hchecks]
    exact always_next.mpr judged_raise
  rcases stepIpPre_cases hchecks with ⟨prime, hprime, e⟩ | ⟨_, e⟩ <;> rw [e]
  · exact verdict_judged hr (sound_of_iff hprime)
  · exact always_next.mpr (judged_of_busy hb)

theorem stepIpTrial_judged (hb : s.busy = true) (hr : s.running = some .isprime) (hsp : s.sp = smallPrimes) {i : Nat}
    (hi : i < 64) : Always (Judged s.mr.w.toNat) (stepIpTrial i s) := by
  obtain ⟨d, e⟩ := stepIpTrial_eq hsp hi
  rw [e]
  split_ifs with hdvd hlast
  · have hexact : decide (s.mr.w.toNat = tablePrime i) = true ↔ Nat.Prime s.mr.w.toNat := by
      rw [decide_eq_true_eq, prime_iff_eq_tablePrime hi hdvd]
    exact verdict_judged (u := { s with div := d }) hr (sound_of_iff hexact)
  · exact always_next.mpr (judged_of_busy hb)
  · exact always_next.mpr (judged_of_busy hb)

theorem stepRrTry_judged (hb : s.busy = true) (htests : Tests s) (k : Nat) : Always (Judged w) (stepRrTry k s) := by
  have htests' : Tests (afterCalls s 3) := htests
  rcases stepRrTry_cases k s with ⟨v, _, e⟩ | ⟨_, e⟩ | e <;> rw [e]
  · rw [drawAccepted_tests htests']
    exact always_next.mpr (judged_of_busy hb)
  · exact always_next.mpr (judged_of_busy hb)
  · rw [drawExhausted_tests htests']
    exact always_next.mpr judged_raise

theorem stepIpDraw_judged (hb : s.busy = true) (j : Nat) : Always (Judged w) (stepIpDraw j s) := by
  rw [stepIpDraw]
  rcases beginDraw_cases { s with mr := { s.mr with round := j } } (s.mr.w - 3) with ⟨_, e⟩ | ⟨_, e⟩ <;> rw [e]
  · exact always_next.mpr judged_raise
  · exact always_next.mpr (judged_of_busy hb)

theorem roundPassed_judged (hb : u.busy = true) (hr : u.running = some .isprime) (h : Sound w true) (j : Nat) :
    Always (Judged w) (u.roundPassed j) := by
  unfold State.roundPassed
  split_ifs
  · exact always_next.mpr (judged_of_busy hb)
  · exact verdict_judged hr h

/-- What the witness test of a round decides is sound. -/
theorem witnessNext_judged (hb : s.busy = true) (hr : s.running = some .isprime) (hentered : Entered s)
    (hbase : BaseOk s) {j t : Nat} {o : Out} (h : WitnessNext j t s o) : Always (Judged s.mr.w.toNat) o := by
  obtain ⟨u, hu, ⟨_, rfl⟩ | ⟨hfail, rfl⟩ | ⟨_, _, rfl⟩⟩ := h
  all_goals
    have hbu := (eq_of_view hu State.busy).trans hb
    have hru := (eq_of_view hu State.running).trans hr
  · exact roundPassed_judged hbu hru (sound_prime hentered) j
  · exact verdict_judged hru (sound_composite hentered hbase hfail)
  · exact always_next.mpr (judged_of_busy hbu)

/-- A transition of ISPRIME that ends it without error gives a sound verdict. -/
theorem seqStep_judged (h : Testing s) (hr : s.running = some .isprime) :
    Always (Judged s.mr.w.toNat) (seqStep s) := by
  have hb := h.busy
  have hok := h.ok
  unfold TesterOk at hok
  unfold seqStep
  split at hok
  next hs => simp only [hs]; exact stepIpPre_judged hb hr
  next i hs => simp only [hs]; exact stepIpTrial_judged hb hr h.table hok.1
  next hs => simp only [hs]; exact always_next.mpr (judged_of_busy hb)
  next j hs => simp only [hs]; exact stepIpDraw_judged hb j
  next k hs => simp only [hs]; exact stepRrTry_judged hb h.tests k
  next j hs =>
    obtain ⟨hfac, hbase⟩ := hok
    simp only [hs]
    exact witnessNext_judged hb hr hfac.1 hbase (stepIpPower_witness hfac)
  next j t hs =>
    obtain ⟨hfac, hbase, _⟩ := hok
    simp only [hs]
    exact witnessNext_judged hb hr hfac.1 hbase (stepIpSquare_witness hs h.ok)
  next => exact hok.elim

end

/-- ISPRIME on `w` runs in the tester, or has ended with a sound verdict or an error. -/
def IsprimeOn (w : Nat) (t : State) : Prop :=
  (t.busy = true → Testing t ∧ t.running = some .isprime ∧ t.mr.w.toNat = w) ∧ Judged w t

theorem isprimeOn_of_testing {w : Nat} {t : State} (h : Testing t) (hr : t.running = some .isprime)
    (hw : t.mr.w.toNat = w) : IsprimeOn w t := ⟨fun _ => ⟨h, hr, hw⟩, judged_of_busy h.busy⟩

theorem seqStep_isprimeOn {w : Nat} {s : State} (h : IsprimeOn w s) (hb : s.busy = true) :
    Always (IsprimeOn w) (seqStep s) := by
  obtain ⟨htest, hr, rfl⟩ := h.1 hb
  intro t ht
  refine ⟨fun hbt => ?_, seqStep_judged htest hr t ht⟩
  obtain ⟨v, hv, ⟨e, hok⟩ | ⟨prime, e⟩ | ⟨k, _, e⟩⟩ := seqStep_tester htest.table htest.tests htest.ok
  · cases ht.symm.trans e
    exact ⟨testing_of_offTester htest hv hok, (eq_of_view hv State.running).trans hr, eq_of_view hv (·.mr.w.toNat)⟩
  · rw [verdict_isprime ((eq_of_view hv State.running).trans hr)] at e
    cases ht.symm.trans e
    cases hbt
  · cases ht.symm.trans e
    cases hbt

theorem engineTurn_judged {w : Nat} {s : State} (h : IsprimeOn w s) : Always (Judged w) (engineTurn s) := fun t ht =>
  (always_runSeq (fun _ hu hb => seqStep_isprimeOn hu hb) h _ t ht).2

theorem exec_isprime_judged {s : State} (h : ReadyTables s) : Always (Judged s.xl.toNat) (exec .isprime s) := by
  rw [exec_isprime h.1]
  exact engineTurn_judged (isprimeOn_of_testing ⟨rfl, h.2, .inl rfl, trivial⟩ rfl rfl)

/-- While a command runs, a step without the reset input is the engine's turn, whatever the host does (20 R57). -/
theorem step_busy {s : State} (hb : s.busy = true) (hreset : NoReset s) :
    ∃ q out n, step s = engineTurn { s with hostQueue := q, hostOut := out, freeReads := n } := by
  unfold step
  cases hq : s.hostQueue with
  | nil => exact ⟨s.hostQueue, s.hostOut, s.freeReads, rfl⟩
  | cons a rest =>
    cases a with
    | write idx v => exact ⟨rest, s.hostOut, s.freeReads, hostWrite_busy (s := { s with hostQueue := rest }) hb idx v⟩
    | read idx =>
      obtain ⟨f, n, e⟩ := hostRead_busy (s := { s with hostQueue := rest }) hb idx
      exact ⟨rest, _, n, e⟩
    | wait => exact ⟨.wait :: rest, s.hostOut, s.freeReads, by simp [hostTurn, hostWait, hb]⟩
    | pass => exact ⟨rest, s.hostOut, s.freeReads, rfl⟩
    | reset => simp [NoReset, hq] at hreset

theorem step_isprime_judged {s : State} (h : Inv s) (hb : s.busy = true) (hr : s.running = some .isprime)
    (hreset : NoReset s) : Always (Judged s.xl.toNat) (step s) := by
  obtain ⟨q, out, n, e⟩ := step_busy hb hreset
  obtain ⟨_, ⟨hisp, _⟩, _, hrun⟩ := h.busy hb
  obtain ⟨hok, _, hw⟩ := (runningOk_isprime hr).mp hrun
  rw [e]
  exact engineTurn_judged (isprimeOn_of_testing ⟨hb, h.spContent hisp, .inl hr, hok⟩ hr (congrArg BitVec.toNat hw))

/-- Settles O35: the only verdicts on a prime are Prime, transition by transition. -/
theorem isprimeNeverCallsAPrimeComposite : Obligations.IsprimeNeverCallsAPrimeComposite := by
  intro s t hp hidle herr
  have verdict (h : Judged s.xl.toNat t) : t.pl = 1 := by
    obtain ⟨prime, hsound, hpl⟩ := h hidle herr
    rw [hpl, hsound.1 hp, if_pos rfl]
  exact ⟨fun hready ht => verdict (exec_isprime_judged hready t ht),
    fun hinv hb hr hreset ht => verdict (step_isprime_judged hinv hb hr hreset t ht)⟩

/-- Settles O36: below `312^2` a sound verdict is an exact one. -/
theorem isprimeIsExactBelow97344 : Obligations.IsprimeIsExactBelow97344 := by
  intro s t hlt hidle herr hends
  have hjudged : Judged s.xl.toNat t := by
    rcases hends with ⟨hready, ht⟩ | ⟨hinv, hb, hr, hreset, ht⟩
    · exact exec_isprime_judged hready t ht
    · exact step_isprime_judged hinv hb hr hreset t ht
  obtain ⟨prime, ⟨hcomplete, hexact⟩, hpl⟩ := hjudged hidle herr
  have hprime : prime = true ↔ Nat.Prime s.xl.toNat := ⟨hexact hlt, hcomplete⟩
  rw [← hprime, hpl]
  cases prime <;> decide

end Sys2Proof.Proofs

/-! The search of the prime generator (45 R201 to R213): its transitions as equations on numbers, and the requests that
PG_CHECK refuses. -/

namespace Sys2Proof.Proofs

open Sys2Proof.Machine Sys2Proof.Safety Sys2Proof.Laws

/-! ### The generators' first transition -/

/-- The generators begin at PG_CHECK (45 R213). -/
theorem exec_search {s : State} {i : Instr} (h : Ready s) (hi : IsSearch i) :
    exec i s = engineTurn { s.start i with seq := .pgCheck } := by
  obtain ⟨hr, _⟩ | ⟨_, e⟩ := exec_loop s (.inr (.inr hi))
  · exact absurd h hr
  · rw [e]
    obtain ⟨safe, rfl | rfl | rfl⟩ := hi <;> rfl

/-- Where a permitted request goes from PG_CHECK (45 R213, R218). -/
def afterCheck : Instr → Seq
  | .genprime _ => .gpCall
  | _ => .pgAgain

section
variable {i : Instr} {s : State} (hi : IsSearch i) (hr : s.running = some i)
include hi hr

/-- PG_CHECK (45 R202, R203, R211, R215): the preconditions together are `RequestOk`. -/
theorem stepPgCheck_cases :
    (RequestOk i s ∧ stepPgCheck s = .next { s with seq := afterCheck i }) ∨
    (¬ RequestOk i s ∧ stepPgCheck s = .next (s.raise .invalidParameter)) := by
  rw [stepPgCheck, inSearch_of_running hi hr]
  have hbits : badBits s.bits (safeFlag i) = true ↔ ¬ BitsOk s.xl.toNat (safeFlag i) := badBits_iff _ _
  by_cases hbad : badBits s.bits (safeFlag i) = true
  · rw [if_pos hbad]
    exact .inr ⟨fun h => hbits.mp hbad h.1, rfl⟩
  rw [if_neg hbad]
  have hok : BitsOk s.xl.toNat (safeFlag i) := not_not.mp fun h => hbad (hbits.mpr h)
  obtain ⟨safe, rfl | rfl | rfl⟩ := hi <;> simp only [hr]
  · exact .inl ⟨⟨hok, by simp, by simp⟩, rfl⟩
  · split_ifs with hadd
    · exact .inr ⟨fun h => h.2.1 ⟨safe, rfl⟩ hadd, rfl⟩
    · exact .inl ⟨⟨hok, fun _ => hadd, by simp⟩, rfl⟩
  · split_ifs with hchecks
    · exact .inr ⟨fun h => h.2.2 ⟨safe, rfl⟩ hchecks, rfl⟩
    · exact .inl ⟨⟨hok, by simp, fun _ => hchecks⟩, rfl⟩

end

/-- A request that is not permitted is refused before any word is drawn (60 R275). -/
theorem exec_search_refused {s : State} {i : Instr} (h : Ready s) (hi : IsSearch i) (hbad : ¬ RequestOk i s) :
    exec i s = .next (failed s 1) := by
  obtain ⟨hok, _⟩ | ⟨_, e⟩ := stepPgCheck_cases (s := { s.start i with seq := .pgCheck }) hi rfl
  · exact absurd hok hbad
  · rw [exec_search h hi]
    exact engineTurn_of_reaches (reaches_of_seqStep rfl e) rfl (Nat.succ_le_succ (Nat.zero_le _))

/-- ISPRIME tests CHECKS first (44 R176). -/
theorem exec_isprime_refused {s : State} (h : Ready s) (hchecks : s.checks = 0) :
    ∃ w, exec .isprime s = .next { failed s 1 with mr := w } := by
  have hstep : seqStep (loopEntry .isprime s) = .next ((loopEntry .isprime s).raise .invalidParameter) :=
    if_pos hchecks
  refine ⟨(loopEntry .isprime s).mr, ?_⟩
  rw [exec_isprime_of_decides h (hstep ▸ decides_seqStep rfl 0) rfl (Nat.zero_le _)]
  rfl

/-- Settles O41: in each case a precondition of PG_CHECK, or IP_PRE's on CHECKS, does not hold. -/
theorem badRequestsAreRefused : Obligations.BadRequestsAreRefused := by
  intro s safe hready
  have refused {i : Instr} (hi : IsSearch i) (hbad : ¬ RequestOk i s) : exec i s = .next (failed s 1) :=
    exec_search_refused hready hi hbad
  refine ⟨fun hbits => ⟨?_, ?_, ?_⟩, fun hadd => ?_, fun hchecks => ?_, exec_isprime_refused hready⟩
  · exact refused ⟨safe, .inl rfl⟩ fun h => hbits h.1
  · exact refused ⟨safe, .inr (.inl rfl)⟩ fun h => hbits h.1
  · exact refused ⟨safe, .inr (.inr rfl)⟩ fun h => hbits h.1
  · exact refused ⟨safe, .inr (.inl rfl)⟩ fun h => h.2.1 ⟨safe, rfl⟩ hadd
  · exact refused ⟨safe, .inr (.inr rfl)⟩ fun h => h.2.2 ⟨safe, rfl⟩ hchecks

/-! ### The transitions of the search -/

/-- The generator `i` searches, its request permitted and the table filled (45 R213). -/
structure Searches (i : Instr) (s : State) : Prop where
  search : IsSearch i
  busy : s.busy = true
  running : s.running = some i
  table : s.sp = smallPrimes
  request : RequestOk i s

/-- The search goes on where only what it may write has changed. -/
theorem searches_of_offSearch {i : Instr} {s u : State} (h : Searches i s) (hf : offSearch u = offSearch s) :
    Searches i u :=
  ⟨h.search, (eq_of_view hf State.busy).trans h.busy, (eq_of_view hf State.running).trans h.running,
    (eq_of_view hf State.sp).trans h.table, (eq_of_view hf (RequestOk i)).mpr h.request⟩

/-- The sieve's registers hold the candidate `c` and its residues (45 R206, R208). -/
structure Sieves (c : Nat) (s : State) : Prop where
  cand : s.cand.toNat = c
  exact : s.cand.toNat < 2 ^ 34
  residues : s.mods.map BitVec.toNat = tablePrimes.map (c % ·)

theorem Sieves.value {c : Nat} {s : State} (h : Sieves c s) : s.sieved.toNat = c + s.delta.toNat := by
  rw [sieved_toNat h.exact, h.cand]

theorem bumpStep_eq (s : State) (safe : Bool) : (s.bumpStep safe).toNat = searchStep s safe s.constrained := by
  unfold State.bumpStep searchStep
  cases s.constrained <;> cases safe <;> rfl

section
variable {i : Instr} {s : State} (h : Searches i s)
include h

theorem inSearch_of_searches (body : Bool → Out) : s.inSearch body = body (safeFlag i) :=
  inSearch_of_running h.search h.running body

/-- In a class search ADD is not 0, so the divider can move the draw (45 R205, R211). -/
theorem add_ne_zero_of_constrained (hc : s.constrained = true) : s.add ≠ 0 := by
  rcases (constrained_iff h.search h.running).mp hc with hdh | ⟨_, hne⟩
  · exact h.request.2.1 hdh
  · exact hne

/-- PG_AGAIN sieves from the value that the next composed word gives (45 R204, R205). -/
theorem stepPgAgain_eq :
    ∃ (d : DivWork) (c : Word64),
      stepPgAgain s = .next { afterCalls s 3 with div := d, cand := c, seq := .pgResidue } ∧
      c.toNat = firstValue s (safeFlag i) s.constrained 0 ∧ c.toNat < 2 ^ 34 := by
  obtain ⟨⟨_, hbits, _⟩, _⟩ := h.request
  obtain ⟨hvalue, hport⟩ := randBits_spec s s.bits (hbits.trans (by decide))
  have hforced : (forceBits s.bits (safeFlag i) (s.randBits s.bits).1).toNat = _ := forceBits_toNat hbits _ _
  have hlt := hforced.trans_lt (forced_lt hbits (BitVec.isLt _) _)
  have hc0 := hforced.trans (congrArg _ hvalue)
  rw [stepPgAgain, inSearch_of_searches h]
  dsimp only
  rw [hport]
  generalize forceBits s.bits (safeFlag i) (s.randBits s.bits).1 = c at *
  by_cases hcls : s.constrained = true
  · have ha := zext64_ne_zero (add_ne_zero_of_constrained h hcls)
    have hrem := s.rem.isLt
    have hmove := moved_toNat (r := zext64 s.rem) hlt (remainder_toNat c _ ha) (by rwa [zext64_toNat])
    rw [zext64_toNat, zext64_toNat] at hmove
    rw [if_pos hcls, divide_of_ne ha]
    refine ⟨_, _, rfl, hmove.trans ?_, hmove.trans_lt (by omega)⟩
    simp only [firstValue, hcls, if_true]
    rw [hc0]
    rfl
  · rw [if_neg hcls]
    refine ⟨s.div, c, rfl, ?_, hlt.trans (show 2 ^ 32 < 2 ^ 34 by decide)⟩
    simp only [firstValue, hcls]
    exact hc0

/-- PG_RESIDUE fills the residues of the candidate (45 R208). -/
theorem stepPgResidue_eq (hc : s.cand.toNat < 2 ^ 34) :
    ∃ ms, stepPgResidue s = .next { s with mods := ms, delta := 0, seq := .pgLoop } ∧
      Sieves s.cand.toNat { s with mods := ms, delta := 0, seq := .pgLoop } := by
  obtain ⟨ms, hms, _, hmap⟩ := residues_table s.cand
  rw [← h.table] at hms
  refine ⟨ms, ?_, rfl, hc, hmap⟩
  rw [stepPgResidue, inSearch_of_searches h, hms]

theorem stepPgLoop_eq : stepPgLoop s = .next { s with seq := .pgSieve 0 } := by
  rw [stepPgLoop, inSearch_of_searches h]

/-- PG_SIEVE(n), the entries before having cleared the value: the test is the rule's (45 R207, R208). -/
theorem stepPgSieve_eq {c n : Nat} (hs : Sieves c s) (hn : n < 64)
    (hnone : ∀ j < n, ¬ Hits s.params.selfExempt (safeFlag i) (tablePrime j) (c + s.delta.toNat)) :
    ∃ d, stepPgSieve n s =
      if Hits s.params.selfExempt (safeFlag i) (tablePrime n) (c + s.delta.toNat) then
        .next { s with div := d, seq := .pgBump }
      else if n < 63 then .next { s with div := d, seq := .pgSieve (n + 1) }
      else .next { s with div := d, seq := .pgFinal } := by
  have hp := zextSmall_prime_ne_zero h.table hn
  have hprime := zextSmall_prime_toNat h.table n
  have hres := sieve_residue (delta := s.delta) hp (by rw [hprime]; exact getD_mods hn hs.residues)
  rw [← hs.value] at hres
  have htest := sieveHits_iff (exempt := s.params.selfExempt) (safe := safeFlag i) hn hprime hres
    fun h0 => by rw [hs.value]; exact hnone 0 (Nat.pos_of_ne_zero h0)
  rw [hs.value] at htest
  refine ⟨divRem64 (zextSmall (s.mods.getD n 0) + zext64 s.delta) (zextSmall (s.prime n)) hp, ?_⟩
  rw [stepPgSieve, inSearch_of_searches h, divide_of_ne hp]
  exact if_congr htest rfl rfl

/-- PG_BUMP (45 R209). -/
theorem stepPgBump_eq :
    stepPgBump s =
      if s.params.maxDelta.toNat < s.delta.toNat + searchStep s (safeFlag i) s.constrained then
        .next { s with seq := .pgAgain }
      else .next { s with delta := s.delta + s.bumpStep (safeFlag i), seq := .pgLoop } := by
  rw [stepPgBump, inSearch_of_searches h, bumpStep_eq]

/-- PG_FINAL on a value of another length (45 R212). -/
theorem stepPgFinal_again (hsize : Nat.size s.sieved.toNat ≠ s.xl.toNat) :
    stepPgFinal s = .next { s with cand := s.sieved, seq := .pgAgain } := by
  rw [← bitLen_eq_size] at hsize
  rw [stepPgFinal, inSearch_of_searches h]
  exact if_pos hsize

/-- PG_FINAL on a value of the length asked for (45 R212): the generator ends with it, or GENPRIME verifies it. -/
theorem stepPgFinal_found (hsize : Nat.size s.sieved.toNat = s.xl.toNat) :
    stepPgFinal s = if ∃ safe, i = .genprime safe then .next { s with cand := s.sieved, seq := .gpVerifyP }
      else .next (State.finish32 (loLimb s.sieved) { s with cand := s.sieved }) := by
  rw [← bitLen_eq_size] at hsize
  rw [stepPgFinal, inSearch_of_searches h]
  refine (if_neg (not_not.mpr hsize)).trans ?_
  obtain ⟨safe, rfl | rfl | rfl⟩ := h.search <;> simp [h.running]

end

end Sys2Proof.Proofs

/-! What a running generator can end with (45 R210 to R216): transition by transition, a final candidate of the sieve or
an error; so every result is clean, and a request that no candidate can meet never ends. -/

namespace Sys2Proof.Proofs

open Sys2Proof.Machine Sys2Proof.Safety Sys2Proof.Laws

/-! ### Values that the sieve clears -/

theorem not_dvd_of_clear {safe : Bool} {v : Nat} (h : Clear false safe v) : ∀ p ∈ tablePrimes, ¬ p ∣ v :=
  fun p hp hd => h p hp (.inl ⟨hd, by simp⟩)

theorem odd_of_not_dvd {v : Nat} (h : ∀ p ∈ tablePrimes, ¬ p ∣ v) : v % 2 = 1 := by
  have h2 := h 2 (mem_tablePrimes.mpr ⟨0, by decide, rfl⟩)
  omega

/-- In safe mode the sieve clears `(v - 1)/2` too (45 R207). -/
theorem not_dvd_half_of_clear {v : Nat} (h : Clear false true v) : ∀ p ∈ tablePrimes, ¬ p ∣ (v - 1) / 2 :=
  fun p hp hd => h p hp (.inr ⟨rfl, odd_of_not_dvd (not_dvd_of_clear h), hd, by simp⟩)

/-- A number from 2 to 311 has a prime of the table as a factor. -/
theorem exists_tablePrime_dvd {v : Nat} (h2 : 2 ≤ v) (hv : v < 312) : ∃ p ∈ tablePrimes, p ∣ v :=
  ⟨v.minFac, mem_tablePrimes_iff_prime.mpr
    ⟨(Nat.minFac_le (by omega)).trans_lt hv, Nat.minFac_prime (by omega)⟩, Nat.minFac_dvd v⟩

/-- The sieve clears no number of 2 to 8 bits; in safe mode, with at least 6 asked for, none of 9 either (45 R214). -/
theorem not_clear_of_small {safe : Bool} {v : Nat} (hbits : BitsOk (Nat.size v) safe)
    (hsmall : Nat.size v ≤ if safe then 9 else 8) : ¬ Clear false safe v := by
  obtain ⟨h2, _, h6⟩ := hbits
  cases safe with
  | false =>
    have hlow : 2 ^ 1 ≤ v := Nat.lt_size.mp h2
    have hhigh : v < 2 ^ 8 := Nat.size_le.mp hsmall
    obtain ⟨p, hp, hdvd⟩ := exists_tablePrime_dvd (v := v) (by omega) (by omega)
    exact fun h => not_dvd_of_clear h p hp hdvd
  | true =>
    have hlow : 2 ^ 5 ≤ v := Nat.lt_size.mp (h6 rfl)
    have hhigh : v < 2 ^ 9 := Nat.size_le.mp hsmall
    obtain ⟨p, hp, hdvd⟩ := exists_tablePrime_dvd (v := (v - 1) / 2) (by omega) (by omega)
    exact fun h => not_dvd_half_of_clear h p hp hdvd

section
variable {i : Instr} {s : State} (hreq : RequestOk i s) (hfinal : FinalOk i s) (hex : s.params.selfExempt = false)
include hreq hfinal hex

/-- A final candidate satisfies what a result must (45 R210, R211, R216). -/
theorem resultClean_of_finalOk : ResultClean i s (loLimb s.cand).toNat := by
  obtain ⟨_, hhigh⟩ := finalOk_bounds hreq hfinal
  obtain ⟨hsize, hclear, hclass, hfree⟩ := hfinal
  rw [hex] at hclear
  rw [loLimb_toNat, Nat.mod_eq_of_lt hhigh]
  exact ⟨hsize, not_dvd_of_clear hclear, fun hsafe => not_dvd_half_of_clear (hsafe ▸ hclear), hclass, hfree⟩

/-- No candidate is final for a small request (45 R214). -/
theorem xl_gt_of_finalOk : (if safeFlag i then 9 else 8) < s.xl.toNat := by
  obtain ⟨hbits, _⟩ := hreq
  obtain ⟨hsize, hclear, _⟩ := hfinal
  rw [hex] at hclear
  rw [← hsize] at hbits ⊢
  exact Nat.lt_of_not_le fun hsmall => not_clear_of_small hbits hsmall hclear

end

/-! ### What a transition can end a generator with -/

/-- The registers and parameters that a request rests on (45 R200, R215). -/
def request (s : State) : State :=
  { State.reset with
    xl := s.xl, add := s.add, rem := s.rem, checks := s.checks, params := s.params }

/-- From `s` the generator has ended in `t` with a final candidate. -/
def Found (i : Instr) (s t : State) : Prop :=
  ∃ u, request u = request s ∧ RequestOk i u ∧ FinalOk i u ∧ t = u.finish32 (loLimb u.cand)

/-- What a transition of the generator `i` can lead to from `s`: it still runs; it has ended with an error, of its
request or of the verification of a final candidate; or it has ended with a final candidate. -/
def Ends (i : Instr) (s t : State) : Prop :=
  t.busy = true ∨ (t.err ≠ 0 ∧ (RequestOk i s → FinalOk i s)) ∨ Found i s t

theorem ends_raise {i : Instr} {s u : State} {e : ErrKind} (h : RequestOk i s → FinalOk i s) : Ends i s (u.raise e) :=
  .inr (.inl ⟨by rw [raise_err]; cases e <;> decide, h⟩)

section
variable {i : Instr} {s : State} (h : Searches i s)
include h

/-- PG_FINAL ends a generator with a final candidate only (45 R212). -/
theorem stepPgFinal_ends (hsieve : SieveOk i s)
    (hclear : Clear s.params.selfExempt (safeFlag i) (s.cand.toNat + s.delta.toNat)) :
    Always (Ends i s) (stepPgFinal s) := by
  obtain ⟨hc, _, hok, _⟩ := hsieve
  rw [← sieved_toNat hc] at hclear hok
  by_cases hsize : Nat.size s.sieved.toNat = s.xl.toNat
  · rw [stepPgFinal_found h hsize]
    split_ifs
    · exact always_next.mpr (.inl h.busy)
    · exact always_next.mpr (.inr (.inr ⟨{ s with cand := s.sieved }, rfl, h.request, ⟨hsize, hclear, hok⟩, rfl⟩))
  · rw [stepPgFinal_again h hsize]
    exact always_next.mpr (.inl h.busy)

end

section
variable {i : Instr} {s : State} (hi : IsSearch i) (hb : s.busy = true) (hr : s.running = some i)
  (hsp : s.sp = smallPrimes)
include hi hb hr hsp

/-- A transition in the search's states. -/
theorem seqStep_search_ends (h : SearchOk i s) : Always (Ends i s) (seqStep s) := by
  have searches (hreq : RequestOk i s) : Searches i s := ⟨hi, hb, hr, hsp, hreq⟩
  unfold SearchOk at h
  unfold seqStep
  split at h
  next hs =>
    simp only [hs]
    rcases stepPgCheck_cases hi hr with ⟨_, e⟩ | ⟨hbad, e⟩ <;> rw [e]
    · exact always_next.mpr (.inl hb)
    · exact always_next.mpr (ends_raise fun hreq => absurd hreq hbad)
  next hs =>
    obtain ⟨d, c, e, _⟩ := stepPgAgain_eq (searches h)
    simp only [hs, e]
    exact always_next.mpr (.inl hb)
  next hs =>
    obtain ⟨ms, e, _⟩ := stepPgResidue_eq (searches h.1) h.2.1
    simp only [hs, e]
    exact always_next.mpr (.inl hb)
  next hs =>
    simp only [hs, stepPgLoop_eq (searches h.1)]
    exact always_next.mpr (.inl hb)
  next n hs =>
    obtain ⟨hreq, ⟨hc, _, _, hmap⟩, hn, hnone⟩ := h
    obtain ⟨d, e⟩ := stepPgSieve_eq (searches hreq) ⟨rfl, hc, hmap⟩ hn hnone
    simp only [hs, e]
    split_ifs
    · exact always_next.mpr (.inl hb)
    · exact always_next.mpr (.inl hb)
    · exact always_next.mpr (.inl hb)
  next hs =>
    simp only [hs, stepPgBump_eq (searches h.1)]
    split_ifs
    · exact always_next.mpr (.inl hb)
    · exact always_next.mpr (.inl hb)
  next hs =>
    obtain ⟨hreq, hsieve, hclear⟩ := h
    simp only [hs]
    exact stepPgFinal_ends (searches hreq) hsieve hclear
  next => exact h.elim

end

/-- A transition of the tester, verifying a final candidate (45 R218). -/
theorem ends_of_tester {safe : Bool} {s : State} {o : Out} (hb : s.busy = true)
    (hr : s.running = some (.genprime safe)) (hreq : RequestOk (.genprime safe) s) (hfinal : FinalOk (.genprime safe) s)
    (h : TesterNext s o) : Always (Ends (.genprime safe) s) o := by
  obtain ⟨u, hu, ⟨rfl, _⟩ | ⟨prime, rfl⟩ | ⟨e, _, rfl⟩⟩ := h
  · exact always_next.mpr (.inl ((eq_of_view hu State.busy).trans hb))
  · have hbu := (eq_of_view hu State.busy).trans hb
    have hfound : Found (.genprime safe) s (u.finish32 (loLimb u.cand)) :=
      ⟨u, eq_of_view hu request, (eq_of_view hu (RequestOk (.genprime safe))).mpr hreq,
        (eq_of_view hu (FinalOk (.genprime safe))).mpr hfinal, rfl⟩
    intro t ht
    rcases verdict_next ht with ⟨hiso, _⟩ | ⟨_, _, ⟨_, _, _, rfl⟩ | ⟨_, _, _, rfl⟩ | ⟨_, _, rfl⟩ | ⟨_, _, rfl⟩⟩
    · exact absurd (((eq_of_view hu State.running).trans hr).symm.trans hiso) (by simp)
    · exact .inl hbu
    · exact .inr (.inr hfound)
    · exact .inr (.inr hfound)
    · exact .inl hbu
  · exact always_next.mpr (ends_raise fun _ => hfinal)

/-- A transition in the states of GENPRIME (45 R218). -/
theorem seqStep_genprime_ends {safe : Bool} {s : State} (hb : s.busy = true) (hr : s.running = some (.genprime safe))
    (hsp : s.sp = smallPrimes) (h : OuterOk safe s) : Always (Ends (.genprime safe) s) (seqStep s) := by
  have hi : IsSearch (.genprime safe) := ⟨safe, .inr (.inr rfl)⟩
  have goTo {u : State} (hu : u.busy = true) : Always (Ends (.genprime safe) s) (s.inSearch fun _ => .next u) :=
    always_inSearch fun _ => always_next.mpr (.inl hu)
  rcases h with hsearch | ⟨hs, _⟩ | ⟨hreq, hfinal, hs | ⟨hs, _⟩ | ⟨htest, _⟩ | ⟨htest, _⟩⟩
  · exact seqStep_search_ends hi hb hr hsp hsearch
  · simp only [seqStep, hs]
    exact goTo hb
  · simp only [seqStep, hs]
    exact goTo hb
  · simp only [seqStep, hs]
    exact goTo hb
  · exact ends_of_tester hb hr hreq hfinal (seqStep_tester hsp (.inr ⟨safe, hr⟩) htest)
  · exact ends_of_tester hb hr hreq hfinal (seqStep_tester hsp (.inr ⟨safe, hr⟩) htest)

/-- A transition of a running generator. -/
theorem seqStep_ends {i : Instr} {s : State} (hi : IsSearch i) (h : Inv s) (hb : s.busy = true)
    (hr : s.running = some i) : Always (Ends i s) (seqStep s) := by
  obtain ⟨_, ⟨hisp, _⟩, _, hrun⟩ := h.busy hb
  have hsp := h.spContent hisp
  have hi' := hi
  obtain ⟨safe, rfl | rfl | rfl⟩ := hi' <;> simp only [RunningOk, hr] at hrun
  · exact seqStep_search_ends hi hb hr hsp hrun
  · exact seqStep_search_ends hi hb hr hsp hrun
  · exact seqStep_genprime_ends hb hr hsp hrun

/-! ### The engine's turn -/

/-- The block has the invariant and the request of `s`, and if a command runs, it is the generator `i`. -/
structure Runs (i : Instr) (s u : State) : Prop where
  inv : Inv u
  kept : request u = request s
  running : u.busy = true → u.running = some i

theorem seqStep_runs {i : Instr} {s u : State} (h : Runs i s u) (hb : u.busy = true) :
    Always (Runs i s) (seqStep u) := by
  intro t ht
  have hheld := (seqStep_held h.inv hb).always t ht
  have hinv := inv_of_held h.inv hb hheld
  obtain ⟨_, ⟨hf, hidle, _⟩ | ⟨ho, _⟩⟩ := hheld
  · exact ⟨hinv, (eq_of_view hf request).trans h.kept, fun hbt => by simp [hidle] at hbt⟩
  · exact ⟨hinv, (eq_of_view ho request).trans h.kept, fun _ => (eq_of_view ho State.running).trans (h.running hb)⟩

section
variable {i : Instr} {s u : State} (hi : IsSearch i) (hex : s.params.selfExempt = false) (h : Runs i s u)
  (hb : u.busy = true)
include hi hex h hb

/-- A turn that ends a generator without error leaves a clean result. -/
theorem engineTurn_clean :
    Always (fun t => t.busy = false → t.err = 0 → ResultClean i s t.pl.toNat) (engineTurn u) := by
  have step (v : State) (hv : Runs i s v ∧ (v.busy = false → v.err = 0 → ResultClean i s v.pl.toNat))
      (hbv : v.busy = true) :
      Always (fun t => Runs i s t ∧ (t.busy = false → t.err = 0 → ResultClean i s t.pl.toNat)) (seqStep v) := by
    intro t ht
    refine ⟨seqStep_runs hv.1 hbv t ht, fun hidle herr => ?_⟩
    rcases seqStep_ends hi hv.1.inv hbv (hv.1.running hbv) t ht with hbt | ⟨hne, _⟩ | ⟨x, hx, hreq, hfinal, rfl⟩
    · simp [hidle] at hbt
    · exact absurd herr hne
    · have hxs := hx.trans hv.1.kept
      have hclean := resultClean_of_finalOk hreq hfinal ((eq_of_view hxs (·.params.selfExempt)).trans hex)
      exact (eq_of_view hxs fun y => ResultClean i y (loLimb x.cand).toNat).mp hclean
  intro t ht
  exact (always_runSeq step ⟨h, fun hidle => by simp [hb] at hidle⟩ _ t ht).2

/-- A turn does not end a generator that is asked for too few bits (45 R214). -/
theorem engineTurn_endless (hreq : RequestOk i s) (hsmall : s.xl.toNat ≤ if safeFlag i then 9 else 8) :
    Always (fun t => Runs i s t ∧ t.busy = true) (engineTurn u) := by
  have notFinal {v : State} (hv : request v = request s) : ¬ FinalOk i v := fun hfinal => by
    have hlarge := xl_gt_of_finalOk ((eq_of_view hv (RequestOk i)).mpr hreq) hfinal
      ((eq_of_view hv (·.params.selfExempt)).trans hex)
    rw [eq_of_view hv State.xl] at hlarge
    omega
  refine always_runSeq (fun v ⟨hv, hbv⟩ _ t ht => ⟨seqStep_runs hv hbv t ht, ?_⟩) ⟨h, hb⟩ _
  rcases seqStep_ends hi hv.inv hbv (hv.running hbv) t ht with hbt | ⟨_, hbad⟩ | ⟨x, hx, _, hfinal, _⟩
  · exact hbt
  · exact absurd (hbad ((eq_of_view hv.kept (RequestOk i)).mpr hreq)) (notFinal hv.kept)
  · exact absurd hfinal (notFinal (hx.trans hv.kept))

end

/-! ### The obligations -/

/-- A step that goes on with a generator is the engine's turn, on the request that runs. -/
theorem step_search {s : State} {i : Instr} (h : Inv s) (hb : s.busy = true) (hr : s.running = some i)
    (hreset : NoReset s) : ∃ u, step s = engineTurn u ∧ Runs i s u ∧ u.busy = true := by
  obtain ⟨q, out, n, e⟩ := step_busy hb hreset
  exact ⟨_, e, ⟨inv_host h q out n, rfl, fun _ => hr⟩, hb⟩

/-- The step that starts a generator after setup is the engine's turn, on the request as it stands. -/
theorem exec_search_runs {s : State} {i : Instr} (hi : IsSearch i) (h : Inv s) (hidle : s.busy = false)
    (hready : Ready s) :
    ∃ u, exec i { s with cmd := encode i } = engineTurn u ∧ Runs i s u ∧ u.busy = true := by
  have hinv := loopEntry_inv (inv_cmd h hidle (encode i)) (.inr (.inr hi)) hready (decode_encode i)
  have hentry (v : State) : loopEntry i v = { v.start i with seq := .pgCheck } := by
    obtain ⟨safe, rfl | rfl | rfl⟩ := hi <;> rfl
  rw [hentry] at hinv
  exact ⟨_, exec_search (s := { s with cmd := encode i }) hready hi, ⟨hinv, rfl, fun _ => rfl⟩, rfl⟩

/-- Settles O42: the transitions that end a generator without error give a final candidate, in every turn. -/
theorem searchResultsAreClean : Obligations.SearchResultsAreClean := by
  intro s t i hi hex hidle herr hinv
  refine ⟨fun hb hr hreset hstep => ?_, fun hb hexec => ?_⟩
  · obtain ⟨u, e, hu, hbu⟩ := step_search hinv hb hr hreset
    exact engineTurn_clean hi hex hu hbu t (e.symm.trans hstep) hidle herr
  · by_cases hready : Ready s
    · obtain ⟨u, e, hu, hbu⟩ := exec_search_runs hi hinv hb hready
      exact engineTurn_clean hi hex hu hbu t (e.symm.trans hexec) hidle herr
    · obtain ⟨_, e⟩ | ⟨hr, _⟩ := exec_loop { s with cmd := encode i } (.inr (.inr hi))
      · cases e.symm.trans hexec
        simp at herr
      · exact absurd hr hready

/-- Settles O43: no number of so few bits is clear of the table, so no candidate is ever final, and nothing else ends a
permitted request. -/
theorem smallRequestsNeverEnd : Obligations.SmallRequestsNeverEnd := by
  intro s t i hi hex hinv hreq hsmall
  have endless {u : State} (hu : Runs i s u) (hbu : u.busy = true) (ht : engineTurn u = .next t) :
      t.busy = true ∧ t.running = some i ∧ t.xl = s.xl ∧ RequestOk i t := by
    obtain ⟨hrun, hbt⟩ := engineTurn_endless hi hex hu hbu hreq hsmall t ht
    exact ⟨hbt, hrun.running hbt, eq_of_view hrun.kept State.xl, (eq_of_view hrun.kept (RequestOk i)).mpr hreq⟩
  refine ⟨fun hb hr hreset hstep => ?_, fun hidle hready hexec => ?_⟩
  · obtain ⟨u, e, hu, hbu⟩ := step_search hinv hb hr hreset
    exact endless hu hbu (e.symm.trans hstep)
  · obtain ⟨u, e, hu, hbu⟩ := exec_search_runs hi hinv hidle hready
    exact endless hu hbu (e.symm.trans hexec)

end Sys2Proof.Proofs

/-! The candidate search on the words that the source gives (45 R204 to R213): the scan of the table, the bumps, the
abandoned draws, and the final value. These lemmas rest on no generator in particular, so they hold for GENPRIME's
searches too. Then PROBPRIME and PROBPRIMEDH, which end with that value. -/

namespace Sys2Proof.Proofs

open Sys2Proof.Machine Sys2Proof.Safety Sys2Proof.Laws

/-! ### The first value on the coming words -/

theorem composed_of_wordsFrom {n : Nat} {s u : State} (h : WordsFrom n s u) (j : Nat) :
    composed u j = composed s (n + j) :=
  (eq_of_view h (composed · j)).trans (composed_afterCalls s n j)

theorem firstValue_of_wordsFrom {n : Nat} {s u : State} (hk : request u = request s) (hw : WordsFrom n s u)
    (safe cls : Bool) (j : Nat) : firstValue u safe cls j = firstValue s safe cls (n + j) := by
  have hxl := eq_of_view hk State.xl
  have hadd := eq_of_view hk State.add
  have hrem := eq_of_view hk State.rem
  simp only [firstValue, composed_of_wordsFrom hw, hxl, hadd, hrem]

/-! ### One scan of the table -/

/-- The sieve before its `n`-th entry, and past the last (45 R213). -/
def sieving (s : State) (d : DivWork) (n : Nat) : State :=
  { s with div := d, seq := if n < 64 then .pgSieve n else .pgFinal }

section
variable {i : Instr} {s : State} {c : Nat} (h : Searches i s) (hs : Sieves c s)
include h hs

/-- One entry: a hit ends the scan, else the next entry comes. -/
theorem seqStep_sieving {n : Nat} (hn : n < 64) (d : DivWork)
    (hnone : ∀ j < n, ¬ Hits s.params.selfExempt (safeFlag i) (tablePrime j) (c + s.delta.toNat)) :
    ∃ d', seqStep (sieving s d n) =
      if Hits s.params.selfExempt (safeFlag i) (tablePrime n) (c + s.delta.toNat) then
        .next { s with div := d', seq := .pgBump }
      else .next (sieving s d' (n + 1)) := by
  have hstep : seqStep (sieving s d n) = stepPgSieve n (sieving s d n) := by simp only [seqStep, sieving, if_pos hn]
  obtain ⟨d', e⟩ := stepPgSieve_eq (s := sieving s d n) (searches_of_offSearch h rfl)
    ⟨hs.cand, hs.exact, hs.residues⟩ hn hnone
  refine ⟨d', hstep.trans (e.trans (if_congr Iff.rfl rfl ?_))⟩
  split_ifs with hlast
  · simp only [sieving, if_pos (show n + 1 < 64 by omega)]
  · simp only [sieving, if_neg (show ¬ n + 1 < 64 by omega)]

variable (hseq : s.seq = .pgLoop)
include hseq

/-- Entries that do not hit only move on. -/
theorem reaches_sieving {n : Nat} (hn : n ≤ 64)
    (hnone : ∀ j < n, ¬ Hits s.params.selfExempt (safeFlag i) (tablePrime j) (c + s.delta.toNat)) :
    ∃ d, Reaches (n + 1) s (sieving s d n) := by
  induction n with
  | zero =>
    have hstep : seqStep s = .next (sieving s s.div 0) := by
      simp only [seqStep, hseq, stepPgLoop_eq h]
      rfl
    exact ⟨s.div, reaches_of_seqStep h.busy hstep⟩
  | succ n ih =>
    obtain ⟨d, hreach⟩ := ih (by omega) fun j hj => hnone j (by omega)
    obtain ⟨d', hstep⟩ := seqStep_sieving h hs (show n < 64 by omega) d fun j hj => hnone j (by omega)
    rw [if_neg (hnone n (by omega))] at hstep
    exact ⟨d', hreach.trans (reaches_of_seqStep (s := sieving s d n) h.busy hstep)⟩

/-- A clear value reaches PG_FINAL. -/
theorem reaches_clear (hclear : Clear s.params.selfExempt (safeFlag i) (c + s.delta.toNat)) :
    ∃ d, Reaches 65 s { s with div := d, seq := .pgFinal } :=
  reaches_sieving h hs hseq le_rfl (forall_tablePrimes.mp hclear)

/-- The first entry that hits leads to PG_BUMP. -/
theorem reaches_hit (hhit : ¬ Clear s.params.selfExempt (safeFlag i) (c + s.delta.toNat)) :
    ∃ d, Reaches 65 s { s with div := d, seq := .pgBump } := by
  have hex : ∃ n < 64, Hits s.params.selfExempt (safeFlag i) (tablePrime n) (c + s.delta.toNat) := by
    simpa only [forall_tablePrimes, not_forall, not_not, exists_prop] using hhit
  obtain ⟨n, ⟨hn, hhits⟩, hfirst⟩ := Nat.findX hex
  have hnone (j : Nat) (hj : j < n) := fun hhits' => hfirst j hj ⟨hj.trans hn, hhits'⟩
  obtain ⟨d, hreach⟩ := reaches_sieving h hs hseq hn.le hnone
  obtain ⟨d', hstep⟩ := seqStep_sieving h hs hn d hnone
  rw [if_pos hhits] at hstep
  exact ⟨d', (hreach.trans (reaches_of_seqStep (s := sieving s d n) h.busy hstep)).mono (by omega)⟩

end

/-! ### From draw to draw -/

/-- The search entered at `e` is at the state `q` of the sequencer, the words of `s` before the `n`-th taken. -/
structure At (q : Seq) (s e : State) (n : Nat) (u : State) : Prop where
  seq : u.seq = q
  frame : offSearch u = offSearch e
  words : WordsFrom n s u

/-- The search entered at `e` begins a scan on the candidate `c` at the offset `x`. -/
structure AtLoop (s e : State) (n c x : Nat) (u : State) : Prop extends At .pgLoop s e n u where
  sieves : Sieves c u
  offset : u.delta.toNat = x

section
variable {i : Instr} {s e u : State} {n : Nat} (he : Searches i e) (hk : request e = request s)
include he hk

/-- A draw leads to a scan on its own value, at offset 0 (45 R204, R205, R208). -/
theorem reaches_loop (h : At .pgAgain s e n u) :
    ∃ v, AtLoop s e (n + 1) (firstValue s (safeFlag i) e.constrained n) 0 v ∧ Reaches 2 u v := by
  have hu := searches_of_offSearch he h.frame
  obtain ⟨d, c, hdraw, hc, hlt⟩ := stepPgAgain_eq hu
  rw [eq_of_view h.frame State.constrained,
    firstValue_of_wordsFrom ((eq_of_view h.frame request).trans hk) h.words] at hc
  generalize hv : ({ afterCalls u 3 with div := d, cand := c, seq := .pgResidue } : State) = v at hdraw
  have hvu : offSearch v = offSearch u := hv ▸ rfl
  have hwords : WordsFrom (n + 1) s v := hv ▸ wordsFrom_afterCalls h.words 1
  have hcand : v.cand.toNat = c.toNat := hv ▸ rfl
  have hseq : v.seq = .pgResidue := hv ▸ rfl
  have hfirst : seqStep u = .next v := by simp only [seqStep, h.seq, hdraw]
  obtain ⟨ms, hres, hsieves⟩ := stepPgResidue_eq (searches_of_offSearch hu hvu) (hcand.trans_lt hlt)
  have hsecond : seqStep v = .next { v with mods := ms, delta := 0, seq := .pgLoop } := by
    simp only [seqStep, hseq, hres]
  rw [hcand, hc, Nat.add_zero] at hsieves
  refine ⟨_, ?_, (reaches_of_seqStep hu.busy hfirst).trans
    (reaches_of_seqStep (searches_of_offSearch hu hvu).busy hsecond)⟩
  exact ⟨⟨rfl, hvu.trans h.frame, hwords⟩, hsieves, rfl⟩

omit he in
theorem params_of_frame (hf : offSearch u = offSearch e) : u.params = s.params :=
  (eq_of_view hf State.params).trans (eq_of_view hk State.params)

omit he in
/-- The step of the bump is that of the request (45 R209). -/
theorem searchStep_of_frame (hf : offSearch u = offSearch e) :
    searchStep u (safeFlag i) u.constrained = searchStep s (safeFlag i) e.constrained := by
  rw [eq_of_view hf State.constrained]
  exact eq_of_view ((eq_of_view hf request).trans hk) (searchStep · (safeFlag i) e.constrained)

variable {c x : Nat} (h : AtLoop s e n c x u)
include h

/-- A value that the sieve clears is final (45 R212). -/
theorem reaches_final (hclear : Clear s.params.selfExempt (safeFlag i) (c + x)) :
    ∃ v, At .pgFinal s e n v ∧ v.sieved.toNat = c + x ∧ Reaches 65 u v := by
  rw [← params_of_frame hk h.frame, ← h.offset] at hclear
  obtain ⟨d, hreach⟩ := reaches_clear (searches_of_offSearch he h.frame) h.sieves h.seq hclear
  refine ⟨_, ?_, ?_, hreach⟩
  · exact ⟨rfl, h.frame, h.words⟩
  · rw [← h.offset]
    exact h.sieves.value

/-- A value that is hit goes to PG_BUMP. -/
theorem reaches_pgBump (hhit : ¬ Clear s.params.selfExempt (safeFlag i) (c + x)) :
    ∃ d, Reaches 65 u { u with div := d, seq := .pgBump } := by
  rw [← params_of_frame hk h.frame, ← h.offset] at hhit
  exact reaches_hit (searches_of_offSearch he h.frame) h.sieves h.seq hhit

/-- PG_BUMP, after a value that is hit (45 R209). -/
theorem seqStep_pgBump (d : DivWork) :
    seqStep { u with div := d, seq := .pgBump } =
      if s.params.maxDelta.toNat < x + searchStep s (safeFlag i) e.constrained then
        .next { u with div := d, seq := .pgAgain }
      else .next { u with div := d, delta := u.delta + u.bumpStep (safeFlag i), seq := .pgLoop } := by
  rw [← params_of_frame hk h.frame, ← h.offset, ← searchStep_of_frame hk h.frame]
  exact stepPgBump_eq (s := { u with div := d, seq := .pgBump })
    (searches_of_offSearch (searches_of_offSearch he h.frame) rfl)

/-- Past MAXDELTA the next draw comes (45 R209). -/
theorem reaches_past (hhit : ¬ Clear s.params.selfExempt (safeFlag i) (c + x))
    (hmax : s.params.maxDelta.toNat < x + searchStep s (safeFlag i) e.constrained) :
    ∃ v, At .pgAgain s e n v ∧ Reaches 66 u v := by
  obtain ⟨d, hreach⟩ := reaches_pgBump he hk h hhit
  have hstep := seqStep_pgBump he hk h d
  rw [if_pos hmax] at hstep
  have hb := (searches_of_offSearch he h.frame).busy
  refine ⟨_, ?_, hreach.trans (reaches_of_seqStep (s := { u with div := d, seq := .pgBump }) hb hstep)⟩
  exact ⟨rfl, h.frame, h.words⟩

/-- Within MAXDELTA the next value comes (45 R209). -/
theorem reaches_bumped (hhit : ¬ Clear s.params.selfExempt (safeFlag i) (c + x))
    (hmax : x + searchStep s (safeFlag i) e.constrained ≤ s.params.maxDelta.toNat) :
    ∃ v, AtLoop s e n c (x + searchStep s (safeFlag i) e.constrained) v ∧ Reaches 66 u v := by
  obtain ⟨d, hreach⟩ := reaches_pgBump he hk h hhit
  have hstep := seqStep_pgBump he hk h d
  rw [if_neg (Nat.not_lt.mpr hmax)] at hstep
  have hb := (searches_of_offSearch he h.frame).busy
  have hlt := s.params.maxDelta.isLt
  have hsum : (u.delta + u.bumpStep (safeFlag i)).toNat = x + searchStep s (safeFlag i) e.constrained := by
    rw [BitVec.toNat_add, bumpStep_eq, searchStep_of_frame hk h.frame, h.offset]
    exact Nat.mod_eq_of_lt (by omega)
  refine ⟨_, ?_, hreach.trans (reaches_of_seqStep (s := { u with div := d, seq := .pgBump }) hb hstep)⟩
  exact ⟨⟨rfl, h.frame, h.words⟩, ⟨h.sieves.cand, h.sieves.exact, h.sieves.residues⟩, hsum⟩

end

section
variable {i : Instr} {s e u : State} {n k : Nat} (he : Searches i e) (hk : request e = request s)
include he hk

/-- Values that are hit only move on, 66 transitions each. -/
theorem reaches_bumps {c : Nat} (h : AtLoop s e n c 0 u)
    (hmax : k * searchStep s (safeFlag i) e.constrained ≤ s.params.maxDelta.toNat)
    (hhit : ∀ j < k, ¬ Clear s.params.selfExempt (safeFlag i) (c + j * searchStep s (safeFlag i) e.constrained)) :
    ∃ v, AtLoop s e n c (k * searchStep s (safeFlag i) e.constrained) v ∧ Reaches (66 * k) u v := by
  induction k with
  | zero => exact ⟨u, by simpa using h, Reaches.refl u⟩
  | succ k ih =>
    rw [Nat.succ_mul] at hmax ⊢
    obtain ⟨v, hv, hreach⟩ := ih (by omega) fun j hj => hhit j (by omega)
    obtain ⟨x, hx, hreach'⟩ := reaches_bumped he hk hv (hhit k (by omega)) hmax
    exact ⟨x, hx, hreach.trans hreach'⟩

variable (h : At .pgAgain s e n u)
include h

/-- An abandoned draw leads to the next one (45 R209, R212). -/
theorem reaches_nextDraw
    (hab : AbandonedAfter s (safeFlag i) (firstValue s (safeFlag i) e.constrained n)
      (searchStep s (safeFlag i) e.constrained) k s.xl.toNat) :
    ∃ v, At .pgAgain s e (n + 1) v ∧ Reaches (68 + 66 * k) u v := by
  obtain ⟨hmax, hhit, hend⟩ := hab
  obtain ⟨v, hv, hreach⟩ := reaches_loop he hk h
  obtain ⟨x, hx, hreach'⟩ := reaches_bumps he hk hv hmax hhit
  rcases hend with ⟨hclear, hsize⟩ | ⟨hlast, hpast⟩
  · obtain ⟨y, hy, hvalue, hreach''⟩ := reaches_final he hk hx hclear
    have hsy := searches_of_offSearch he hy.frame
    rw [← hvalue, ← eq_of_view ((eq_of_view hy.frame request).trans hk) State.xl] at hsize
    have hstep : seqStep y = .next { y with cand := y.sieved, seq := .pgAgain } := by
      simp only [seqStep, hy.seq, stepPgFinal_again hsy hsize]
    refine ⟨_, ?_, (((hreach.trans hreach').trans hreach'').trans (reaches_of_seqStep hsy.busy hstep)).mono (by omega)⟩
    exact ⟨rfl, hy.frame, hy.words⟩
  · rw [Nat.succ_mul] at hpast
    obtain ⟨y, hy, hreach''⟩ := reaches_past he hk hx hlast hpast
    exact ⟨y, hy, ((hreach.trans hreach').trans hreach'').mono (by omega)⟩

/-- The first clear value of a draw that is not abandoned reaches PG_FINAL (45 R207, R209). -/
theorem reaches_firstClear {c : Nat}
    (hfirst : FirstClear s (safeFlag i) (firstValue s (safeFlag i) e.constrained n)
      (searchStep s (safeFlag i) e.constrained) k c s.xl.toNat) :
    ∃ v, At .pgFinal s e (n + 1) v ∧ v.sieved.toNat = c ∧ Reaches (67 + 66 * k) u v := by
  obtain ⟨rfl, hmax, hhit, hclear, _⟩ := hfirst
  obtain ⟨v, hv, hreach⟩ := reaches_loop he hk h
  obtain ⟨x, hx, hreach'⟩ := reaches_bumps he hk hv hmax hhit
  obtain ⟨y, hy, hvalue, hreach''⟩ := reaches_final he hk hx hclear
  exact ⟨y, hy, hvalue, ((hreach.trans hreach').trans hreach'').mono (by omega)⟩

end

/-- The search reaches PG_FINAL with the value that it finds, 68 transitions a draw and 66 a bump, that of PG_FINAL
counted (45 R210, R211). -/
theorem reaches_found {i : Instr} {s e u : State} (he : Searches i e) (hk : request e = request s) {n j b c : Nat}
    (hfinds : SearchFinds s (safeFlag i) e.constrained n j b c) (h : At .pgAgain s e j u) :
    ∃ v, At .pgFinal s e (j + n + 1) v ∧ v.sieved.toNat = c ∧ Reaches (67 + 68 * n + 66 * b) u v := by
  induction n generalizing j b u with
  | zero => exact reaches_firstClear he hk h hfinds
  | succ n ih =>
    obtain ⟨k, b', rfl, hab, hrest⟩ := hfinds
    obtain ⟨v, hv, hreach⟩ := reaches_nextDraw he hk h hab
    obtain ⟨x, hx, hvalue, hreach'⟩ := ih hrest hv
    exact ⟨x, by rwa [show j + (n + 1) + 1 = j + 1 + n + 1 by omega], hvalue, (hreach.trans hreach').mono (by omega)⟩

/-- What the search finds is clear of the table and has the length asked for. -/
theorem clear_of_searchFinds {s : State} {safe cls : Bool} {n j b c : Nat} (h : SearchFinds s safe cls n j b c) :
    Clear s.params.selfExempt safe c ∧ Nat.size c = s.xl.toNat := by
  induction n generalizing j b with
  | zero =>
    obtain ⟨_, _, _, hclear, hsize⟩ := h
    exact ⟨hclear, hsize⟩
  | succ n ih =>
    obtain ⟨_, _, _, _, hrest⟩ := h
    exact ih hrest

/-! ### PROBPRIME and PROBPRIMEDH -/

/-- Where `e` has the coming words of `s`, the port after `n` composed words of `s` is that of `e` after `3n` calls. -/
theorem port_of_wordsFrom {s e u : State} {n : Nat} (he : source e = source s) (hwords : WordsFrom n s u) :
    u.rngIn = e.rngIn.drop (3 * n) ∧ u.rngCalls = e.rngCalls + 3 * n :=
  ⟨(eq_of_view hwords State.rngIn).trans (congrArg (List.drop (3 * n)) (eq_of_view he State.rngIn).symm),
    (eq_of_view hwords State.rngCalls).trans (congrArg (· + 3 * n) (eq_of_view he State.rngCalls).symm)⟩

/-- What the search does not write, and the words taken, say all of a state but the candidate state and the divider. -/
theorem eq_afterCalls_of_offSearch {s e u : State} {n : Nat} (hf : offSearch u = offSearch e) (he : source e = source s)
    (hwords : WordsFrom n s u) :
    u = { afterCalls e (3 * n) with seq := u.seq, cand := u.cand, mods := u.mods, delta := u.delta, div := u.div } := by
  obtain ⟨hin, hcalls⟩ := port_of_wordsFrom he hwords
  calc u = { offSearch u with
      seq := u.seq, cand := u.cand, mods := u.mods, delta := u.delta, div := u.div
      rngIn := u.rngIn, rngCalls := u.rngCalls } := rfl
    _ = { offSearch e with
      seq := u.seq, cand := u.cand, mods := u.mods, delta := u.delta, div := u.div
      rngIn := e.rngIn.drop (3 * n), rngCalls := e.rngCalls + 3 * n } := by rw [hf, hin, hcalls]
    _ = _ := rfl

/-- PG_CHECK lets a permitted request through, in one transition. -/
theorem reaches_afterCheck {s : State} {i : Instr} (hi : IsSearch i) (hreq : RequestOk i s) :
    Reaches 1 { s.start i with seq := .pgCheck } { s.start i with seq := afterCheck i } := by
  rcases stepPgCheck_cases (s := { s.start i with seq := .pgCheck }) hi rfl with ⟨_, e⟩ | ⟨hbad, _⟩
  · exact reaches_of_seqStep rfl e
  · exact absurd hreq hbad

/-- A generator other than GENPRIME ends with what its search finds, when its turn is long enough. -/
theorem exec_search_finds {s : State} {i : Instr} {n b c : Nat} (hready : ReadyTables s) (hi : IsSearch i)
    (hreq : RequestOk i s) (hnot : ¬ ∃ safe, i = .genprime safe)
    (hfinds : SearchFinds s (safeFlag i) (State.constrained { s.start i with seq := afterCheck i }) n 0 b c)
    (hpace : 68 * (n + 1) + 66 * b ≤ s.pace) :
    ∃ c' ms dl d, exec i s =
      .next { afterCalls (ended s 0 (BitVec.ofNat 32 c) 0 0 false) (3 * (n + 1)) with
        cand := c', mods := ms, delta := dl, div := d } := by
  have hagain : afterCheck i = .pgAgain := by
    obtain ⟨safe, rfl | rfl | rfl⟩ := hi
    · rfl
    · rfl
    · exact absurd ⟨safe, rfl⟩ hnot
  have he : Searches i { s.start i with seq := afterCheck i } := ⟨hi, rfl, rfl, hready.2, hreq⟩
  obtain ⟨v, hv, hvalue, hreach⟩ := reaches_found (s := s) he rfl hfinds ⟨hagain, rfl, rfl⟩
  have hsv := searches_of_offSearch he hv.frame
  have hsize : Nat.size v.sieved.toNat = v.xl.toNat := by
    rw [hvalue, eq_of_view hv.frame State.xl]
    exact (clear_of_searchFinds hfinds).2
  have hstep : seqStep v = .next (State.finish32 (loLimb v.sieved) { v with cand := v.sieved }) := by
    simp only [seqStep, hv.seq, stepPgFinal_found hsv hsize, if_neg hnot]
  have hpl : loLimb v.sieved = BitVec.ofNat 32 c := (loLimb_eq_lower _).trans (congrArg lower hvalue)
  have hrun := ((reaches_afterCheck hi hreq).trans hreach).trans (reaches_of_seqStep hsv.busy hstep)
  refine ⟨v.sieved, v.mods, v.delta, v.div, ?_⟩
  rw [exec_search hready.1 hi, engineTurn_of_reaches hrun rfl (show _ ≤ s.pace + 1 by omega), hpl]
  have hframe := eq_afterCalls_of_offSearch hv.frame rfl hv.words
  rw [Nat.zero_add] at hframe
  exact congrArg (fun x : State => Host.Outcome.next (State.finish32 (BitVec.ofNat 32 c) { x with cand := v.sieved }))
    hframe

/-- Settles O38: PROBPRIME's search is in no class. -/
theorem probprimeReturnsTheFirstClearValue : Obligations.ProbprimeReturnsTheFirstClearValue := by
  intro s safe n b c hready hbits hfinds hpace
  exact exec_search_finds hready ⟨safe, .inl rfl⟩ ⟨hbits, by simp, by simp⟩ (by simp) hfinds hpace

/-- Settles O39: PROBPRIMEDH's search is in the class of ADD and REM. -/
theorem probprimedhReturnsTheFirstClearValue : Obligations.ProbprimedhReturnsTheFirstClearValue := by
  intro s safe n b c hready hbits hadd hfinds hpace
  exact exec_search_finds hready ⟨safe, .inr (.inl rfl)⟩ ⟨hbits, fun _ => hadd, by simp⟩ (by simp) hfinds hpace

end Sys2Proof.Proofs

/-! GENPRIME (45 R215 to R218): its outer loop on the words that the source gives. A search that starts at GP_CALL
brings a candidate to its verifications; these run in the tester, entered at IP_PRE, and their verdicts lead back to
GP_CALL, on to GP_VERIFY_Q, or to the end. -/

namespace Sys2Proof.Proofs

open Sys2Proof.Machine Sys2Proof.Safety Sys2Proof.Laws

/-! ### The outer loop -/

/-- A state without what the transitions of GENPRIME may write while it runs. -/
def offWork (s : State) : State :=
  { offSearch s with verify := .none, exp := ⟨0, 0, 0⟩, draw := ⟨0, 0⟩, mr := ⟨0, 0, 0, 0, 0, 0⟩ }

/-- GENPRIME, entered at `e`, is at the state `q` of the sequencer, the words of `s` before the `n`-th taken. -/
structure AtOuter (q : Seq) (s e : State) (n : Nat) (u : State) : Prop where
  seq : u.seq = q
  frame : offWork u = offWork e
  words : WordsFrom n s u

/-- GENPRIME, entered at `e` with the candidate `c` now, enters the tester on `w` for the verification `vf`. -/
structure Verifying (vf : Verify) (s e : State) (n c w : Nat) (u : State) : Prop extends AtOuter .ipPre s e n u where
  verify : u.verify = vf
  cand : u.cand.toNat = c
  number : u.mr.w.toNat = w

/-- GENPRIME, entered at `e`, is at the end of the verification `vf` of the candidate `c`, the words of `s` before the
`n`-th taken. -/
structure Verified (vf : Verify) (s e : State) (n c : Nat) (u : State) : Prop where
  frame : offWork u = offWork e
  words : WordsFrom n s u
  verify : u.verify = vf
  cand : u.cand.toNat = c

/-- The number may be under test: above 1, and trial division does not settle it. -/
def Testable (w : Nat) : Prop := 1 < w ∧ ∀ p ∈ tablePrimes, ¬ p ∣ w

/-- What the search finds fits one limb, and the verifications test it and in safe mode its half (45 R212, R215). -/
theorem testable_of_searchFinds {s : State} {safe cls : Bool} {n j b c : Nat} (hbits : BitsOk s.xl.toNat safe)
    (hex : s.params.selfExempt = false) (h : SearchFinds s safe cls n j b c) :
    c < 2 ^ 32 ∧ Testable c ∧ (safe = true → Testable ((c - 1) / 2)) := by
  obtain ⟨hclear, hsize⟩ := clear_of_searchFinds h
  rw [hex] at hclear
  obtain ⟨h2, h31, h6⟩ := hsize.symm ▸ hbits
  have hlow : 2 ^ 1 ≤ c := Nat.lt_size.mp h2
  refine ⟨Nat.size_le.mp (h31.trans (by decide)), ⟨hlow, not_dvd_of_clear hclear⟩, fun hsafe => ⟨?_, ?_⟩⟩
  · have hlow : 2 ^ 5 ≤ c := Nat.lt_size.mp (h6 hsafe)
    omega
  · exact not_dvd_half_of_clear (hsafe ▸ hclear)

theorem le_of_roundFails {s : State} {w n n' : Nat} (h : RoundFails s w n n') : n ≤ n' := by
  obtain ⟨_, _, _, _, hpassed, _, _, rfl⟩ := h
  have := roundsPassed_words hpassed
  omega

theorem le_of_drawExhausts {s : State} {w n n' : Nat} (h : DrawExhausts s w n n') : n ≤ n' := by
  obtain ⟨_, _, _, hpassed, _, rfl⟩ := h
  have := roundsPassed_words hpassed
  omega

/-- In GENPRIME the verdict Composite of a verification starts a new search (45 R218). -/
theorem verdict_composite {safe : Bool} {s : State} (hr : s.running = some (.genprime safe)) (hv : s.verify ≠ .none) :
    s.verdict false = .next { s with seq := .gpCall } := by
  have hpq : s.verify = .p ∨ s.verify = .q := by
    cases hverify : s.verify with
    | none => exact absurd hverify hv
    | p => exact .inl rfl
    | q => exact .inr rfl
  rcases hpq with hp | hq
  · exact verdict_p hr hp
  · exact verdict_q hr hq

/-- GENPRIME has passed its precondition on CHECKS (45 R215). -/
theorem checks_ne_zero {safe : Bool} {s : State} (h : Searches (.genprime safe) s) : s.checks ≠ 0 := by
  obtain ⟨_, _, hchecks⟩ := h.request
  exact hchecks ⟨safe, rfl⟩

section
variable {safe : Bool} {s e u : State} (he : Searches (.genprime safe) e) (hk : request e = request s)
include he

/-- GENPRIME goes on where only its working state has changed. -/
theorem searches_of_offWork (hf : offWork u = offWork e) : Searches (.genprime safe) u :=
  ⟨he.search, (eq_of_view hf State.busy).trans he.busy, (eq_of_view hf State.running).trans he.running,
    (eq_of_view hf State.sp).trans he.table, (eq_of_view hf (RequestOk (.genprime safe))).mpr he.request⟩

include hk

/-- A search from GP_CALL brings its value to GP_VERIFY_P as the candidate (45 R212, R218). -/
theorem reaches_candidate {n j k c : Nat} (h : AtOuter .gpCall s e j u)
    (hfinds : SearchFinds s safe e.constrained n j k c) :
    ∃ v, AtOuter .gpVerifyP s e (j + n + 1) v ∧ v.cand.toNat = c ∧ Reaches (69 + 68 * n + 66 * k) u v := by
  have hsu := searches_of_offWork he h.frame
  have hcall : seqStep u = .next { u with verify := .none, seq := .pgAgain } := by
    simp only [seqStep, h.seq, stepGpCall, inSearch_of_searches hsu]
  generalize ha : ({ u with verify := .none, seq := .pgAgain } : State) = a at hcall
  have hau : offWork a = offWork u := ha ▸ rfl
  have hae := hau.trans h.frame
  have hka := (eq_of_view hae request).trans hk
  rw [← eq_of_view hae State.constrained] at hfinds
  obtain ⟨x, hx, hvalue, hreach⟩ :=
    reaches_found (searches_of_offWork he hae) hka hfinds ⟨ha ▸ rfl, rfl, ha ▸ h.words⟩
  have hxe := (eq_of_view hx.frame offWork).trans hae
  have hsx := searches_of_offWork he hxe
  have hsize : Nat.size x.sieved.toNat = x.xl.toNat := by
    rw [hvalue, eq_of_view ((eq_of_view hxe request).trans hk) State.xl]
    exact (clear_of_searchFinds hfinds).2
  have hfound : seqStep x = .next { x with cand := x.sieved, seq := .gpVerifyP } := by
    have hgen : ∃ safe', Instr.genprime safe = .genprime safe' := ⟨safe, rfl⟩
    simp only [seqStep, hx.seq, stepPgFinal_found hsx hsize, if_pos hgen]
  refine ⟨_, ?_, ?_, (((reaches_of_seqStep hsu.busy hcall).trans hreach).trans
    (reaches_of_seqStep hsx.busy hfound)).mono (by omega)⟩
  · exact ⟨rfl, hxe, hx.words⟩
  · exact hvalue

omit hk in
/-- GP_VERIFY_P enters the tester on the candidate (45 R218). -/
theorem reaches_verifyP {n c : Nat} (h : AtOuter .gpVerifyP s e n u) (hcand : u.cand.toNat = c) (hc : c < 2 ^ 32) :
    ∃ v, Verifying .p s e n c c v ∧ Reaches 1 u v := by
  have hsu := searches_of_offWork he h.frame
  have hstep : seqStep u = .next { u with verify := .p, mr := { u.mr with w := loLimb u.cand }, seq := .ipPre } := by
    simp only [seqStep, h.seq, stepGpVerifyP, inSearch_of_searches hsu]
  refine ⟨_, ?_, reaches_of_seqStep hsu.busy hstep⟩
  have hw : (loLimb u.cand).toNat = c := by rw [loLimb_toNat, hcand, Nat.mod_eq_of_lt hc]
  exact ⟨⟨rfl, h.frame, h.words⟩, rfl, hcand, hw⟩

omit hk in
/-- GP_VERIFY_Q enters the tester on the candidate's half (45 R218). -/
theorem reaches_verifyQ {n c : Nat} (h : AtOuter .gpVerifyQ s e n u) (hcand : u.cand.toNat = c) (hpos : 1 ≤ c)
    (hc : c < 2 ^ 32) : ∃ v, Verifying .q s e n c ((c - 1) / 2) v ∧ Reaches 1 u v := by
  have hsu := searches_of_offWork he h.frame
  have hstep : seqStep u =
      .next { u with verify := .q, mr := { u.mr with w := loLimb ((u.cand - 1) >>> 1) }, seq := .ipPre } := by
    simp only [seqStep, h.seq, stepGpVerifyQ, inSearch_of_searches hsu]
  refine ⟨_, ?_, reaches_of_seqStep hsu.busy hstep⟩
  have hw : (loLimb ((u.cand - 1) >>> 1)).toNat = (c - 1) / 2 := by
    rw [loLimb_toNat, half_toNat (hcand ▸ hpos), hcand, Nat.mod_eq_of_lt (by omega)]
  exact ⟨⟨rfl, h.frame, h.words⟩, rfl, hcand, hw⟩

/-! ### One verification -/

variable {vf : Verify} {n n' c w : Nat} (h : Verifying vf s e n c w u) (hw : Testable w)
include h hw

omit hk in
/-- The number under test enters Miller-Rabin (44 R186). -/
theorem verifying_firstRound : ∃ a, AtRound s u n 1 a ∧ Reaches 66 u a := by
  have hsu := searches_of_offWork he h.frame
  obtain ⟨h1, hnone⟩ := h.number.symm ▸ hw
  have htest : Testing u := ⟨hsu.busy, hsu.table, .inr ⟨safe, hsu.running⟩, by simp only [TesterOk, h.seq]⟩
  exact reaches_firstRound htest h.seq (checks_ne_zero hsu) h1 hnone h.words

omit he hw in
theorem checks_of_verifying : u.checks = s.checks :=
  eq_of_view ((eq_of_view h.frame request).trans hk) State.checks

omit he hk hw in
/-- What the tester leaves, GENPRIME finds again at a verdict. -/
theorem verified_of_offTester {x : State} (hf : offTester x = offTester u) (hwords : WordsFrom n' s x) :
    Verified vf s e n' c x :=
  ⟨(eq_of_view hf offWork).trans h.frame, hwords, (eq_of_view hf State.verify).trans h.verify,
    (eq_of_view hf (·.cand.toNat)).trans h.cand⟩

/-- A verification in which every round passes (45 R215). -/
theorem verification_passes (hpassed : RoundsPassed s w s.checks.toNat n n') :
    ∃ x, Verified vf s e n' c x ∧ Decides (66 + 32 * s.checks.toNat + (n' - n)) u (x.verdict true) := by
  have hchecks := checks_of_verifying hk h
  obtain ⟨a, ha, hreach⟩ := verifying_firstRound he h hw
  rw [← h.number, ← hchecks] at hpassed
  obtain ⟨x, hf, hwords, hd⟩ :=
    rounds_conclude_prime ha hpassed (checks_ne_zero (searches_of_offWork he h.frame))
  rw [hchecks] at hd
  exact ⟨x, verified_of_offTester h hf hwords, (hreach.decides hd).mono (by omega)⟩

/-- A verification in which a round fails starts a new search (45 R215, R218). -/
theorem verification_fails (hvf : vf ≠ .none) (hfails : RoundFails s w n n') :
    ∃ v, AtOuter .gpCall s e n' v ∧ Reaches (67 + 32 * s.checks.toNat + (n' - n)) u v := by
  have hchecks := checks_of_verifying hk h
  obtain ⟨a, ha, hreach⟩ := verifying_firstRound he h hw
  rw [← h.number] at hfails
  obtain ⟨x, hf, hwords, hd⟩ := rounds_conclude_composite ha hchecks hfails
  obtain ⟨hframe, _, hverify, _⟩ := verified_of_offTester h hf hwords
  rw [hchecks, verdict_composite (searches_of_offWork he hframe).running (hverify ▸ hvf)] at hd
  refine ⟨_, ?_, (hreach.decides hd).reaches.mono (by omega)⟩
  exact ⟨rfl, hframe, hwords⟩

/-- A verification in which a base draw exhausts (44 R181, 60 R279). -/
theorem verification_inconclusive (hexhausts : DrawExhausts s w n n') :
    ∃ x, Verified vf s e n' c x ∧
      Decides (66 + 32 * s.checks.toNat + (n' - n)) u (.next (x.raise .primalityInconclusive)) := by
  have hchecks := checks_of_verifying hk h
  obtain ⟨a, ha, hreach⟩ := verifying_firstRound he h hw
  rw [← h.number] at hexhausts
  obtain ⟨x, hf, hwords, hd⟩ := rounds_conclude_inconclusive ha hchecks hexhausts
  rw [hchecks] at hd
  exact ⟨x, verified_of_offTester h hf hwords, (hreach.decides hd).mono (by omega)⟩

end

/-! ### The verifications of a candidate -/

section
variable {safe : Bool} {s e u : State} {n n' c : Nat} (he : Searches (.genprime safe) e) (hk : request e = request s)
  (h : AtOuter .gpVerifyP s e n u) (hcand : u.cand.toNat = c) (hc : c < 2 ^ 32) (hp : Testable c)
include he hk h hcand hc hp

/-- In safe mode the half of a candidate that passes is verified next (45 R218). -/
theorem reaches_secondVerification (hsafe : safe = true) (hpassed : RoundsPassed s c s.checks.toNat n n') :
    ∃ v, Verifying .q s e n' c ((c - 1) / 2) v ∧ Reaches (69 + 32 * s.checks.toNat + (n' - n)) u v := by
  obtain ⟨a, ha, hreach⟩ := reaches_verifyP he h hcand hc
  obtain ⟨x, hx, hd⟩ := verification_passes he hk ha hp hpassed
  rw [verdict_p (searches_of_offWork he hx.frame).running hx.verify, if_pos rfl, if_pos hsafe] at hd
  obtain ⟨v, hv, hreach'⟩ := reaches_verifyQ (u := { x with seq := .gpVerifyQ }) he ⟨rfl, hx.frame, hx.words⟩ hx.cand
    hp.1.le hc
  exact ⟨v, hv, ((hreach.decides hd).reaches.trans hreach').mono (by omega)⟩

variable (hq : safe = true → Testable ((c - 1) / 2))
include hq

/-- A candidate that passes ends GENPRIME (45 R215). -/
theorem candidate_passes (hpasses : CandidatePasses s safe c n n') :
    n ≤ n' ∧ ∃ vf x, Verified vf s e n' c x ∧
      Decides (135 + 64 * s.checks.toNat + (n' - n)) u (.next (x.finish32 (loLimb x.cand))) := by
  obtain ⟨j, hpassed, hhalf⟩ := hpasses
  have hj := roundsPassed_words hpassed
  by_cases hsafe : safe = true
  · rw [if_pos hsafe] at hhalf
    have hn' := roundsPassed_words hhalf
    obtain ⟨a, ha, hreach⟩ := reaches_secondVerification he hk h hcand hc hp hsafe hpassed
    obtain ⟨x, hx, hd⟩ := verification_passes he hk ha (hq hsafe) hhalf
    rw [verdict_q (searches_of_offWork he hx.frame).running hx.verify, if_pos rfl] at hd
    exact ⟨by omega, .q, x, hx, (hreach.decides hd).mono (by omega)⟩
  · rw [if_neg hsafe] at hhalf
    subst hhalf
    obtain ⟨a, ha, hreach⟩ := reaches_verifyP he h hcand hc
    obtain ⟨x, hx, hd⟩ := verification_passes he hk ha hp hpassed
    rw [verdict_p (searches_of_offWork he hx.frame).running hx.verify, if_pos rfl, if_neg hsafe] at hd
    exact ⟨hj.1, .p, x, hx, (hreach.decides hd).mono (by omega)⟩

/-- A candidate with an inconclusive verification ends GENPRIME with PrimalityInconclusive (45 R215, 60 R279). -/
theorem candidate_inconclusive (hincon : CandidateInconclusive s safe c n n') :
    n ≤ n' ∧ ∃ vf x, Verified vf s e n' c x ∧
      Decides (135 + 64 * s.checks.toNat + (n' - n)) u (.next (x.raise .primalityInconclusive)) := by
  rcases hincon with hexhausts | ⟨hsafe, j, hpassed, hexhausts⟩
  · obtain ⟨a, ha, hreach⟩ := reaches_verifyP he h hcand hc
    obtain ⟨x, hx, hd⟩ := verification_inconclusive he hk ha hp hexhausts
    exact ⟨le_of_drawExhausts hexhausts, .p, x, hx, (hreach.decides hd).mono (by omega)⟩
  · have hj := roundsPassed_words hpassed
    have hn' := le_of_drawExhausts hexhausts
    obtain ⟨a, ha, hreach⟩ := reaches_secondVerification he hk h hcand hc hp hsafe hpassed
    obtain ⟨x, hx, hd⟩ := verification_inconclusive he hk ha (hq hsafe) hexhausts
    exact ⟨by omega, .q, x, hx, (hreach.decides hd).mono (by omega)⟩

/-- A candidate with a round that fails is refused: GENPRIME is back at GP_CALL (45 R215, R218). -/
theorem candidate_fails (hfails : CandidateFails s safe c n n') :
    ∃ v, AtOuter .gpCall s e n' v ∧ n ≤ n' ∧ Reaches (136 + 64 * s.checks.toNat + (n' - n)) u v := by
  rcases hfails with hround | ⟨hsafe, j, hpassed, hround⟩
  · have hn' := le_of_roundFails hround
    obtain ⟨a, ha, hreach⟩ := reaches_verifyP he h hcand hc
    obtain ⟨v, hv, hreach'⟩ := verification_fails he hk ha hp (by simp) hround
    exact ⟨v, hv, hn', (hreach.trans hreach').mono (by omega)⟩
  · have hj := roundsPassed_words hpassed
    have hn' := le_of_roundFails hround
    obtain ⟨a, ha, hreach⟩ := reaches_secondVerification he hk h hcand hc hp hsafe hpassed
    obtain ⟨v, hv, hreach'⟩ := verification_fails he hk ha (hq hsafe) (by simp) hround
    exact ⟨v, hv, by omega, (hreach.trans hreach').mono (by omega)⟩

end

/-- Refused candidates lead back to GP_CALL, each within its search and 136 transitions and 64 a round (45 R218). -/
theorem reaches_nextCall {safe : Bool} {s e u : State} {m j j' t : Nat} (he : Searches (.genprime safe) e)
    (hk : request e = request s) (hbits : BitsOk s.xl.toNat safe) (hex : s.params.selfExempt = false)
    (hfail : CandidatesFail s safe e.constrained m j j' t) (h : AtOuter .gpCall s e j u) :
    ∃ v, AtOuter .gpCall s e j' v ∧ j ≤ j' ∧ Reaches (t + m * (136 + 64 * s.checks.toNat) + (j' - j)) u v := by
  induction m generalizing j t u with
  | zero =>
    obtain ⟨rfl, rfl⟩ := hfail
    exact ⟨u, h, le_rfl, (Reaches.refl u).mono (Nat.zero_le _)⟩
  | succ m ih =>
    obtain ⟨n, k, c, j1, t', rfl, hfinds, hfails, hrest⟩ := hfail
    obtain ⟨hc, hp, hq⟩ := testable_of_searchFinds hbits hex hfinds
    obtain ⟨v, hv, hcand, hreach⟩ := reaches_candidate he hk h hfinds
    obtain ⟨x, hx, hj1, hreach'⟩ := candidate_fails he hk hv hcand hc hp hq hfails
    obtain ⟨y, hy, hj', hreach''⟩ := ih hrest hx
    rw [Nat.succ_mul m]
    exact ⟨y, hy, by omega, ((hreach.trans hreach').trans hreach'').mono (by omega)⟩

/-! ### GENPRIME -/

/-- What GENPRIME does not write while it runs, and the words taken, say all of its state but its working state. -/
theorem eq_afterCalls_of_offWork {s e u : State} {n : Nat} (hf : offWork u = offWork e) (he : source e = source s)
    (hwords : WordsFrom n s u) :
    u = { afterCalls e (3 * n) with
      seq := u.seq, verify := u.verify, cand := u.cand, mods := u.mods, delta := u.delta, div := u.div, exp := u.exp
      draw := u.draw, mr := u.mr } := by
  obtain ⟨hin, hcalls⟩ := port_of_wordsFrom he hwords
  calc u = { offWork u with
      seq := u.seq, verify := u.verify, cand := u.cand, mods := u.mods, delta := u.delta, div := u.div, exp := u.exp
      draw := u.draw, mr := u.mr, rngIn := u.rngIn, rngCalls := u.rngCalls } := rfl
    _ = { offWork e with
      seq := u.seq, verify := u.verify, cand := u.cand, mods := u.mods, delta := u.delta, div := u.div, exp := u.exp
      draw := u.draw, mr := u.mr, rngIn := e.rngIn.drop (3 * n), rngCalls := e.rngCalls + 3 * n } := by
        rw [hf, hin, hcalls]
    _ = _ := rfl

/-- GENPRIME at its first GP_CALL (45 R218). -/
def genprimeEntry (safe : Bool) (s : State) : State := { s.start (.genprime safe) with seq := .gpCall }

section
variable {s : State} {safe : Bool} (hready : ReadyTables s) (hreq : RequestOk (.genprime safe) s)
include hready hreq

theorem searches_genprimeEntry : Searches (.genprime safe) (genprimeEntry safe s) :=
  ⟨⟨safe, .inr (.inr rfl)⟩, rfl, rfl, hready.2, hreq⟩

/-- GENPRIME ends as a transition after a verification does, in a turn that is long enough; working state is open. -/
theorem exec_genprime_of_verified {x : State} {vf : Verify} {n m c : Nat}
    (hx : Verified vf s (genprimeEntry safe s) n c x) {t : State → State}
    (hd : Decides m (genprimeEntry safe s) (.next (t x))) (hidle : (t x).busy = false) (hm : m + 1 ≤ s.pace) :
    exec (.genprime safe) s = .next (t { afterCalls (genprimeEntry safe s) (3 * n) with
      seq := x.seq, verify := x.verify, cand := x.cand, mods := x.mods, delta := x.delta, div := x.div, exp := x.exp
      draw := x.draw, mr := x.mr }) := by
  have hi : IsSearch (.genprime safe) := ⟨safe, .inr (.inr rfl)⟩
  rw [exec_search hready.1 hi, ← eq_afterCalls_of_offWork hx.frame rfl hx.words]
  exact engineTurn_of_reaches ((reaches_afterCheck hi hreq).trans hd.reaches) hidle
    (show _ ≤ s.pace + 1 by omega)

/-- After refused candidates GENPRIME brings what its next search finds to GP_VERIFY_P. -/
theorem genprime_reaches_candidate {m j t n k c : Nat} (hex : s.params.selfExempt = false)
    (hfail : CandidatesFail s safe (s.add != 0) m 0 j t) (hfinds : SearchFinds s safe (s.add != 0) n j k c) :
    ∃ v, AtOuter .gpVerifyP s (genprimeEntry safe s) (j + n + 1) v ∧ v.cand.toNat = c ∧
      Reaches (t + m * (136 + 64 * s.checks.toNat) + j + (69 + 68 * n + 66 * k)) (genprimeEntry safe s) v := by
  have he := searches_genprimeEntry hready hreq
  have hk : request (genprimeEntry safe s) = request s := rfl
  obtain ⟨u, hu, _, hreach⟩ := reaches_nextCall he hk hreq.1 hex hfail ⟨rfl, rfl, rfl⟩
  obtain ⟨v, hv, hcand, hreach'⟩ := reaches_candidate he hk hu hfinds
  exact ⟨v, hv, hcand, hreach.trans hreach'⟩

end

/-- Settles O40: the refused candidates, the search of the last one, and its verifications, one after the other. -/
theorem genprimeReturnsAVerifiedCandidate : Obligations.GenprimeReturnsAVerifiedCandidate := by
  intro s safe m j t n k c w hready hbits hchecks hex hfail hfinds hpace
  have hreq : RequestOk (.genprime safe) s := ⟨hbits, by simp, fun _ => hchecks⟩
  have he := searches_genprimeEntry hready hreq
  have hk : request (genprimeEntry safe s) = request s := rfl
  obtain ⟨hc, hp, hq⟩ := testable_of_searchFinds hbits hex hfinds
  obtain ⟨v, hv, hcand, hreach⟩ := genprime_reaches_candidate hready hreq hex hfail hfinds
  rw [Nat.succ_mul m] at hpace
  refine ⟨fun hpasses => ?_, fun hincon => ?_⟩
  · obtain ⟨hw, vf, x, hx, hd⟩ := candidate_passes he hk hv hcand hc hp hq hpasses
    have hpl : loLimb x.cand = BitVec.ofNat 32 c := (loLimb_eq_lower _).trans (congrArg lower hx.cand)
    rw [hpl] at hd
    exact ⟨x.cand, x.mods, x.delta, x.div, x.exp, x.draw, x.mr,
      exec_genprime_of_verified hready hreq hx (hreach.decides hd) rfl (by omega)⟩
  · obtain ⟨hw, vf, x, hx, hd⟩ := candidate_inconclusive he hk hv hcand hc hp hq hincon
    exact ⟨x.cand, x.mods, x.delta, x.div, x.exp, x.draw, x.mr,
      exec_genprime_of_verified hready hreq hx (hreach.decides hd) rfl (by omega)⟩

end Sys2Proof.Proofs

/-! The setup and system commands (46 R231 to R233): the content of the two tables that they fill, entry by entry, as
numbers; then the obligations. -/

namespace Sys2Proof.Proofs

open Sys2Proof.Machine Sys2Proof.Safety Sys2Proof.Laws

/-! ### The small-prime table -/

theorem length_filter_range (p : Nat → Prop) [DecidablePred p] (n : Nat) :
    ((List.range n).filter p).length = Nat.count p n := List.countP_eq_length_filter.symm

/-- The numbers below `n` with a property, in order, are the first ones of all that have it. -/
theorem getElem?_filter_range {p : Nat → Prop} [DecidablePred p] {n i : Nat} (hi : i < Nat.count p n) :
    ((List.range n).filter p)[i]? = some (Nat.nth p i) := by
  induction n with
  | zero => exact absurd hi (Nat.not_lt_zero i)
  | succ n ih =>
    rw [List.range_succ, List.filter_append]
    by_cases hold : i < Nat.count p n
    · rw [List.getElem?_append_left (length_filter_range p n ▸ hold), ih hold]
    · have hn : p n := by
        by_contra hn
        exact hold (Nat.count_succ_eq_count_iff.mpr hn ▸ hi)
      obtain rfl : i = Nat.count p n := by
        rw [Nat.count_succ_eq_succ_count_iff.mpr hn] at hi
        omega
      rw [List.getElem?_append_right (length_filter_range p n).le, length_filter_range, Nat.sub_self, Nat.nth_count hn]
      simp [hn]

/-- The `i`-th entry is the `i`-th prime (10 R33): the table is all the primes below 312, in order. -/
theorem tablePrime_eq_nth {i : Nat} (hi : i < 64) : tablePrime i = Nat.nth Nat.Prime i := by
  have hcount : Nat.count Nat.Prime 312 = 64 := by
    rw [← length_filter_range, ← tablePrimes_eq_filter, tablePrimes_length]
  rw [tablePrime, List.getD_eq_getElem?_getD, tablePrimes_eq_filter, getElem?_filter_range (hcount ▸ hi),
    Option.getD_some]

/-! ### The power table -/

/-- The `i`-th entry is `2^i` (10 R34): a place below 32 keeps the bit in the word. -/
theorem powersOfTwo_toNat {i : Nat} (hi : i < 32) : (powersOfTwo.getD i 0).toNat = 2 ^ i := by
  have hentry : powersOfTwo.getD i 0 = 1#32 <<< i := by
    simp [powersOfTwo, List.getD_eq_getElem?_getD, hi]
  have hfits : 2 ^ i < 2 ^ 32 := Nat.pow_lt_pow_right (by decide) hi
  rw [hentry, BitVec.toNat_shiftLeft, Nat.shiftLeft_eq, BitVec.toNat_one (by decide), Nat.one_mul,
    Nat.mod_eq_of_lt hfits]

/-! ### The obligations -/

/-- NOP changes the outcome, and nothing else (46 R231). -/
theorem exec_nop (s : State) : exec .nop s = .next (ended s 0 0 0 0 false) := rfl

/-- Settles O44: the command's equation, and the table's entries as numbers. -/
theorem initspFillsTheSmallPrimeTable : Obligations.InitspFillsTheSmallPrimeTable :=
  ⟨decode_of_encode rfl, fun s => ⟨smallPrimes, exec_initsp s, rfl, fun i hi => by
    rw [smallPrimes_toNat, tablePrime_eq_nth hi]⟩⟩

/-- Settles O45: the command's equation, and the table's entries as numbers. -/
theorem initptFillsThePowerTable : Obligations.InitptFillsThePowerTable :=
  ⟨decode_of_encode rfl, fun s => ⟨powersOfTwo, exec_initpt s, rfl, fun _ hi => powersOfTwo_toNat hi⟩⟩

/-- Settles O46: the command's equation. -/
theorem nopClearsResults : Obligations.NopClearsResults :=
  ⟨decode_of_encode rfl, exec_nop⟩

end Sys2Proof.Proofs

/-! The errors (60 R270 to R282): the refusal before setup; what operands InvalidParameter refuses, and how every other
command of one transition ends; what a transition of a running command can raise, and so a turn; and that nothing stops
the machine. -/

namespace Sys2Proof.Proofs

open Sys2Proof.Machine Sys2Proof.Safety Sys2Proof.Laws

/-! ### Before setup -/

/-- Every command but the exempt ones is gated by the setup (60 R274). -/
theorem exec_gated (s : State) {i : Instr} (hi : ¬ IsExempt i) : ∃ body, exec i s = s.command i body := by
  cases i with
  | nop | initsp | initpt | seedrng => simp at hi
  | cmp32 | add32 | sub32 | neg32 | srl32 | sll32 | mul32 | bitlen32 | divrem32 => unfold exec; exact ⟨_, rfl⟩
  | cmp64 | add64 | sub64 | neg64 | srl64 | sll64 | bitlen64 | divrem64 => unfold exec; exact ⟨_, rfl⟩
  | mulmod | expmod | invmod => unfold exec; exact ⟨_, rfl⟩
  | rand32 | randbits | randrange | isprime | mrround => unfold exec; exact ⟨_, rfl⟩
  | probprime safe | probprimedh safe | genprime safe => unfold exec; exact ⟨_, rfl⟩

theorem exec_not_ready {s : State} {i : Instr} (hi : ¬ IsExempt i) (h : ¬ Ready s) :
    exec i s = .next (failed s 7) := by
  obtain ⟨body, e⟩ := exec_gated s hi
  rw [e, command_not_ready h]

/-- An exempt command ends without error in every state (60 R274). -/
theorem exec_exempt (s : State) {i : Instr} (hi : IsExempt i) :
    Goes (fun t => t.busy = false ∧ t.err = 0) (exec i s) := by
  rcases hi with rfl | rfl | rfl | rfl
  · exact ⟨_, exec_nop s, rfl, rfl⟩
  · exact ⟨_, exec_initsp s, rfl, rfl⟩
  · exact ⟨_, exec_initpt s, rfl, rfl⟩
  · exact ⟨_, exec_seedrng s, rfl, rfl⟩

/-- Settles O47: the gate's refusal, and the equations of the exempt commands. -/
theorem commandsBeforeSetupAreRefused : Obligations.CommandsBeforeSetupAreRefused :=
  fun s _ => ⟨exec_not_ready, exec_exempt s⟩

/-! ### Bad operands -/

/-- A 64-bit divisor is 0 when both its limbs are. -/
theorem opB64_eq_zero_iff_limbs (s : State) : s.opB64 = 0 ↔ s.yh = 0 ∧ s.yl = 0 := by
  have limb (w : Word32) : w = 0 ↔ w.toNat = 0 := BitVec.toNat_inj.symm
  rw [opB64_eq_zero_iff, value64, limb, limb]
  omega

/-- The causes for a generator are the preconditions of its request (45 R202, R203, R211, R215). -/
theorem badOperands_iff_of_search {s : State} {i : Instr} (hi : IsSearch i) : BadOperands i s ↔ ¬ RequestOk i s := by
  obtain ⟨safe, rfl | rfl | rfl⟩ := hi <;> simp only [BadOperands, RequestOk, safeFlag]
  · simp
  · simp [imp_iff_or_not, or_comm]
  · simp [imp_iff_or_not, or_comm]

/-- The commands that 60 R275 names. -/
abbrev HasBadOperands (i : Instr) : Prop :=
  i = .divrem32 ∨ i = .divrem64 ∨ i = .mulmod ∨ i = .expmod ∨ i = .randbits ∨ i = .randrange ∨ i = .isprime ∨
    i = .mrround ∨ IsSearch i

theorem hasBadOperands_of_badOperands {s : State} {i : Instr} (h : BadOperands i s) : HasBadOperands i := by
  cases i with
  | divrem32 | divrem64 | mulmod | expmod | randbits | randrange | isprime | mrround => simp [HasBadOperands]
  | probprime safe | probprimedh safe | genprime safe => simp [HasBadOperands]
  | _ => exact h.elim

theorem hasBadOperands_of_isLoop {i : Instr} (h : IsLoop i) : HasBadOperands i := by
  rcases h with rfl | rfl | hsearch
  · simp [HasBadOperands]
  · simp [HasBadOperands]
  · simp [HasBadOperands, hsearch]

/-- Bad operands are refused with InvalidParameter, with nothing drawn; only the tester's working registers may have
been written (60 R275). -/
theorem exec_badOperands {s : State} {i : Instr} (h : Ready s) (hbad : BadOperands i s) :
    ∃ w, exec i s = .next { failed s 1 with mr := w } := by
  rcases hasBadOperands_of_badOperands hbad with rfl | rfl | rfl | rfl | rfl | rfl | rfl | rfl | hi
  · exact ⟨s.mr, exec_divrem32_zero h hbad⟩
  · exact ⟨s.mr, exec_divrem64_zero h ((opB64_eq_zero_iff_limbs s).mpr hbad)⟩
  · exact ⟨s.mr, exec_mulmod_zero h hbad⟩
  · exact ⟨s.mr, exec_expmod_zero h hbad⟩
  · exact ⟨s.mr, exec_randbits_wide h hbad⟩
  · exact ⟨s.mr, exec_randrange_zero h hbad⟩
  · exact exec_isprime_refused h hbad
  · exact ⟨s.mr, exec_mrround_bad h (by simp only [BadOperands] at hbad; omega)⟩
  · exact ⟨s.mr, exec_search_refused h hi ((badOperands_iff_of_search hi).mp hbad)⟩

/-! ### The commands of one transition on good operands -/

/-- PH, PL, QH, QL and C are 0: no partial result (60 R272). -/
abbrev NoResult (t : State) : Prop := t.ph = 0 ∧ t.pl = 0 ∧ t.qh = 0 ∧ t.ql = 0 ∧ t.carry = false

/-- How a command of one transition ends that accepts its operands: without error, or, for INVMOD, with NoInverseExists
(60 R277). -/
def EndsWell (i : Instr) (t : State) : Prop :=
  t.busy = false ∧ (t.err = 0 ∨ (i = .invmod ∧ t.err = 3 ∧ NoResult t))

theorem goes_ended {s : State} {i : Instr} {ph pl qh ql : Word32} {c : Bool}
    (e : exec i s = .next (ended s ph pl qh ql c)) : Goes (EndsWell i) (exec i s) := ⟨_, e, rfl, .inl rfl⟩

section
variable {s : State} (h : Ready s)
include h

theorem exec_invmod_endsWell : Goes (EndsWell .invmod) (exec .invmod s) := by
  by_cases hsmall : s.m = 0 ∨ s.m = 1
  · exact ⟨_, exec_invmod_small h hsmall, rfl, .inr ⟨rfl, rfl, rfl, rfl, rfl, rfl, rfl⟩⟩
  · have hne : s.m ≠ 0#32 := fun e => hsmall (.inl e)
    rw [exec_invmod_large h hsmall hne]
    cases invResult (invRun s.xl s.m hne) s.m hne with
    | none => exact goes_next ⟨rfl, .inr ⟨rfl, rfl, rfl, rfl, rfl, rfl, rfl⟩⟩
    | some v => exact goes_next ⟨rfl, .inl rfl⟩

theorem exec_mrround_endsWell (hgood : ¬ BadOperands .mrround s) : Goes (EndsWell .mrround) (exec .mrround s) := by
  have hok : RoundOperandsOk s.xl s.yl := by
    simp only [BadOperands] at hgood
    omega
  have hw : s.xl ≠ 0#32 := ne_zero_of_toNat_pos (by omega)
  exact ⟨_, exec_mrround_ok h hw hok, rfl, .inl rfl⟩

/-- After setup a command of one transition that accepts its operands ends, in every state. -/
theorem exec_once_endsWell {i : Instr} (hi : IsOnce i) (hgood : ¬ BadOperands i s) : Goes (EndsWell i) (exec i s) := by
  obtain ⟨hloop, hsp, hpt, hseed⟩ := hi
  cases i with
  | nop => exact goes_ended (exec_nop s)
  | cmp32 => exact goes_ended (exec_cmp32 h)
  | add32 => exact goes_ended (exec_add32 h)
  | sub32 => exact goes_ended (exec_sub32 h)
  | neg32 => exact goes_ended (exec_neg32 h)
  | srl32 => exact goes_ended (exec_srl32 h)
  | sll32 => exact goes_ended (exec_sll32 h)
  | mul32 => exact goes_ended (exec_mul32 h)
  | bitlen32 => exact goes_ended (exec_bitlen32 h)
  | divrem32 => exact ⟨_, exec_divrem32_ne h hgood, rfl, .inl rfl⟩
  | cmp64 => exact goes_ended (exec_cmp64 h)
  | add64 => exact goes_ended (exec_add64 h)
  | sub64 => exact goes_ended (exec_sub64 h)
  | neg64 => exact goes_ended (exec_neg64 h)
  | srl64 => exact goes_ended (exec_srl64 h)
  | sll64 => exact goes_ended (exec_sll64 h)
  | bitlen64 => exact goes_ended (exec_bitlen64 h)
  | divrem64 => exact ⟨_, exec_divrem64_ne h (mt (opB64_eq_zero_iff_limbs s).mp hgood), rfl, .inl rfl⟩
  | mulmod => exact ⟨_, exec_mulmod_ne h hgood, rfl, .inl rfl⟩
  | expmod => exact ⟨_, exec_expmod_ne h hgood, rfl, .inl rfl⟩
  | invmod => exact exec_invmod_endsWell h
  | seedrng => exact absurd rfl hseed
  | rand32 => exact ⟨_, exec_rand32 h, rfl, .inl rfl⟩
  | randbits => exact ⟨_, exec_randbits_fits h (Nat.le_of_not_lt hgood), rfl, .inl rfl⟩
  | mrround => exact exec_mrround_endsWell h hgood
  | randrange | isprime | probprime safe | probprimedh safe | genprime safe => simp at hloop
  | initsp => exact absurd rfl hsp
  | initpt => exact absurd rfl hpt

end

/-! ### Nothing stops the machine -/

/-- A command of one transition has a next state, whatever the state is. -/
theorem exec_once_next (s : State) {i : Instr} (hi : IsOnce i) : ∃ t, exec i s = .next t := by
  by_cases hexempt : IsExempt i
  · obtain ⟨t, e, _⟩ := exec_exempt s hexempt
    exact ⟨t, e⟩
  by_cases h : Ready s
  · by_cases hbad : BadOperands i s
    · obtain ⟨w, e⟩ := exec_badOperands h hbad
      exact ⟨_, e⟩
    · obtain ⟨t, e, _⟩ := exec_once_endsWell h hi hbad
      exact ⟨t, e⟩
  · exact ⟨_, exec_not_ready hexempt h⟩

theorem engineTurn_next {s : State} (h : Inv s) : ∃ t, engineTurn s = .next t := by
  obtain ⟨t, e, _⟩ := engineTurn_inv h
  exact ⟨t, e⟩

/-- A command that the host starts does not stop the machine. -/
theorem exec_next {s : State} {i : Instr} (h : Inv s) (hcmd : decode s.cmd = some i) : ∃ t, exec i s = .next t := by
  cases i using instr_kinds with
  | initsp => exact ⟨_, exec_initsp s⟩
  | initpt => exact ⟨_, exec_initpt s⟩
  | seedrng => exact ⟨_, exec_seedrng s⟩
  | loop i hi =>
    rcases exec_loop s hi with ⟨_, e⟩ | ⟨hready, e⟩ <;> rw [e]
    · exact ⟨_, rfl⟩
    · exact engineTurn_next (loopEntry_inv h hi hready hcmd)
  | once i hi => exact exec_once_next s hi

theorem acceptCommand_next {s : State} (h : Inv s) (hidle : s.busy = false) (w : Word32) :
    ∃ t, acceptCommand w s = .next t := by
  unfold acceptCommand
  split
  next i hdec => exact exec_next (inv_cmd h hidle w) hdec
  next => exact ⟨_, rfl⟩

theorem hostWrite_next {s : State} (h : Inv s) (idx : RegIndex) (v : Word32) : ∃ t, hostWrite idx v s = .next t := by
  unfold hostWrite
  split_ifs with hbusy
  · exact engineTurn_next h
  · exact acceptCommand_next h (by simpa using hbusy) v
  · exact ⟨_, rfl⟩

theorem hostTurn_next {s : State} (h : Inv s) (a : HostAction) : ∃ t, hostTurn a s = .next t := by
  cases a with
  | write idx v => exact hostWrite_next h idx v
  | read idx =>
    obtain ⟨n, hn⟩ := memRead_state s idx
    simp only [hostTurn, hostRead, hn]
    exact engineTurn_next (inv_host h s.hostQueue _ n)
  | wait =>
    simp only [hostTurn, hostWait]
    split_ifs
    · exact ⟨s, rfl⟩
    · exact engineTurn_next (inv_host h _ s.hostOut s.freeReads)
  | pass => exact engineTurn_next h
  | reset => exact ⟨_, rfl⟩

/-- Settles O60: the engine's turn goes on under the invariant, and so does every host action. -/
theorem noStepStopsTheMachine : Obligations.NoStepStopsTheMachine := by
  intro s h
  unfold step
  cases s.hostQueue with
  | nil => exact engineTurn_next h
  | cons a rest => exact hostTurn_next (inv_host h rest s.hostOut s.freeReads) a

/-! ### What a transition of a running command can raise -/

/-- The commands in which the tester runs (44 R186, 45 R218). -/
abbrev RunsTester (i : Instr) : Prop := i = .isprime ∨ ∃ safe, i = .genprime safe

/-- In a state of the sequencer under the command `i`, with `w` under test: the verifications run under the tester's
commands alone, and past the pre-checks of 44 R177 the number is not 3, so that a base can be drawn. -/
def PlacedAt (i : Instr) (w : Word32) : Seq → Prop
  | .ipPre | .gpVerifyP | .gpVerifyQ => RunsTester i
  | .ipTrial _ | .ipFactor | .ipRound _ _ | .ipSquare _ _ => w ≠ 3
  | .rrTry _ => i = .randrange ∨ w ≠ 3
  | _ => True

/-- The sequencer is where the command `i` can bring it; unlike the invariant, this rests on no table. -/
def Placed (i : Instr) (s : State) : Prop := PlacedAt i s.mr.w s.seq

/-- The errors that a transition of the running command `i` can raise in `s`, and their causes (60 R275, R276, R279). -/
def MayRaise (i : Instr) (s : State) : ErrKind → Prop
  | .invalidParameter => Placed i s → BadOperands i s
  | .samplingExhausted => i = .randrange
  | .primalityInconclusive => RunsTester i
  | _ => False

/-- What transitions of the running command `i` can lead to from `s`: it still runs, it has ended without error, or it
has raised one of its errors. -/
def Leads (i : Instr) (s t : State) : Prop :=
  (t.running = some i ∧ (Placed i s → Placed i t)) ∨ (∃ u pl, t = State.finish32 pl u) ∨
    ∃ u e, t = State.raise e u ∧ MayRaise i s e

section
variable {i : Instr} {s u : State}

theorem leads_runs (hr : u.running = some i) (hp : Placed i s → Placed i u) : Leads i s u := .inl ⟨hr, hp⟩

theorem leads_finish32 (pl : Word32) : Leads i s (u.finish32 pl) := .inr (.inl ⟨u, pl, rfl⟩)

theorem leads_raise {e : ErrKind} (h : MayRaise i s e) : Leads i s (u.raise e) := .inr (.inr ⟨u, e, rfl, h⟩)

/-- The search's transitions that only move on. -/
theorem inSearch_goTo_leads (hr : u.running = some i) (hp : Placed i s → Placed i u) :
    Always (Leads i s) (s.inSearch fun _ => .next u) := always_inSearch fun _ => always_next.mpr (leads_runs hr hp)

section
variable {prime : Bool} {j : Nat} {v : Word32} (hr : u.running = some i)
include hr

theorem runsTester_of_running (h : u.running = some .isprime ∨ ∃ safe, u.running = some (.genprime safe)) :
    RunsTester i := by
  simpa [RunsTester, hr] using h

theorem verdict_leads : Always (Leads i s) (u.verdict prime) := by
  intro t ht
  rcases verdict_next ht with
    ⟨_, rfl⟩ | ⟨safe, hg, ⟨_, _, _, rfl⟩ | ⟨_, _, _, rfl⟩ | ⟨_, _, rfl⟩ | ⟨_, _, rfl⟩⟩
  · exact leads_finish32 _
  · exact leads_runs hr fun _ => runsTester_of_running hr (.inr ⟨safe, hg⟩)
  · exact leads_finish32 _
  · exact leads_finish32 _
  · exact leads_runs hr fun _ => trivial

theorem roundPassed_leads (hp : Placed i s → u.mr.w ≠ 3) : Always (Leads i s) (u.roundPassed j) := by
  intro t ht
  rcases roundPassed_next ht with ⟨_, rfl⟩ | ⟨_, hv⟩
  · exact leads_runs hr hp
  · exact verdict_leads hr t hv

theorem drawAccepted_leads (hp : Placed i s → i = .randrange ∨ u.mr.w ≠ 3) :
    Always (Leads i s) (u.drawAccepted v) := by
  intro t ht
  rcases drawAccepted_next ht with ⟨_, rfl⟩ | ⟨htest, rfl⟩
  · exact leads_finish32 _
  · refine leads_runs hr fun h => (hp h).resolve_left ?_
    rintro rfl
    simpa [RunsTester] using runsTester_of_running hr htest

theorem drawExhausted_leads : Always (Leads i s) u.drawExhausted := by
  intro t ht
  rcases drawExhausted_next ht with ⟨hrange, rfl⟩ | ⟨htest, rfl⟩
  · exact leads_raise (Option.some.inj (hr.symm.trans hrange))
  · exact leads_raise (runsTester_of_running hr htest)

end

end

section
variable {i : Instr} {s : State} (hr : s.running = some i)
include hr

theorem stepRrTry_leads (k : Nat) (hp : Placed i s → i = .randrange ∨ s.mr.w ≠ 3) :
    Always (Leads i s) (stepRrTry k s) := by
  rcases stepRrTry_cases k s with ⟨v, _, e⟩ | ⟨_, e⟩ | e <;> rw [e]
  · exact drawAccepted_leads hr hp
  · exact always_next.mpr (leads_runs hr hp)
  · exact drawExhausted_leads hr

theorem stepIpPre_leads (hp : Placed i s → RunsTester i) : Always (Leads i s) (stepIpPre s) := by
  unfold stepIpPre
  split_ifs with hchecks hsmall heven hthree
  · refine always_next.mpr (leads_raise fun h => ?_)
    rcases hp h with rfl | ⟨safe, rfl⟩
    · exact hchecks
    · exact .inr hchecks
  · exact verdict_leads hr
  · exact verdict_leads hr
  · exact verdict_leads hr
  · exact always_next.mpr (leads_runs hr fun _ => hthree)

theorem stepIpDraw_leads (j : Nat) (hp : Placed i s → s.mr.w ≠ 3) : Always (Leads i s) (stepIpDraw j s) := by
  refine always_next.mpr ?_
  rcases beginDraw_cases { s with mr := { s.mr with round := j } } (s.mr.w - 3) with ⟨hzero, e⟩ | ⟨_, e⟩ <;> rw [e]
  · exact leads_raise fun h => absurd (sub_eq_zero.mp hzero) (hp h)
  · exact leads_runs hr fun h => .inr (hp h)

theorem stepIpTrial_leads (k : Nat) (hp : Placed i s → s.mr.w ≠ 3) : Always (Leads i s) (stepIpTrial k s) := by
  refine always_divide fun d => ?_
  dsimp only
  split_ifs
  · exact verdict_leads hr
  · exact always_next.mpr (leads_runs hr hp)
  · exact always_next.mpr (leads_runs hr hp)

theorem stepIpPower_leads (j : Nat) (hp : Placed i s → s.mr.w ≠ 3) : Always (Leads i s) (stepIpPower j s) := by
  simp only [stepIpPower]
  split_ifs
  · exact always_fault.mpr trivial
  · exact roundPassed_leads hr hp
  · exact always_next.mpr (leads_runs hr hp)
  · exact verdict_leads hr

theorem stepIpSquare_leads (j k : Nat) (hp : Placed i s → s.mr.w ≠ 3) : Always (Leads i s) (stepIpSquare j k s) := by
  simp only [stepIpSquare]
  split_ifs
  · exact always_fault.mpr trivial
  · exact roundPassed_leads hr hp
  · exact verdict_leads hr
  · exact always_next.mpr (leads_runs hr hp)
  · exact verdict_leads hr

theorem stepPgCheck_leads : Always (Leads i s) (stepPgCheck s) := by
  intro t ht
  obtain ⟨safe, hrun, _⟩ := inSearch_next ht
  have hi : IsSearch i := ⟨safe, by simpa [hr] using hrun⟩
  rcases stepPgCheck_cases hi hr with ⟨_, e⟩ | ⟨hbad, e⟩ <;> cases e.symm.trans ht
  · refine leads_runs hr fun _ => ?_
    obtain ⟨safe, rfl | rfl | rfl⟩ := hi <;> exact trivial
  · exact leads_raise fun _ => (badOperands_iff_of_search hi).mpr hbad

theorem stepPgAgain_leads : Always (Leads i s) (stepPgAgain s) := by
  refine always_inSearch fun safe => ?_
  dsimp only
  rw [randBits_state]
  split_ifs
  · exact always_divide fun d => always_next.mpr (leads_runs hr fun _ => trivial)
  · exact always_next.mpr (leads_runs hr fun _ => trivial)

theorem stepPgResidue_leads : Always (Leads i s) (stepPgResidue s) := by
  refine always_inSearch fun _ => ?_
  split
  · exact always_fault.mpr trivial
  · exact always_next.mpr (leads_runs hr fun _ => trivial)

theorem stepPgSieve_leads (k : Nat) : Always (Leads i s) (stepPgSieve k s) := by
  refine always_inSearch fun safe => always_divide fun d => ?_
  dsimp only
  split_ifs
  · exact always_next.mpr (leads_runs hr fun _ => trivial)
  · exact always_next.mpr (leads_runs hr fun _ => trivial)
  · exact always_next.mpr (leads_runs hr fun _ => trivial)

theorem stepPgBump_leads : Always (Leads i s) (stepPgBump s) := by
  refine always_inSearch fun safe => ?_
  split_ifs
  · exact always_next.mpr (leads_runs hr fun _ => trivial)
  · exact always_next.mpr (leads_runs hr fun _ => trivial)

theorem stepPgFinal_leads : Always (Leads i s) (stepPgFinal s) := by
  refine always_inSearch fun _ => ?_
  dsimp only
  split_ifs
  · exact always_next.mpr (leads_runs hr fun _ => trivial)
  · split
    next safe hg => exact always_next.mpr (leads_runs hr fun _ => runsTester_of_running hr (.inr ⟨safe, hg⟩))
    next => exact always_next.mpr (leads_finish32 _)

/-- One transition of a running command. -/
theorem seqStep_leads : Always (Leads i s) (seqStep s) := by
  have hp : Placed i s → PlacedAt i s.mr.w s.seq := id
  revert hp
  unfold seqStep
  cases s.seq with
  | idle => exact fun _ => always_next.mpr (leads_runs hr id)
  | exec => exact fun _ => always_fault.mpr trivial
  | rrTry k => exact stepRrTry_leads hr k
  | ipPre => exact stepIpPre_leads hr
  | ipTrial k => exact stepIpTrial_leads hr k
  | ipFactor => exact fun hp => always_next.mpr (leads_runs hr hp)
  | ipRound j drawn =>
    cases drawn with
    | false => exact stepIpDraw_leads hr j
    | true => exact stepIpPower_leads hr j
  | ipSquare j k => exact stepIpSquare_leads hr j k
  | pgCheck => exact fun _ => stepPgCheck_leads hr
  | pgAgain => exact fun _ => stepPgAgain_leads hr
  | pgResidue => exact fun _ => stepPgResidue_leads hr
  | pgLoop => exact fun _ => inSearch_goTo_leads hr fun _ => trivial
  | pgSieve k => exact fun _ => stepPgSieve_leads hr k
  | pgBump => exact fun _ => stepPgBump_leads hr
  | pgFinal => exact fun _ => stepPgFinal_leads hr
  | gpCall => exact fun _ => inSearch_goTo_leads hr fun _ => trivial
  | gpVerifyP => exact fun hp => inSearch_goTo_leads hr hp
  | gpVerifyQ => exact fun hp => inSearch_goTo_leads hr hp

end

/-! ### The engine's turn and the commands with named states -/

/-- The causes of InvalidParameter lie in the operand registers, which no transition writes (10 R22). -/
theorem badOperands_congr {s t : State} (i : Instr) (h : fixed t = fixed s) : BadOperands i t ↔ BadOperands i s :=
  Iff.of_eq (eq_of_view h (BadOperands i) fun _ => by cases i <;> rfl)

theorem Leads.trans {i : Instr} {s u t : State} (hf : fixed u = fixed s) (hp : Placed i s → Placed i u)
    (h : Leads i u t) : Leads i s t := by
  rcases h with ⟨hr, hp'⟩ | hend | ⟨v, e, rfl, hmay⟩
  · exact .inl ⟨hr, hp' ∘ hp⟩
  · exact .inr (.inl hend)
  · refine leads_raise ?_
    cases e with
    | invalidParameter => exact fun h => (badOperands_congr i hf).mp (hmay (hp h))
    | samplingExhausted | primalityInconclusive => exact hmay
    | noInverseExists | degenerateSharedSecret | illegalCommand | notInitialised => exact hmay.elim

theorem engineTurn_leads {i : Instr} {s : State} (hr : s.running = some i) :
    Always (Leads i s) (engineTurn s) := by
  have step (u : State) (hu : fixed u = fixed s ∧ Leads i s u) (hbu : u.busy = true) :
      Always (fun t => fixed t = fixed s ∧ Leads i s t) (seqStep u) := by
    obtain ⟨hf, ⟨hru, hp⟩ | ⟨_, _, rfl⟩ | ⟨_, _, rfl, _⟩⟩ := hu
    · exact fun t ht => ⟨(seqStep_turn hbu t ht).1.trans hf, (seqStep_leads hru t ht).trans hf hp⟩
    · cases hbu
    · cases hbu
  exact fun t ht => (always_runSeq step ⟨rfl, .inl ⟨hr, id⟩⟩ _ t ht).2

/-- A turn that ends the command has ended it without error, or has raised one of its errors. -/
theorem engineTurn_end {i : Instr} {s t : State} (hb : s.busy = true) (hr : s.running = some i)
    (h : engineTurn s = .next t) (hidle : t.busy = false) :
    t.err = 0 ∨ ∃ u e, t = State.raise e u ∧ MayRaise i s e := by
  rcases engineTurn_leads hr t h with ⟨hrt, _⟩ | ⟨_, _, rfl⟩ | hraise
  · obtain ⟨_, hbt | ⟨⟨_, _, hnone, _⟩, _⟩⟩ := engineTurn_turn (turn_busy rfl hb) t h
    · simp [hidle] at hbt
    · simp [hrt] at hnone
  · exact .inl rfl
  · exact .inr hraise

/-- A loop command that accepts its operands begins in a state of its own (43 R165, 44 R176, 45 R213). -/
theorem loopEntry_placed {s : State} {i : Instr} (hi : IsLoop i) (hgood : ¬ BadOperands i s) :
    (loopEntry i s).busy = true ∧ (loopEntry i s).running = some i ∧ Placed i (loopEntry i s) := by
  rcases hi with rfl | rfl | ⟨safe, rfl | rfl | rfl⟩
  · rw [loopEntry, State.beginDraw, if_neg (show s.xl ≠ 0 from hgood)]
    exact ⟨rfl, rfl, .inl rfl⟩
  · exact ⟨rfl, rfl, .inl rfl⟩
  · exact ⟨rfl, rfl, trivial⟩
  · exact ⟨rfl, rfl, trivial⟩
  · exact ⟨rfl, rfl, trivial⟩

/-- A loop command that accepts its operands and ends in its first step does so without error, or raises one of its
errors, which is then not InvalidParameter. -/
theorem exec_loop_end {s t : State} {i : Instr} (h : Ready s) (hi : IsLoop i) (hgood : ¬ BadOperands i s)
    (hexec : exec i s = .next t) (hidle : t.busy = false) :
    t.err = 0 ∨ ∃ u e, t = State.raise e u ∧ MayRaise i (loopEntry i s) e ∧ e ≠ .invalidParameter := by
  obtain ⟨hr, _⟩ | ⟨_, e⟩ := exec_loop s hi
  · exact absurd h hr
  obtain ⟨hb, hrun, hplaced⟩ := loopEntry_placed hi hgood
  rcases engineTurn_end hb hrun (e.symm.trans hexec) hidle with herr | ⟨u, e, rfl, hmay⟩
  · exact .inl herr
  · refine .inr ⟨u, e, rfl, hmay, ?_⟩
    rintro rfl
    exact hgood ((badOperands_congr i (loopEntry_turn s hi).1).mp (hmay hplaced))

/-! ### The obligations on the errors -/

/-- All that a command can end with that accepts its operands: no error, INVMOD's, or one that a transition of a loop
command raises. -/
theorem exec_good_end {s t : State} {i : Instr} (h : Ready s) (hgood : ¬ BadOperands i s) (hexec : exec i s = .next t)
    (hidle : t.busy = false) :
    t.err = 0 ∨ (i = .invmod ∧ t.err = 3 ∧ NoResult t) ∨
      (IsLoop i ∧ ∃ u e, t = State.raise e u ∧ MayRaise i (loopEntry i s) e ∧ e ≠ .invalidParameter) := by
  cases i using instr_kinds with
  | initsp => exact .inl ((exec_exempt s (.inr (.inl rfl))).always t hexec).2
  | initpt => exact .inl ((exec_exempt s (.inr (.inr (.inl rfl)))).always t hexec).2
  | seedrng => exact .inl ((exec_exempt s (.inr (.inr (.inr rfl)))).always t hexec).2
  | loop i hi =>
    rcases exec_loop_end h hi hgood hexec hidle with herr | hraise
    · exact .inl herr
    · exact .inr (.inr ⟨hi, hraise⟩)
  | once i hi =>
    obtain ⟨_, herr | hinv⟩ := (exec_once_endsWell h hi hgood).always t hexec
    · exact .inl herr
    · exact .inr (.inl hinv)

theorem code_ne_one {e : ErrKind} (h : e ≠ .invalidParameter) : e.code ≠ 1 := by
  cases e with
  | invalidParameter => exact absurd rfl h
  | samplingExhausted | noInverseExists | degenerateSharedSecret | primalityInconclusive | illegalCommand
  | notInitialised => decide

/-- A command that accepts its operands does not end with InvalidParameter. -/
theorem err_ne_one_of_good {s t : State} {i : Instr} (h : Ready s) (hgood : ¬ BadOperands i s)
    (hexec : exec i s = .next t) (hidle : t.busy = false) : t.err ≠ 1 := by
  rcases exec_good_end h hgood hexec hidle with herr | ⟨_, herr, _⟩ | ⟨_, u, e, rfl, _, hne⟩
  · simp [herr]
  · simp [herr]
  · exact code_ne_one hne

/-- Settles O27: the operands of the list are refused with nothing drawn, and no other operands end so. -/
theorem invalidParameterHasExactlyTheListedCauses : Obligations.InvalidParameterHasExactlyTheListedCauses := by
  intro s t i h hexec
  by_cases hbad : BadOperands i s
  · obtain ⟨w, e⟩ := exec_badOperands h hbad
    cases e.symm.trans hexec
    exact ⟨iff_of_true ⟨rfl, rfl⟩ hbad, fun _ => ⟨rfl, rfl, rfl⟩⟩
  · exact ⟨iff_of_false (fun ⟨hidle, herr⟩ => err_ne_one_of_good h hbad hexec hidle herr) hbad,
      fun hb => absurd hb hbad⟩

/-- The errors of a loop command are those that the tables give it (60 R275, R276, R279). -/
theorem endsProperly_of_mayRaise {i : Instr} {ready : Prop} {s u : State} {e : ErrKind} (hi : IsLoop i)
    (h : MayRaise i s e) : EndsProperly i ready (u.raise e) := by
  refine .inr ⟨rfl, rfl, rfl, rfl, rfl, ?_⟩
  cases e with
  | invalidParameter => exact .inr (.inl ⟨rfl, hasBadOperands_of_isLoop hi⟩)
  | samplingExhausted => exact .inr (.inr (.inl ⟨rfl, h⟩))
  | primalityInconclusive => exact .inr (.inr (.inr (.inr ⟨rfl, h⟩)))
  | noInverseExists | degenerateSharedSecret | illegalCommand | notInitialised => exact h.elim

/-- After setup a command that accepts its operands ends without error, or with one that the tables give it. -/
theorem exec_good_endsProperly {s t : State} {i : Instr} {ready : Prop} (h : Ready s) (hgood : ¬ BadOperands i s)
    (hexec : exec i s = .next t) (hidle : t.busy = false) : EndsProperly i ready t := by
  rcases exec_good_end h hgood hexec hidle with
    herr | ⟨hi, herr, hph, hpl, hqh, hql, hc⟩ | ⟨hi, u, e, rfl, hmay, _⟩
  · exact .inl herr
  · exact .inr ⟨hph, hpl, hqh, hql, hc, .inr (.inr (.inr (.inl ⟨herr, hi⟩)))⟩
  · exact endsProperly_of_mayRaise hi hmay

/-- Settles O49: before setup the gate decides, after it the operands, the command's one transition or its turn. -/
theorem errorsAreThoseOfTheCommand : Obligations.ErrorsAreThoseOfTheCommand := by
  refine fun s t i hidle => ⟨fun hexec => ?_, fun hinv hb hr hturn => ?_⟩
  · by_cases hexempt : IsExempt i
    · exact .inl ((exec_exempt s hexempt).always t hexec).2
    by_cases h : Ready s
    · by_cases hbad : BadOperands i s
      · obtain ⟨w, e⟩ := exec_badOperands h hbad
        cases e.symm.trans hexec
        exact .inr ⟨rfl, rfl, rfl, rfl, rfl, .inr (.inl ⟨rfl, hasBadOperands_of_badOperands hbad⟩)⟩
      · exact exec_good_endsProperly h hbad hexec hidle
    · cases (exec_not_ready hexempt h).symm.trans hexec
      exact .inr ⟨rfl, rfl, rfl, rfl, rfl, .inl ⟨rfl, hexempt, h⟩⟩
  · obtain ⟨_, _, _, hrun⟩ := hinv.busy hb
    rcases engineTurn_end hb hr hturn hidle with herr | ⟨u, e, rfl, hmay⟩
    · exact .inl herr
    · exact endsProperly_of_mayRaise (isLoop_of_runningOk hrun hr) hmay

end Sys2Proof.Proofs

/-! The reset input (70 R300, R301): the step that takes it, what it clears, and the state after reset itself. -/

namespace Sys2Proof.Proofs

open Sys2Proof.Machine Sys2Proof.Safety Sys2Proof.Laws

/-- The reset input acts whatever the block was doing: neither BUSY nor the sequencer is asked (70 R300). -/
theorem step_reset (s : State) (rest : List HostAction) :
    step { s with hostQueue := .reset :: rest } = .next { s with hostQueue := rest }.resetBlock := rfl

/-- The operand registers, CHECKS and CMD read 0 after reset (70 R301). -/
theorem hostRegs_resetBlock (s : State) : hostRegs s.resetBlock = List.replicate 9 0 := rfl

/-- The result registers hold no outcome of the abandoned command (70 R300, R301). -/
theorem resetBlock_results (s : State) :
    s.resetBlock.ph = 0 ∧ s.resetBlock.pl = 0 ∧ s.resetBlock.qh = 0 ∧ s.resetBlock.ql = 0 :=
  ⟨rfl, rfl, rfl, rfl⟩

/-- STATUS is 0, without an error code, and the sequencer is idle (70 R300, R301). -/
theorem resetBlock_status (s : State) :
    s.resetBlock.busy = false ∧ s.resetBlock.done = false ∧ s.resetBlock.carry = false ∧ s.resetBlock.isp = false ∧
    s.resetBlock.ipt = false ∧ s.resetBlock.err = 0 ∧ s.resetBlock.seq = .idle :=
  ⟨rfl, rfl, rfl, rfl, rfl, rfl, rfl⟩

/-- The reset input changes nothing in the state after reset. -/
theorem resetBlock_reset : State.reset.resetBlock = State.reset := rfl

/-- Settles O57: the step is `resetBlock`, which clears the registers and keeps the random source and the host. -/
theorem resetFromAnyState : Obligations.ResetFromAnyState := by
  intro s rest
  let u : State := { s with hostQueue := rest }
  obtain ⟨hph, hpl, hqh, hql⟩ := resetBlock_results u
  obtain ⟨hbusy, hdone, hcarry, hisp, hipt, herr, hseq⟩ := resetBlock_status u
  exact ⟨u.resetBlock, step_reset s rest, hostRegs_resetBlock u, hph, hpl, hqh, hql, hbusy, hdone, hcarry, hisp, hipt,
    herr, hseq, resetBlock_keeps u⟩

/-- Settles O58: the reset input leaves a block with the invariant, and the state after reset is such a block. -/
theorem resetSatisfiesTheInvariant : Obligations.ResetSatisfiesTheInvariant := by
  have h : Inv State.reset.resetBlock := resetBlock_inv State.reset
  rwa [resetBlock_reset] at h

end Sys2Proof.Proofs
